-- ==== Sys2Proof/Word.lean ====
section
/-! DEFINITION. The types of the block's values (00_scope R7, R12): DW = 32, addresses and counters as natural numbers,
since their widths AW and CW are parameters of the configuration (log 6), and the 8-bit and 5-bit numbers of the command
descriptor (30_encoding R91, R104). -/

namespace Sys2Proof

/-- A data word: DW = 32 bits (R7). -/
abbrev Word := BitVec 32

/-- An address, an instance offset or a register index, unsigned; AW is a parameter, and every sum is taken modulo
2^AW (R61, R62, R104, `Config.wrap`; log 6). -/
abbrev Addr := Nat

/-- A partition id as an operand: an 8-bit number that may be out of range (R104). -/
abbrev PartId := BitVec 8

/-- A domain id as an operand: an 8-bit number that may be out of range (R104). -/
abbrev DomId := BitVec 8

/-- The bit number of a reset line, 0 to 31 (R96, R104). -/
abbrev Shift := BitVec 5

/-- MSG and REC, unsigned and below 2^CW (R23, R24). They are only tested, counted down and loaded, so no operation
wraps (R207; log 6). -/
abbrev Counter := Nat

end Sys2Proof
end

