-- ==== Sys2Proof/Syntax.lean ====
section
/-! DEFINITION. The abstract commands of the block (30_encoding R92, R104): one constructor per row of
spec/opcode_table.json, operands in the order of R104. -/

namespace Sys2Proof

/-- A target descriptor (10_state R46, 30_encoding R104). -/
structure TD where
  voltNominal : Word
  errgain : Word
  efuse : Word
  deriving DecidableEq, Repr

/-- The 17 commands (R104). `td = none` is the source's "target descriptor is absent". -/
inductive Instr where
  | initBases (bases : List Addr)
  | read (part : PartId) (inst idx : Addr)
  | write (value : Word) (part : PartId) (inst idx : Addr)
  | rmw (mask bits : Word) (part : PartId) (inst idx : Addr)
  | rstIsAsserted (shift : Shift) (part : PartId) (inst ctrlOffset : Addr)
  | rstAssert (shift : Shift) (part : PartId) (inst ctrlOffset : Addr)
  | rstDeassert (shift : Shift) (part : PartId) (inst ctrlOffset : Addr)
  | warmReset
  | coldReset
  | vpReadVolt (d : DomId)
  | vpInit (d : DomId)
  | vpTxdone (d : DomId)
  | vpTxclr (d : DomId)
  | vpErrgain (d : DomId) (td : Option TD)
  | vpScale (d : DomId) (td : Option TD)
  | vpEnable (d : DomId)
  | vpDisable (d : DomId)
  deriving DecidableEq, Repr

end Sys2Proof
end

