-- ==== Sys2Proof/Config.lean ====
section
/-! DEFINITION. What an implementation fixes (00_scope R7, 10_state R40 to R45) as one record of plain data,
the types of what the other agents do at the ports, and the free values of the model.
The record stands in `State.cfg` and no step changes it, so a statement about every state is a statement about
every configuration (log 5). A field of type `Nat` that is no address or counter has no width: no condition bounds it to
R14's 32 bits (DESIGN CHOICE, log 39). Every opaque constant below is a free value: nothing is known of it (log 20). -/

namespace Sys2Proof

/-- The port of a register access (R8): the MMIO port, or the DOM port of one domain (R38). -/
inductive Port where
  | mmio
  | dom (d : DomId)
  deriving DecidableEq, Repr

/-- A PMIC conversion function, total and pure (R42, U23), written as data. -/
inductive PmicFn where
  /-- selector = ceil((uV - offset) / step), the shape of EX1's `uv_to_vsel`; free where that is no natural number
  (log 15). -/
  | ceilSteps (offset step : Nat)
  /-- uV = offset + step * selector, the shape of EX1's `vsel_to_uv`; free where that is no 32-bit number (log 15). -/
  | linear (offset step : Nat)
  /-- a finite table with a value for every other argument. -/
  | table (rows : List (Word × Word)) (otherwise : Word)
  /-- the `k`-th of the functions nothing is known about. -/
  | free (k : Nat)
  deriving DecidableEq, Repr

/-- `OperationVoltage` (R160): the default, or the `k`-th function nothing is known about (D33). -/
inductive OpVoltage where
  | nominal
  | free (k : Nat)
  deriving DecidableEq, Repr

/-- The two cycle formulas of VP_INIT: those of R165, or the `k`-th pair nothing is known about (D26). -/
inductive InitFormulas where
  | r165
  | free (k : Nat)
  deriving DecidableEq, Repr

/-- `Dom[d].pmic` (R42). Voltages in microvolts, times in microseconds. The numbers R165 computes with, the selector
steps and the error offset are naturals of any size (DESIGN CHOICE, log 39); the voltage bounds are 32-bit (R14). -/
structure Pmic where
  uvToVsel : Option PmicFn
  vselToUv : Option PmicFn
  stepSize : Nat
  slewRate : Nat
  vstepmin : Nat
  vstepmax : Nat
  timeoutUs : Nat
  vddmin : Word
  vddmax : Word
  erroroffset : Nat
  deriving DecidableEq, Repr

/-- `Dom[d].vp` (R43): the VP's id, a number of any size (log 39), its register addresses and its masks. -/
structure Vp where
  id : Nat
  vpconfig : Addr
  vstepmin : Addr
  vstepmax : Addr
  vlimitto : Addr
  vstatus : Addr
  voltage : Addr
  cfgErroroffset : Word
  cfgErrorgain : Word
  cfgInitvoltage : Word
  cfgTimeouten : Word
  cfgInitvdd : Word
  cfgForceupdate : Word
  cfgVpenable : Word
  sminStep : Word
  sminWait : Word
  smaxStep : Word
  smaxWait : Word
  limVddmax : Word
  limVddmin : Word
  limTimeout : Word
  stIdle : Word
  voltVsel : Word
  deriving DecidableEq, Repr

/-- `Dom[d].vc_param` (R44): the retention voltage. -/
structure VcParam where
  ret : Word
  deriving DecidableEq, Repr

/-- `Dom[d].vp_param` (R44). -/
structure VpParam where
  vddmin : Word
  vddmax : Word
  deriving DecidableEq, Repr

/-- `Dom[d]` (R40 to R45). `has_pmic`, `has_vp`, `has_vc_param`, `has_vp_param`, `has_uv_to_vsel` and
`has_vsel_to_uv` are the presence of the parts themselves. `clkRate` is a number of any size (log 39). -/
structure Dom where
  present : Bool
  hasRead : Bool
  hasWrite : Bool
  hasRmw : Bool
  pmic : Option Pmic
  vp : Option Vp
  vcParam : Option VcParam
  vpParam : Option VpParam
  hasRecover : Bool
  clkRate : Nat
  deriving DecidableEq, Repr

/-- The `GRST` parameters (R7, R49). `st` is a value of its own: the model does not ask that it be `ctrl` +
RST_ST_OFFSET, which D14 gives for the source's chip and no rule makes a condition (DESIGN CHOICE, log 38). -/
structure Grst where
  inst : List Addr
  ctrl : Addr
  st : Addr
  warmBit : Shift
  coldBit : Shift
  coldStBit : Shift
  deriving DecidableEq, Repr

/-- The parameters of R7, each as a field; NDOM is the length of `doms`. The source fixes DW and RST_ST_OFFSET, and
`Config.admitted` holds them to it. The delays are numbers of any size (log 39). -/
structure Config where
  dw : Nat
  aw : Nat
  cw : Nat
  nctx : Nat
  rstStOffset : Addr
  npart : Nat
  partInvalid : List PartId
  partPrm : PartId
  partPrcmMpu : PartId
  partScrm : PartId
  hardresetBudget : Word
  hardresetDelayUs : Nat
  vpIdleBudget : Word
  vpTxclearBudget : Word
  vpTxwaitBudget : Word
  vpDelayUs : Nat
  n1 : Counter
  n2 : Counter
  socVariant : Nat
  grst : Grst
  coldSettleUs : Nat
  opVoltage : OpVoltage
  initFormulas : InitFormulas
  doms : List Dom
  deriving DecidableEq, Repr

/-- What `pre_scale` answers (R46): the target and current selector, or a 32-bit error code. -/
inductive PreScaleResult where
  | ok (tsel csel : Word)
  | err (e : Word)
  deriving DecidableEq, Repr, Inhabited

/-- A step ENV, or another master, may take on its own between two events of the block (R9, R11, R69). -/
inductive EnvMove where
  /-- the target observes the oldest entry of WQ (R69). -/
  | observe
  /-- a register of the target takes a value (R9, R65, R228). -/
  | poke (port : Port) (addr : Addr) (value : Word)
  /-- the transaction-done indication of a VP takes a value (R55, R78). -/
  | txdone (id : Nat) (done : Bool)
  deriving DecidableEq, Repr

/-- Free value: what a read of a register whose contents are not known is answered (U1). -/
opaque Config.freeWord : Nat → Word

/-- Free value: what `check_txdone` answers where the indication is not known (U2). -/
opaque Config.freeBool : Nat → Bool

/-- Free value: the moves ENV makes at a turn that the script does not cover (U1, U14). -/
opaque Config.freeMoves : Nat → List EnvMove

/-- Free value: whether ENV resets the SoC at a turn that the script does not cover, and the fate of the queued writes
(R243, U19, U22). -/
opaque Config.freeReset : Nat → Option (List Bool)

/-- Free value: what `pre_scale` answers when HOST's prepared answers are used up (U2). -/
opaque Config.freePreScale : Nat → PreScaleResult

/-- Free value: what `get_current_voltage_data` answers when HOST's prepared answers are used up (U2). -/
opaque Config.freeLookup : Nat → Option TD

/-- Free value: a conversion function nothing is known about (U23). -/
opaque Config.freeConv : Nat → Word → Word

/-- Free value: the selector where the formula of `PmicFn.ceilSteps` gives no natural number (log 15). -/
opaque Config.freeSelector : Nat → Nat → Word → Word

/-- Free value: the voltage where the formula of `PmicFn.linear` gives no 32-bit number (log 15). -/
opaque Config.freeMicrovolts : Nat → Nat → Word → Word

/-- Free value: an `OperationVoltage` nothing is known about (U23). -/
opaque Config.freeOpVoltage : Nat → TD → Word

/-- Free value: VP_INIT's timeout and wait time from the clock rate, the PMIC's timeout, its step size and its
slew rate, where the formulas are not those of R165 (U23). -/
opaque Config.freeInit : Nat → Nat → Nat → Nat → Nat → Nat × Nat

/-- `Dom[2].vp` of the spec's example configuration EX1 (95_test_vectors, section 0). -/
def Config.ex1Vp : Vp where
  id := 7
  vpconfig := 0x00
  vstatus := 0x04
  vlimitto := 0x08
  voltage := 0x0C
  vstepmax := 0x10
  vstepmin := 0x14
  cfgErroroffset := 0xFF000000
  cfgErrorgain := 0x00FF0000
  cfgInitvoltage := 0x0000FF00
  cfgTimeouten := 0x00000008
  cfgInitvdd := 0x00000004
  cfgForceupdate := 0x00000002
  cfgVpenable := 0x00000001
  sminStep := 0x000000FF
  sminWait := 0x00FFFF00
  smaxStep := 0x000000FF
  smaxWait := 0x00FFFF00
  limVddmax := 0xFF000000
  limVddmin := 0x00FF0000
  limTimeout := 0x0000FFFF
  stIdle := 0x00000001
  voltVsel := 0x000000FF

/-- `Dom[2].pmic` of EX1. -/
def Config.ex1Pmic : Pmic where
  uvToVsel := some (.ceilSteps 600000 12500)
  vselToUv := some (.linear 600000 12500)
  stepSize := 12500
  slewRate := 4000
  vstepmin := 1
  vstepmax := 4
  timeoutUs := 200
  vddmin := 600000
  vddmax := 1450000
  erroroffset := 0

/-- `Dom[2]` of EX1: every capability present. -/
def Config.ex1Dom : Dom where
  present := true
  hasRead := true
  hasWrite := true
  hasRmw := true
  pmic := some Config.ex1Pmic
  vp := some Config.ex1Vp
  vcParam := some ⟨750000⟩
  vpParam := some ⟨825000, 1412500⟩
  hasRecover := true
  clkRate := 38400000

/-- EX1, the one configuration the spec writes out, with the defaults of R7: the configuration of `State.reset`
(log 5). `Dom[0]` has everything but a VP, `Dom[1]` is not present. -/
def Config.ex1 : Config where
  dw := 32
  aw := 32
  cw := 8
  nctx := 1
  rstStOffset := 4
  npart := 6
  partInvalid := [0]
  partPrm := 1
  partPrcmMpu := 5
  partScrm := 4
  hardresetBudget := 10000
  hardresetDelayUs := 1
  vpIdleBudget := 200
  vpTxclearBudget := 300
  vpTxwaitBudget := 300
  vpDelayUs := 1
  n1 := 10
  n2 := 10
  socVariant := 0
  grst := { inst := [0x1B00], ctrl := 0x0000, st := 0x0004, warmBit := 0, coldBit := 1, coldStBit := 0 }
  coldSettleUs := 184
  opVoltage := .nominal
  initFormulas := .r165
  doms := [{ Config.ex1Dom with vp := none }, { Config.ex1Dom with present := false }, Config.ex1Dom]

end Sys2Proof
end

