-- ==== Sys2Proof/WellFormed.lean ====
section
/-! DEFINITION. Well-formed commands: those that have a descriptor. Every operand of R104 is bounded by its type but the
addresses, which have one descriptor word each (R93, R94), and the number of bases of INIT_BASES, which is NPART
(`Vector Addr NPART`). -/

namespace Sys2Proof

/-- The address fits its descriptor word (R93, R94), whatever AW is (log 6). -/
def inWord (a : Addr) : Bool := a < 2 ^ 32

/-- `i` is a command of a block with `npart` partitions (R104). -/
def Instr.wellFormed (npart : Nat) : Instr → Bool
  | .initBases bases => bases.length == npart && bases.all inWord
  | .read _ inst idx => inWord inst && inWord idx
  | .write _ _ inst idx => inWord inst && inWord idx
  | .rmw _ _ _ inst idx => inWord inst && inWord idx
  | .rstIsAsserted _ _ inst off => inWord inst && inWord off
  | .rstAssert _ _ inst off => inWord inst && inWord off
  | .rstDeassert _ _ inst off => inWord inst && inWord off
  | .warmReset => true
  | .coldReset => true
  | .vpReadVolt _ => true
  | .vpInit _ => true
  | .vpTxdone _ => true
  | .vpTxclr _ => true
  | .vpErrgain _ _ => true
  | .vpScale _ _ => true
  | .vpEnable _ => true
  | .vpDisable _ => true

end Sys2Proof
end

