-- ==== Sys2Proof/Decode.lean ====
section
/-! DEFINITION. The command descriptor (30_encoding R90 to R98, R105): the decoder, total on any list of words and
rejecting by name, and the encoder written from the same tables. -/

namespace Sys2Proof

/-- Why a descriptor is illegal (R97). -/
inductive Reject where
  /-- OPC is not in R105 (R98). -/
  | reservedOpcode
  /-- W0[31:21] is not zero. -/
  | reservedBits
  /-- SEL is not zero where R91 requires 0. -/
  | selNotZero
  /-- SHIFT is not zero where R91 requires 0. -/
  | shiftNotZero
  /-- a must-be-zero word of R93 is not zero. -/
  | wordNotZero
  /-- the number of words is not the one R95 gives. -/
  | badLength
  deriving DecidableEq, Repr

/-- OPC = W0[7:0] (R91). -/
def opcOf (w0 : Word) : BitVec 8 := w0.extractLsb' 0 8

/-- SEL = W0[15:8] (R91). -/
def selOf (w0 : Word) : BitVec 8 := w0.extractLsb' 8 8

/-- SHIFT = W0[20:16] (R91). -/
def shiftOf (w0 : Word) : Shift := w0.extractLsb' 16 5

/-- The reserved bits W0[31:21] (R91). -/
def reservedOf (w0 : Word) : BitVec 11 := w0.extractLsb' 21 11

/-- The number of words of a descriptor, from W0[7:0] alone (R95). -/
def descriptorLength (npart : Nat) (w0 : Word) : Nat :=
  if opcOf w0 = 0x01#8 then 1 + npart else 5

/-- Reject unless the condition holds. -/
def need (holds : Bool) (r : Reject) (otherwise : Except Reject Instr) : Except Reject Instr :=
  if holds then otherwise else .error r

/-- The optional target descriptor of VP_ERRGAIN and VP_SCALE from A (`TDP`), B, C, D (R93). -/
def decodeTd (a b c d : Word) : Except Reject (Option TD) :=
  if a = 1#32 then .ok (some ⟨b, c, d⟩)
  else if a = 0#32 ∧ b = 0#32 ∧ c = 0#32 ∧ d = 0#32 then .ok none
  else .error .wordNotZero

/-- Format F5 (R93, R105): all but INIT_BASES. An operand is the number as written (R96). -/
def decodeF5 (opc sel : BitVec 8) (shift : Shift) (a b c d : Word) : Except Reject Instr :=
  match opc with
  | 0x02#8 => need (shift == 0) .shiftNotZero (need (c == 0 && d == 0) .wordNotZero (.ok (.read sel a.toNat b.toNat)))
  | 0x03#8 => need (shift == 0) .shiftNotZero (need (d == 0) .wordNotZero (.ok (.write c sel a.toNat b.toNat)))
  | 0x04#8 => need (shift == 0) .shiftNotZero (.ok (.rmw c d sel a.toNat b.toNat))
  | 0x08#8 => need (c == 0 && d == 0) .wordNotZero (.ok (.rstIsAsserted shift sel a.toNat b.toNat))
  | 0x09#8 => need (c == 0 && d == 0) .wordNotZero (.ok (.rstAssert shift sel a.toNat b.toNat))
  | 0x0A#8 => need (c == 0 && d == 0) .wordNotZero (.ok (.rstDeassert shift sel a.toNat b.toNat))
  | 0x0C#8 => need (sel == 0) .selNotZero (need (shift == 0) .shiftNotZero
      (need (a == 0 && b == 0 && c == 0 && d == 0) .wordNotZero (.ok .warmReset)))
  | 0x0D#8 => need (sel == 0) .selNotZero (need (shift == 0) .shiftNotZero
      (need (a == 0 && b == 0 && c == 0 && d == 0) .wordNotZero (.ok .coldReset)))
  | 0x10#8 => need (shift == 0) .shiftNotZero
      (need (a == 0 && b == 0 && c == 0 && d == 0) .wordNotZero (.ok (.vpReadVolt sel)))
  | 0x11#8 => need (shift == 0) .shiftNotZero
      (need (a == 0 && b == 0 && c == 0 && d == 0) .wordNotZero (.ok (.vpInit sel)))
  | 0x12#8 => need (shift == 0) .shiftNotZero
      (need (a == 0 && b == 0 && c == 0 && d == 0) .wordNotZero (.ok (.vpTxdone sel)))
  | 0x13#8 => need (shift == 0) .shiftNotZero
      (need (a == 0 && b == 0 && c == 0 && d == 0) .wordNotZero (.ok (.vpTxclr sel)))
  | 0x14#8 => need (shift == 0) .shiftNotZero ((decodeTd a b c d).map (.vpErrgain sel))
  | 0x15#8 => need (shift == 0) .shiftNotZero ((decodeTd a b c d).map (.vpScale sel))
  | 0x16#8 => need (shift == 0) .shiftNotZero
      (need (a == 0 && b == 0 && c == 0 && d == 0) .wordNotZero (.ok (.vpEnable sel)))
  | 0x17#8 => need (shift == 0) .shiftNotZero
      (need (a == 0 && b == 0 && c == 0 && d == 0) .wordNotZero (.ok (.vpDisable sel)))
  | _ => .error .reservedOpcode

/-- Decode one descriptor of a block with `npart` partitions (R97): the reserved bits first, then the format. -/
def decode (npart : Nat) : List Word → Except Reject Instr
  | [] => .error .badLength
  | w0 :: rest =>
    if reservedOf w0 ≠ 0#11 then .error .reservedBits
    else if opcOf w0 = 0x01#8 then
      need (selOf w0 == 0) .selNotZero (need (shiftOf w0 == 0) .shiftNotZero
        (need (rest.length == npart) .badLength (.ok (.initBases (rest.map BitVec.toNat)))))
    else
      match rest with
      | [a, b, c, d] => decodeF5 (opcOf w0) (selOf w0) (shiftOf w0) a b c d
      | _ => .error .badLength

/-- Word 0 of a descriptor (R91): reserved || SHIFT || SEL || OPC. -/
def word0 (opc sel : BitVec 8) (shift : Shift) : Word := 0#11 ++ shift ++ sel ++ opc

/-- A, B, C, D for an optional target descriptor (R93). -/
def encodeTd : Option TD → List Word
  | none => [0, 0, 0, 0]
  | some td => [1, td.voltNominal, td.errgain, td.efuse]

/-- The descriptor word of an address (R93, R94). -/
def addrWord (a : Addr) : Word := BitVec.ofNat 32 a

/-- The descriptor of a command (R91, R93, R94, R105). -/
def encode : Instr → List Word
  | .initBases bases => word0 0x01 0 0 :: bases.map addrWord
  | .read part inst idx => [word0 0x02 part 0, addrWord inst, addrWord idx, 0, 0]
  | .write value part inst idx => [word0 0x03 part 0, addrWord inst, addrWord idx, value, 0]
  | .rmw mask bits part inst idx => [word0 0x04 part 0, addrWord inst, addrWord idx, mask, bits]
  | .rstIsAsserted shift part inst off => [word0 0x08 part shift, addrWord inst, addrWord off, 0, 0]
  | .rstAssert shift part inst off => [word0 0x09 part shift, addrWord inst, addrWord off, 0, 0]
  | .rstDeassert shift part inst off => [word0 0x0A part shift, addrWord inst, addrWord off, 0, 0]
  | .warmReset => [word0 0x0C 0 0, 0, 0, 0, 0]
  | .coldReset => [word0 0x0D 0 0, 0, 0, 0, 0]
  | .vpReadVolt d => [word0 0x10 d 0, 0, 0, 0, 0]
  | .vpInit d => [word0 0x11 d 0, 0, 0, 0, 0]
  | .vpTxdone d => [word0 0x12 d 0, 0, 0, 0, 0]
  | .vpTxclr d => [word0 0x13 d 0, 0, 0, 0, 0]
  | .vpErrgain d td => word0 0x14 d 0 :: encodeTd td
  | .vpScale d td => word0 0x15 d 0 :: encodeTd td
  | .vpEnable d => [word0 0x16 d 0, 0, 0, 0, 0]
  | .vpDisable d => [word0 0x17 d 0, 0, 0, 0, 0]

/-- The `k`-th 32-bit word of a number whose bit 0 is bit 0 of word 0. -/
def wordAt (w k : Nat) : Word := BitVec.ofNat 32 (w >>> (32 * k))

/-- The descriptor whose bits are the low `nbits` of `w`, all higher bits 0, as long as R95 says. -/
def tableWords (npart nbits w : Nat) : List Word :=
  let bits := w % 2 ^ nbits
  (List.range (descriptorLength npart (wordAt bits 0))).map (wordAt bits)

/-- What the decoder reads from an instruction numbered as spec/opcode_table.json numbers it, on the block of
`State.reset` (NPART of EX1; log 30). -/
def decodeTableWord (nbits w : Nat) : Option Instr :=
  (decode Config.ex1.npart (tableWords Config.ex1.npart nbits w)).toOption

end Sys2Proof
end

