-- ==== Sys2Proof/Machine/State.lean ====
section
/-! DEFINITION. The state of the machine (10_state R20 to R39): the block's own registers, the configuration it is
built with, and what the other agents hold (ENV's known registers, HOST's pending inputs and answers), all plain
data; the reasons a step can stop; and the state after block reset (R39, R240). -/

namespace Sys2Proof.Machine

/-- MODE (R25). -/
inductive Mode where
  | ready
  | busy
  | fatal
  deriving DecidableEq, Repr

/-- The kind of `Failed(kind)` (R26). -/
inductive FailKind where
  | invalidArgument
  | timeout
  | hookError
  deriving DecidableEq, Repr

/-- VPSTATE (R26). -/
inductive VpState where
  | idle
  | configWriting
  | transactionPending
  | failed (kind : FailKind)
  deriving DecidableEq, Repr

/-- The line labels of the commands (R27), as the family files write them. -/
inductive Label where
  | I1 | I2 | RD1 | RD2 | WR1 | WR2 | RM1 | RM2
  | IA1 | IA2 | AS1 | AS2 | AS3 | DA1 | DA2 | DA3 | DA4 | DA5 | DA6
  | WM1 | WM2 | WM3 | WM4 | CD1 | CD2 | CD3 | CD4 | CD5 | CD6
  | RV1 | RV2 | RV3 | RV4 | IN1 | IN2 | IN3 | IN4 | IN5 | IN6 | IN7 | IN8
  | TD1 | TD2 | TC1 | TC2 | EG1 | EG2 | EG3
  | S0 | S1 | S2 | S3 | S4 | S5 | S6 | S7 | S8 | S9 | S10 | S11
  | EN1 | EN2 | EN3 | EN4 | EN5 | EN6 | EN7 | DS1 | DS2 | DS3 | DS4 | DS5 | DS6 | DS7
  deriving DecidableEq, Repr

/-- The line labels of the subroutines PollUntil, ClearTxDone, SetInitVoltage and ReportError. -/
inductive SubLabel where
  | P0 | P1 | P2 | P3 | P4 | P5
  | C0 | C1 | C2 | C3 | C4 | C5 | C6
  | V1 | V2 | V3 | V4 | V5 | V6
  | E1 | E2
  deriving DecidableEq, Repr

/-- PHASE (R27): the line of the command, and the line of the subroutine it is in, if any. R27 gives PHASE one label,
the line that produces the event, and says nothing of the line to return to. The pair is the model's choice (DESIGN
CHOICE, log 36): `sub` is R27's label while a subroutine with labels runs, and `line` is then the line that called it;
elsewhere `line` is R27's label. -/
structure Phase where
  line : Label
  sub : Option SubLabel
  deriving DecidableEq, Repr

/-- The status of a response (R101). -/
inductive Status where
  | ok
  | alreadyDeasserted
  | busy
  | invalidArgument
  | timeout
  | hookError
  | illegalCommand
  deriving DecidableEq, Repr

/-- The kinds of log event (R226). -/
inductive LogKind where
  | errFull
  | errRateLimited
  | configError
  | warnAlreadyDisabled
  deriving DecidableEq, Repr

/-- A callback with its arguments and what HOST answered (R46). -/
inductive Call where
  | checkTxdone (id : Nat) (answer : Bool)
  | clearTxdone (id : Nat)
  | recover (id : Nat)
  | preScale (d : DomId) (target : Word) (td : TD) (answer : PreScaleResult)
  | postScale (d : DomId) (target : Word) (td : TD) (tsel csel : Word)
  | getCurrentVoltageData (d : DomId) (answer : Option TD)
  deriving DecidableEq, Repr

/-- One event of the block at a port (R8, R11), and the two resets that may cut a command short (R242, R243). -/
inductive Event where
  | mmioRead (addr : Addr) (value : Word)
  | mmioWrite (addr : Addr) (value : Word)
  | domRead (d : DomId) (addr : Addr) (value : Word)
  | domWrite (d : DomId) (addr : Addr) (value : Word)
  | domRmw (d : DomId) (addr : Addr) (mask bits : Word) (new : Word)
  | call (c : Call)
  | log (kind : LogKind) (d : DomId)
  | delay (us : Nat)
  | respond (status : Status) (value : Word)
  | blockReset
  | socReset
  deriving DecidableEq, Repr

/-- The command latch (R28). -/
structure Latch where
  opc : BitVec 8
  sel : BitVec 8
  shift : BitVec 5
  a : Word
  b : Word
  c : Word
  d : Word
  bases : List Word
  deriving DecidableEq, Repr

/-- The working registers (R29). `none` is the spec's own "holds no value" (R34; log 7). Between a command's response
and the next accept they keep its values, the model's choice (log 35). -/
structure Work where
  ea : Option Addr := none
  v : Option Word := none
  m : Option Word := none
  cnt : Option Word := none
  okf : Option Bool := none
  cfg : Option Word := none
  vsel : Option Word := none
  tvolt : Option Word := none
  tsel : Option Word := none
  csel : Option Word := none
  tmo : Option Word := none
  wait : Option Word := none
  vmin : Option Word := none
  vmax : Option Word := none
  deriving DecidableEq, Repr

/-- A posted write (R36). -/
structure Write where
  port : Port
  addr : Addr
  value : Word
  deriving DecidableEq, Repr

/-- An entry of the posted-write queue (R36). The MODEL's own `request` says that the write asks for a global reset,
as the block addressed it when it was issued (R49, R243; log 18). -/
structure WEntry extends Write where
  request : Bool
  deriving DecidableEq, Repr

/-- What may happen at a turn, between two events (R11): a move of ENV, the SoC's global reset (R243), or a block
reset (R240). `keep` says of each queued write, oldest first, whether the target still observes it (R242). -/
inductive Move where
  | env (m : EnvMove)
  | socReset (keep : List Bool)
  | blockReset (keep : List Bool)
  deriving DecidableEq, Repr

/-- ENV's state as far as it is known (R47 to R55, R86). `regs` is the memory of the model: (key, word) pairs with
keys strictly rising (`Target.wf`); a key that is not listed has no known value, and a read of it is answered by a
free value (log 9). -/
structure Target where
  regs : List (Nat × Word)
  w1c : List Nat
  txdone : List (Nat × Bool)
  seen : List WEntry
  armed : Bool
  deriving DecidableEq, Repr

/-- The answers HOST has prepared for its callbacks (R46), first to be given first. -/
structure HostAnswers where
  preScale : List PreScaleResult
  lookup : List (Option TD)
  deriving DecidableEq, Repr

/-- The state. The first group is R20's list, in its order. -/
structure State where
  /-- BASE (R21). -/
  base : List Addr
  /-- VPEN (R22). -/
  vpen : List Bool
  /-- MSG (R23). -/
  msgCnt : Counter
  /-- REC (R24). -/
  recCnt : Counter
  /-- MODE (R25). -/
  mode : Mode
  /-- VPSTATE (R26). -/
  vpstate : VpState
  /-- PHASE (R27), the program counter; `none` while no command is in progress. -/
  phase : Option Phase
  /-- The command latch (R28). -/
  latch : Latch
  /-- The working registers (R29). -/
  work : Work
  /-- RES (R30), the status code of the last response. -/
  res : BitVec 8
  /-- RVAL (R30), the value of the last response. -/
  rval : Word
  /-- WQ (R36), oldest entry first. -/
  wq : List WEntry
  /-- The configuration (R7, R40): no step changes it. -/
  cfg : Config
  /-- CMD: words HOST has presented and the block has not taken (R90); no reset takes one off (log 37). -/
  cmd : List Word
  /-- A block reset HOST has signalled, with the fate of the queued writes (R240, R242). -/
  resetPin : Option (List Bool)
  /-- What happens at each coming turn (R11); where it ends, ENV moves freely (log 2). -/
  script : List (List Move)
  /-- Whether ENV may also reset the SoC at the turns the script does not cover (R79, R243; log 2). -/
  freeResets : Bool
  /-- HOST's prepared answers (R46). -/
  host : HostAnswers
  /-- ENV's state as far as it is known. -/
  target : Target
  /-- The MODEL's own: how many free values have been drawn (log 20). -/
  tick : Nat
  /-- The MODEL's own: every event so far with the PHASE that produced it, newest first (log 31). -/
  hist : List (Option Phase × Event)
  deriving DecidableEq, Repr

/-- The events so far, newest first. -/
def State.events (s : State) : List Event := s.hist.map (fun e => e.2)

/-- Why the machine stops with a fault. -/
inductive Fault where
  /-- Raised by every command in MODE FATAL, and by `step` there when no reset comes: "The block accepts no further
  command" (R212). Safe: the model stops where the block is stuck, and a reset is still taken by `step` (log 27). -/
  | fatalMode
  deriving DecidableEq, Repr

/-- Why the machine has no meaning for what it was asked. -/
inductive Refusal where
  /-- An arm of `exec` that has no meaning yet. Safe. -/
  | notModelled (mnemonic : String)
  /-- Raised by a register access at an address that is not a multiple of 4: "a model refuses a command whose
  resolved address ... is not a multiple of 4" (R63, U4). Safe. -/
  | misaligned
  /-- Raised where `place` is undefined: "A configuration in which some `place` is undefined is not admitted (the
  model refuses it)" (R13, R56, U9). Safe. -/
  | fieldOverflow
  /-- Raised by VP_TXDONE, VP_TXCLR and VP_SCALE: "a model refuses a command whose relied-on capability is absent"
  (R180, U10, U11). Safe. -/
  | missingCapability
  /-- Raised by every command when the configuration is not admitted: "A model refuses any other configuration"
  (R56). Safe. -/
  | configNotAdmitted
  /-- Raised by `step` and every command in MODE BUSY: a command runs whole within one step, so no step leaves or
  reset gives such a state (log 14). Safe. -/
  | midCommand
  deriving DecidableEq, Repr

/-- The state after block reset (R39, R240), of a block built with `c` and with nothing known of the other agents.
The latch, RES and RVAL have no value in the spec; the model names 0 (log 8). The script is empty and free turns may be
the SoC's reset (log 2). -/
def State.atReset (c : Config) : State where
  base := List.replicate c.npart 0
  vpen := List.replicate c.doms.length false
  msgCnt := c.n1
  recCnt := c.n2
  mode := .ready
  vpstate := .idle
  phase := none
  latch := { opc := 0, sel := 0, shift := 0, a := 0, b := 0, c := 0, d := 0, bases := [] }
  work := {}
  res := 0
  rval := 0
  wq := []
  cfg := c
  cmd := []
  resetPin := none
  script := []
  freeResets := true
  host := { preScale := [], lookup := [] }
  target := { regs := [], w1c := [], txdone := [], seen := [], armed := false }
  tick := 0
  hist := []

/-- The machine right after reset, with the configuration EX1 (log 5). -/
def State.reset : State := State.atReset Config.ex1

end Sys2Proof.Machine
end

