-- ==== Sys2Proof/Machine/Operands.lean ====
section
/-! DEFINITION. The operand forms: field insertion and extraction (R13), the address sums (R61, R62), the keys of
ENV's registers, the capabilities a command needs of its domain (R180), the configuration functions (R42, R160,
R165) and the admission test of a configuration (R56). All pure. -/

namespace Sys2Proof

/-! ### Fields over a mask (R13) -/

/-- `lsb(m)`: the number of the lowest set bit of `m` (R13); 32 when there is none. -/
def lsb (m : Word) : Nat := (List.range 32).findIdx (fun i => m.getLsbD i)

/-- `field(v, m) = (v & m) >> lsb(m)` (R13). -/
def field (v m : Word) : Word := (v &&& m) >>> lsb m

/-- `place(x, m) = x << lsb(m)`, defined only when `x` fits the field (R13). -/
def place (x : Nat) (m : Word) : Option Word :=
  let w := BitVec.ofNat 32 (x <<< lsb m)
  if x < 2 ^ (32 - lsb m) ∧ w &&& ~~~m = 0#32 then some w else none

/-- The 32-bit value with only bit `shift` set (R12, R140). -/
def bitMask (shift : Shift) : Word := 1#32 <<< shift.toNat

/-- Bit `shift` of `v`: `(v >> shift) & 1 = 1` (R141). -/
def bitSet (v : Word) (shift : Shift) : Bool := (v >>> shift.toNat) &&& 1#32 == 1#32

/-- `(old & ~mask) | bits` (R66, R123, R128). -/
def merge (old mask bits : Word) : Word := (old &&& ~~~mask) ||| bits

/-! ### Addresses -/

/-- `BASE[part]`; 0, "unmapped", for an id that has no entry (R21). -/
def Machine.State.baseOf (s : Machine.State) (part : PartId) : Addr := s.base.getD part.toNat 0

/-- The three tests of `PartCheck` (R127). -/
def Machine.State.partitionOk (s : Machine.State) (part : PartId) : Bool :=
  part.toNat < s.cfg.npart && !s.cfg.partInvalid.contains part && s.baseOf part != 0

/-- An address of AW bits (R62). -/
def Config.wrap (c : Config) (a : Addr) : Addr := a % 2 ^ c.aw

/-- `EA = BASE[part] + inst + idx` modulo 2^AW (R61, R62). -/
def Machine.State.effAddr (s : Machine.State) (part : PartId) (inst idx : Addr) : Addr :=
  s.cfg.wrap (s.baseOf part + inst + idx)

/-- The address is a multiple of 4 (R63). -/
def aligned (a : Addr) : Bool := a % 4 == 0

/-- The offset of the status register paired with a control register (R48, R140). -/
def Config.statusOffset (c : Config) (ctrlOffset : Addr) : Addr := ctrlOffset + c.rstStOffset

/-- `GI = GRST.inst[SOC_VARIANT]` (R148). -/
def Config.globalInst (c : Config) : Addr := c.grst.inst.getD c.socVariant 0

/-- The address of the global reset-control register, as the commands compute it (R49, R148). -/
def Machine.State.globalCtrl (s : Machine.State) : Addr := s.effAddr s.cfg.partPrm s.cfg.globalInst s.cfg.grst.ctrl

/-- The address of the global reset-status register (R49, R148). -/
def Machine.State.globalStatus (s : Machine.State) : Addr := s.effAddr s.cfg.partPrm s.cfg.globalInst s.cfg.grst.st

/-- The value sets the warm or the cold bit of the global reset-control register (R49). -/
def setsResetBit (c : Config) (v : Word) : Bool := bitSet v c.grst.warmBit || bitSet v c.grst.coldBit

/-- A write of `v` at the MMIO address `a` asks for a global reset: it sets the warm or cold bit of the global
reset-control register, where BASE has it now (R49, R79, R243; log 18). -/
def Machine.State.requestsGlobalReset (s : Machine.State) (a : Addr) (v : Word) : Bool :=
  s.baseOf s.cfg.partPrm != 0 && a == s.globalCtrl && setsResetBit s.cfg v

/-- The number of a port: 0 for MMIO, then the domains (R38). -/
def portNumber : Port → Nat
  | .mmio => 0
  | .dom d => d.toNat + 1

/-- The key of a register of the target: its address and its space (R38). There are at most 257 spaces. -/
def regKey (port : Port) (a : Addr) : Nat := 512 * a + portNumber port

/-! ### Configuration functions -/

/-- The value of a conversion function (R42; log 15). -/
def PmicFn.apply (f : PmicFn) (x : Word) : Word :=
  match f with
  | .ceilSteps offset step =>
    if 1 ≤ step ∧ offset ≤ x.toNat + (step - 1) then BitVec.ofNat 32 ((x.toNat + (step - 1) - offset) / step)
    else Config.freeSelector offset step x
  | .linear offset step =>
    if offset + step * x.toNat < 2 ^ 32 then BitVec.ofNat 32 (offset + step * x.toNat)
    else Config.freeMicrovolts offset step x
  | .table rows otherwise => (rows.lookup x).getD otherwise
  | .free k => Config.freeConv k x

/-- `OperationVoltage(td)` (R160). -/
def Config.operationVoltage (c : Config) (td : TD) : Word :=
  match c.opVoltage with
  | .nominal => td.voltNominal
  | .free k => Config.freeOpVoltage k td

/-- The larger of two unsigned words. -/
def maxWord (a b : Word) : Word := if a.toNat ≤ b.toNat then b else a

/-- The smaller of two unsigned words. -/
def minWord (a b : Word) : Word := if a.toNat ≤ b.toNat then a else b

/-- TMO and WAIT of R165, on unbounded naturals. -/
def initCycles (f : InitFormulas) (clkRate timeoutUs stepSize slewRate : Nat) : Nat × Nat :=
  match f with
  | .r165 =>
    let khz := clkRate / 1000
    let den := 1000 * slewRate
    (khz * timeoutUs / 1000, (stepSize * khz + (den - 1)) / den)
  | .free k => Config.freeInit k clkRate timeoutUs stepSize slewRate

/-- What VP_INIT computes (R165). -/
structure InitValues where
  tmo : Nat
  wait : Nat
  vmin : Word
  vmax : Word
  deriving DecidableEq, Repr

/-! ### The domain operand and the capabilities of R180 -/

/-- `Dom[d]` when `Present(d)`: `d < NDOM` and the domain exists (R40). -/
def Config.dom (c : Config) (d : DomId) : Option Dom :=
  match c.doms[d.toNat]? with
  | some x => if x.present then some x else none
  | none => none

/-- What VP_READ_VOLT tests (R164): Present, has_vp, has_read, has_pmic and has_vsel_to_uv. -/
def Config.readVoltCaps (c : Config) (d : DomId) : Option (Vp × PmicFn) := do
  let dom ← c.dom d
  let vp ← dom.vp
  let pmic ← dom.pmic
  let vselToUv ← pmic.vselToUv
  if dom.hasRead then some (vp, vselToUv) else none

/-- What VP_INIT works with. -/
structure InitCaps where
  dom : Dom
  vp : Vp
  pmic : Pmic
  uvToVsel : PmicFn
  vcParam : VcParam
  vpParam : VpParam
  deriving DecidableEq, Repr

/-- The parts of a domain that VP_INIT tests (R166, IN1). -/
def Dom.initCaps (dom : Dom) : Option InitCaps := do
  let pmic ← dom.pmic
  let uvToVsel ← pmic.uvToVsel
  let _ ← pmic.vselToUv
  let vp ← dom.vp
  let vcParam ← dom.vcParam
  let vpParam ← dom.vpParam
  if dom.hasRead && dom.hasWrite then some ⟨dom, vp, pmic, uvToVsel, vcParam, vpParam⟩ else none

/-- What VP_INIT tests (R166, IN1). -/
def Config.initCaps (c : Config) (d : DomId) : Option InitCaps := do
  let dom ← c.dom d
  dom.initCaps

/-- VP_INIT's computed values (R165). -/
def Config.initValues (c : Config) (k : InitCaps) : InitValues :=
  let cycles := initCycles c.initFormulas k.dom.clkRate k.pmic.timeoutUs k.pmic.stepSize k.pmic.slewRate
  { tmo := cycles.1
    wait := cycles.2
    vmin := k.uvToVsel.apply (maxWord (maxWord k.vpParam.vddmin k.pmic.vddmin) k.vcParam.ret)
    vmax := k.uvToVsel.apply (minWord k.vpParam.vddmax k.pmic.vddmax) }

/-- What VP_TXDONE and VP_TXCLR rely on (R180): Present and has_vp. -/
def Config.txCaps (c : Config) (d : DomId) : Option Vp := do
  let dom ← c.dom d
  dom.vp

/-- What VP_ERRGAIN tests of its domain (R169, EG1). -/
def Config.errgainCaps (c : Config) (d : DomId) : Option Vp := do
  let dom ← c.dom d
  let vp ← dom.vp
  if dom.hasRmw then some vp else none

/-- What VP_SCALE tests of its domain (R170, S1). -/
def Config.scaleCaps (c : Config) (d : DomId) : Option (Dom × Vp) := do
  let dom ← c.dom d
  let vp ← dom.vp
  if dom.hasWrite then some (dom, vp) else none

/-- What VP_SCALE relies on and does not test (R180): has_read, has_pmic, has_uv_to_vsel. -/
def scaleRelied (dom : Dom) : Option PmicFn := do
  let pmic ← dom.pmic
  let uvToVsel ← pmic.uvToVsel
  if dom.hasRead then some uvToVsel else none

/-- What VP_ENABLE tests (R176, EN1). -/
def Config.enableCaps (c : Config) (d : DomId) : Option (Vp × PmicFn) := do
  let dom ← c.dom d
  let vp ← dom.vp
  let pmic ← dom.pmic
  let uvToVsel ← pmic.uvToVsel
  if dom.hasRead && dom.hasWrite then some (vp, uvToVsel) else none

/-- What VP_DISABLE tests (R178, DS1). -/
def Config.disableCaps (c : Config) (d : DomId) : Option (Dom × Vp) := do
  let dom ← c.dom d
  let vp ← dom.vp
  if dom.hasRead && dom.hasWrite then some (dom, vp) else none

/-! ### Admitted configurations (R56) -/

/-- A non-empty contiguous run of one-bits (R13). -/
def isRun (m : Word) : Bool :=
  let k := m >>> lsb m
  m != 0 && k &&& (k + 1) == 0

/-- A single bit. -/
def isBit (m : Word) : Bool := m != 0 && m &&& (m - 1) == 0

/-- The masks of one register are pairwise disjoint. -/
def disjointMasks : List Word → Bool
  | [] => true
  | m :: rest => rest.all (fun k => m &&& k == 0) && disjointMasks rest

/-- The masks of R43. -/
def Vp.admitted (v : Vp) : Bool :=
  [v.cfgErroroffset, v.cfgErrorgain, v.cfgInitvoltage, v.sminStep, v.sminWait, v.smaxStep, v.smaxWait,
    v.limVddmax, v.limVddmin, v.limTimeout, v.voltVsel].all isRun &&
  [v.cfgTimeouten, v.cfgInitvdd, v.cfgForceupdate, v.cfgVpenable, v.stIdle].all isBit &&
  disjointMasks [v.cfgErroroffset, v.cfgErrorgain, v.cfgInitvoltage, v.cfgTimeouten, v.cfgInitvdd,
    v.cfgForceupdate, v.cfgVpenable] &&
  disjointMasks [v.sminStep, v.sminWait] && disjointMasks [v.smaxStep, v.smaxWait] &&
  disjointMasks [v.limVddmax, v.limVddmin, v.limTimeout]

/-- The values VP_INIT places, each with the mask of its field (R166, IN4 to IN7). -/
def Config.initPlaces (c : Config) (k : InitCaps) : List (Nat × Word) :=
  let x := c.initValues k
  [(k.pmic.erroroffset, k.vp.cfgErroroffset), (x.wait, k.vp.sminWait), (k.pmic.vstepmin, k.vp.sminStep),
    (x.wait, k.vp.smaxWait), (k.pmic.vstepmax, k.vp.smaxStep), (x.vmax.toNat, k.vp.limVddmax),
    (x.vmin.toNat, k.vp.limVddmin), (x.tmo, k.vp.limTimeout)]

/-- Every value VP_INIT places fits its field (R13, R56). -/
def Config.initFits (c : Config) (k : InitCaps) : Bool := (c.initPlaces k).all (fun p => (place p.1 p.2).isSome)

/-- The address has AW bits (R38, R43; log 6). -/
def Config.hasAddr (c : Config) (a : Addr) : Bool := a < 2 ^ c.aw

/-- R56 of one domain: its masks and `slew_rate`, present or not; the values VP_INIT places, where VP_INIT reaches
the domain (log 13). Its register addresses are AW-bit values (log 6). -/
def Dom.admitted (c : Config) (x : Dom) : Bool :=
  x.vp.all (fun v => v.admitted &&
    [v.vpconfig, v.vstepmin, v.vstepmax, v.vlimitto, v.vstatus, v.voltage].all c.hasAddr) &&
  x.pmic.all (fun p => 1 ≤ p.slewRate) && (!x.present || x.initCaps.all c.initFits)

/-- R56, with the two values of R7 that the source fixes (DW 32, RST_ST_OFFSET 4), one command context (log 23), and
SOC_VARIANT among the variants GRST.inst lists (log 13). GRST.st is not tied to GRST.ctrl (DESIGN CHOICE, log 38).
Of the values that are placed, those VP_INIT computes from the configuration are tested here; a selector or an error
gain is known only when it is placed (`placeIn`, log 11). -/
def Config.admitted (c : Config) : Bool :=
  c.dw == 32 && c.rstStOffset == 4 && c.nctx == 1 && c.n2 != 0 && c.n1 < 2 ^ c.cw && c.n2 < 2 ^ c.cw &&
  [c.partPrm, c.partPrcmMpu, c.partScrm].all (fun p => p.toNat < c.npart && !c.partInvalid.contains p) &&
  c.partPrm != c.partPrcmMpu && c.partPrm != c.partScrm && c.partPrcmMpu != c.partScrm &&
  [c.hardresetBudget, c.vpIdleBudget, c.vpTxclearBudget, c.vpTxwaitBudget].all (fun b => b != 0) &&
  c.socVariant < c.grst.inst.length &&
  c.doms.all (Dom.admitted c)

end Sys2Proof
end

