-- ==== Sys2Proof/Machine/Flags.lean ====
section
/-! DEFINITION. The flags and the result (10_state R22, R26, R30, R33): status codes, the response words, the
enabled flag of a domain and the two counters' updates. There is no arithmetic flag (R30). -/

namespace Sys2Proof.Machine

/-- The status codes (R101). -/
def Status.code : Status → BitVec 8
  | .ok => 0
  | .alreadyDeasserted => 1
  | .busy => 2
  | .invalidArgument => 3
  | .timeout => 4
  | .hookError => 5
  | .illegalCommand => 6

/-- The two words of a response (R100): R0 with the status in bits 7:0 and bits 31:8 zero, then R1. -/
def responseWords (status : Status) (value : Word) : List Word := [status.code.setWidth 32, value]

/-- A boolean result as a value word (R101): 1 or 0. -/
def boolWord (b : Bool) : Word := if b then 1 else 0

/-- VPEN[d] (R22); a domain that has no entry is not enabled. -/
def State.vpenOf (s : State) (d : DomId) : Bool := s.vpen.getD d.toNat false

/-- VPEN[d] <- b (R22). -/
def State.withVpen (s : State) (d : DomId) (b : Bool) : State := { s with vpen := s.vpen.set d.toNat b }

/-- The message half of `ReportError` (R201): which log event, and MSG afterwards. -/
def messageHalf (msg : Counter) : LogKind × Counter :=
  if msg ≠ 0 then (.errFull, msg - 1) else (.errRateLimited, msg)

/-- The recovery half of `ReportError` (R202): REC after the decrement, and whether it reached 0. -/
def recoveryHalf (rc : Counter) : Counter × Bool := (rc - 1, rc - 1 == 0)

end Sys2Proof.Machine
end

