-- ==== Sys2Proof/Machine/Ops.lean ====
section
/-! DEFINITION. The shared operations: ENV's registers and its moves, block reset and SoC reset, the events of R14
(`memRead`, `memWrite`, `domRead`, `domWrite`, `domRmw`, `call`, `log`, `delay`, `respond`), `raise Fatal` beside
block reset (the only way out of it), the partitioned accesses (R121 to R127), `PollUntil` (R143), and the frame
every command runs in (`command`). -/

namespace Sys2Proof.Machine

/-! ### ENV's registers: a list of (key, word), keys strictly rising -/

/-- The known contents of a register; `none` when nothing is known (log 9). -/
def regsGet (k : Nat) : List (Nat × Word) → Option Word
  | [] => none
  | (a, v) :: rest => if k = a then some v else regsGet k rest

/-- The register takes a value. -/
def regsSet (k : Nat) (w : Word) : List (Nat × Word) → List (Nat × Word)
  | [] => [(k, w)]
  | (a, v) :: rest =>
    if k < a then (k, w) :: (a, v) :: rest
    else if k = a then (k, w) :: rest
    else (a, v) :: regsSet k w rest

/-- The canonical form: every key is smaller than the keys after it. -/
def regsWf : List (Nat × Word) → Bool
  | [] => true
  | (a, _) :: rest => rest.all (fun e => a < e.1) && regsWf rest

/-- The canonical form of the model's memory. -/
def Target.wf (t : Target) : Bool := regsWf t.regs

/-- Reading one register of the target, where its contents are known. -/
def Target.get (t : Target) (port : Port) (a : Addr) : Option Word := regsGet (regKey port a) t.regs

/-- A register of the target takes a value. -/
def Target.put (t : Target) (port : Port) (a : Addr) (v : Word) : Target :=
  { t with regs := regsSet (regKey port a) v t.regs }

/-- The target observes a write (R69): a write-1-to-clear register clears the bits written as 1 and keeps the others
(R48; where its contents are not known they stay unknown), every other register takes the value (R74). -/
def Target.absorb (t : Target) (e : WEntry) : Target :=
  let t' := { t with seen := e :: t.seen }
  if t.w1c.contains (regKey e.port e.addr) then
    match t.get e.port e.addr with
    | some old => t'.put e.port e.addr (old &&& ~~~e.value)
    | none => t'
  else t'.put e.port e.addr e.value

/-- The known transaction-done indication of a VP (R55). -/
def Target.txdoneOf (t : Target) (id : Nat) : Option Bool := t.txdone.lookup id

/-- The transaction-done indication of a VP takes a value. -/
def Target.setTxdone (t : Target) (id : Nat) (b : Bool) : Target :=
  { t with txdone := (id, b) :: t.txdone.filter (fun e => e.1 != id) }

/-! ### Moves between events (R11) -/

/-- The entry that a write issued now puts into WQ: the request is read with BASE as it is now, so that rebinding BASE
does not lose it (R243; log 18). -/
def State.entry (s : State) (port : Port) (a : Addr) (v : Word) : WEntry :=
  { port := port, addr := a, value := v, request := port == .mmio && s.requestsGlobalReset a v }

/-- The target observes one write; a global reset request arms the SoC reset (R79, R243). -/
def State.observeEntry (s : State) (e : WEntry) : State :=
  let t := s.target.absorb e
  { s with target := { t with armed := t.armed || e.request } }

/-- "observe the oldest entry of WQ" (R69). -/
def State.observeOldest (s : State) : State :=
  match s.wq with
  | [] => s
  | e :: rest => { s with wq := rest }.observeEntry e

/-- Every entry of WQ has been observed, in order (R70). -/
def State.drain (s : State) : State := s.wq.foldl State.observeEntry { s with wq := [] }

/-- One move of ENV or of another master (R9, R65, R228). -/
def State.envMove (s : State) : EnvMove → State
  | .observe => s.observeOldest
  | .poke port a v => { s with target := s.target.put port a v }
  | .txdone id b => { s with target := s.target.setTxdone id b }

/-- The queued writes at a reset, oldest first: those whose flag is true are still observed, the others are dropped
(R242, U22; a missing flag drops). -/
def State.settleQueue (s : State) (keep : List Bool) : State :=
  ((s.wq.zip keep).filter (fun p => p.2)).foldl (fun t p => t.observeEntry p.1) { s with wq := [] }

/-- Every state element of the block takes its reset value (R39, R240); the other agents keep theirs. The words HOST has
presented on CMD and the block has not taken stay there, a part of a descriptor too, and are taken after the reset: the
spec is silent on them (DESIGN CHOICE, log 37). -/
def State.clearBlock (s : State) : State :=
  { State.atReset s.cfg with
    cmd := s.cmd, script := s.script, freeResets := s.freeResets, host := s.host, target := s.target
    tick := s.tick
    hist := s.hist }

/-- Block reset (R240, R242): available in every state, FATAL included, and the only way out of FATAL (R212). It
touches no register of the target but through the writes already issued (R241). -/
def State.blockReset (s : State) (keep : List Bool) : State :=
  let t := (s.settleQueue keep).clearBlock
  { t with hist := (s.phase, .blockReset) :: t.hist }

/-- The SoC reset step (R243): block reset, and ENV's own registers return to values the source does not give, so
nothing is known of them. That it uses up the request (`armed`) is the model's deduction (log 18). -/
def State.socReset (s : State) (keep : List Bool) : State :=
  let t := (s.settleQueue keep).clearBlock
  { t with
    target := { t.target with regs := [], txdone := [], armed := false }
    hist := (s.phase, .socReset) :: t.hist }

/-- The moves of one turn, in order, and whether a reset was among them. A SoC reset happens only after ENV has
observed a global reset request (R243). -/
def runMoves : List Move → State → State × Bool
  | [], s => (s, false)
  | .env m :: rest, s => runMoves rest (s.envMove m)
  | .blockReset keep :: rest, s => ((runMoves rest (s.blockReset keep)).1, true)
  | .socReset keep :: rest, s =>
    if s.target.armed then ((runMoves rest (s.socReset keep)).1, true) else runMoves rest s

/-- The moves ENV makes where the script has ended: any (U1). They reach WQ and ENV's own state only, they leave an
empty WQ empty, and only a queued request arms the SoC reset: it is written so that this much can be computed without
knowing the moves (`freeMoves_eq`: it is the moves, one after the other). -/
def State.freeMoves (s : State) : State :=
  let t := (Config.freeMoves s.tick).foldl State.envMove s
  { s with
    wq := if s.wq.isEmpty then [] else t.wq
    target := { t.target with armed := s.target.armed || (s.wq.any (fun e => e.request) && t.target.armed) }
    tick := s.tick + 1 }

/-- A turn that the script does not cover: any moves of ENV, then, once a request has been observed, perhaps the SoC
reset ("at any later time", R243). The second part says whether it came. -/
def State.freeTurn (s : State) : State × Bool :=
  let t := s.freeMoves
  if s.freeResets && t.target.armed then
    match Config.freeReset s.tick with
    | some keep => (t.socReset keep, true)
    | none => (t, false)
  else (t, false)

/-- The next turn of the other agents, and whether a reset was among their moves (R11). -/
def State.takeTurn (s : State) : State × Bool :=
  match s.script with
  | [] => s.freeTurn
  | ms :: rest => runMoves ms { s with script := rest }

/-! ### Actions: a part of a command, run in order, that may be cut short -/

/-- Why a command does not go on. -/
inductive Stop where
  /-- The command is over without a response, in the state reached: FATAL (R212) or a reset (R242). -/
  | cut
  /-- The model has no meaning for it. -/
  | refuse (r : Refusal)
  deriving DecidableEq, Repr

/-- A part of a command. -/
abbrev Act := EStateM Stop State

/-- The model refuses the command. -/
def refuse {α : Type} (r : Refusal) : Act α := throw (.refuse r)

/-- `raise Fatal(PartitionInvalid)` (R212): MODE becomes FATAL, no further event, all other state keeps its value. -/
def raiseFatal {α : Type} : Act α := fun s => .error .cut { s with mode := .fatal }

/-- The other agents' turn before an event of the block (R11); a reset among the moves cuts the command (R242). -/
def turn : Act Unit := fun s => if s.takeTurn.2 then .error .cut s.takeTurn.1 else .ok () s.takeTurn.1

/-- PHASE <- the line (R27). -/
def line (l : Label) : Act Unit := modify fun s => { s with phase := some ⟨l, none⟩ }

/-- PHASE <- the line of the subroutine (R27). -/
def subLine (l : SubLabel) : Act Unit :=
  modify fun s => { s with phase := s.phase.map (fun p => { p with sub := some l }) }

/-- A subroutine is over: PHASE is the line that called it. -/
def endSub : Act Unit := modify fun s => { s with phase := s.phase.map (fun p => { p with sub := none }) }

/-- A working register takes a value (R29). -/
def setWork (f : Work → Work) : Act Unit := modify fun s => { s with work := f s.work }

/-- The event takes its place in the history, with the PHASE that produces it (R27). -/
def emit (e : Event) : Act Unit := modify fun s => { s with hist := (s.phase, e) :: s.hist }

/-- One free value is drawn. -/
def draw {α : Type} (f : Nat → α) : Act α := fun s => .ok (f s.tick) { s with tick := s.tick + 1 }

/-- `place(x, m)` where it is defined, else the configuration is not admitted (R13, R56). -/
def placeIn (x : Nat) (m : Word) : Act Word :=
  match place x m with
  | some w => pure w
  | none => refuse .fieldOverflow

/-! ### Events (R14) -/

/-- The model refuses a misaligned address (R63). -/
def requireAligned (a : Addr) : Act Unit := if aligned a then pure () else refuse .misaligned

/-- What ENV answers to a read: the known contents, else any value (U1). -/
def targetAnswer (port : Port) (a : Addr) : Act Word := do
  let s ← get
  match s.target.get port a with
  | some v => pure v
  | none => draw Config.freeWord

/-- ENV answers a read of the block: the queue is drained first (R70). -/
def targetRead (port : Port) (a : Addr) : Act Word := do
  requireAligned a
  turn
  modify State.drain
  targetAnswer port a

/-- A write of the block is issued and enters WQ (R68). -/
def targetWrite (port : Port) (a : Addr) (v : Word) : Act Unit := do
  requireAligned a
  turn
  modify fun s => { s with wq := s.wq ++ [s.entry port a v] }

/-- `MemRead(addr, 4)` (R60). -/
def memRead (a : Addr) : Act Word := do
  let v ← targetRead .mmio a
  emit (.mmioRead a v)
  pure v

/-- `MemWrite(addr, 4, v)` (R60). -/
def memWrite (a : Addr) (v : Word) : Act Unit := do
  targetWrite .mmio a v
  emit (.mmioWrite a v)

/-- `DomRead(d, a)` (R66). -/
def domRead (d : DomId) (a : Addr) : Act Word := do
  let v ← targetRead (.dom d) a
  emit (.domRead d a v)
  pure v

/-- `DomWrite(d, a, v)` (R66). -/
def domWrite (d : DomId) (a : Addr) (v : Word) : Act Unit := do
  targetWrite (.dom d) a v
  emit (.domWrite d a v)

/-- `DomRmw(d, mask, bits, a)` (R66): one event, "a read followed by a write" for the queue (R70; log 16). -/
def domRmw (d : DomId) (mask bits : Word) (a : Addr) : Act Unit := do
  let old ← targetRead (.dom d) a
  let new := merge old mask bits
  modify fun s => { s with wq := s.wq ++ [s.entry (.dom d) a new] }
  emit (.domRmw d a mask bits new)

/-- What `check_txdone` answers: the known indication, else any answer (U2). -/
def txdoneAnswer (id : Nat) : Act Bool := do
  let s ← get
  match s.target.txdoneOf id with
  | some b => pure b
  | none => draw Config.freeBool

/-- `Call(check_txdone, id)` (R46). -/
def callCheckTxdone (id : Nat) : Act Bool := do
  turn
  let b ← txdoneAnswer id
  emit (.call (.checkTxdone id b))
  pure b

/-- `Call(clear_txdone, id)` (R46): the indication is cleared (R78); ENV may raise it again at its next turn
(log 22). -/
def callClearTxdone (id : Nat) : Act Unit := do
  turn
  modify fun s => { s with target := s.target.setTxdone id false }
  emit (.call (.clearTxdone id))

/-- `Call(recover, id)` (R46). -/
def callRecover (id : Nat) : Act Unit := do
  turn
  emit (.call (.recover id))

/-- What `pre_scale` answers: HOST's next prepared answer, else any answer (U2). -/
def preScaleAnswer : Act PreScaleResult := do
  let s ← get
  match s.host.preScale with
  | r :: rest => do
    set { s with host := { s.host with preScale := rest } }
    pure r
  | [] => draw Config.freePreScale

/-- `Call(pre_scale, d, target, td)` (R46). -/
def callPreScale (d : DomId) (target : Word) (td : TD) : Act PreScaleResult := do
  turn
  let r ← preScaleAnswer
  emit (.call (.preScale d target td r))
  pure r

/-- `Call(post_scale, d, target, td, tsel, csel)` (R46). -/
def callPostScale (d : DomId) (target : Word) (td : TD) (tsel csel : Word) : Act Unit := do
  turn
  emit (.call (.postScale d target td tsel csel))

/-- What `get_current_voltage_data` answers: HOST's next prepared answer, else any answer (U2). -/
def lookupAnswer : Act (Option TD) := do
  let s ← get
  match s.host.lookup with
  | r :: rest => do
    set { s with host := { s.host with lookup := rest } }
    pure r
  | [] => draw Config.freeLookup

/-- `Call(get_current_voltage_data, d)` (R46). -/
def callLookup (d : DomId) : Act (Option TD) := do
  turn
  let r ← lookupAnswer
  emit (.call (.getCurrentVoltageData d r))
  pure r

/-- `Log(kind, d)` (R226): no state depends on it. -/
def log (kind : LogKind) (d : DomId) : Act Unit := do
  turn
  emit (.log kind d)

/-- `Delay(n)` (R222): a marker event with no state effect. -/
def delay (us : Nat) : Act Unit := do
  turn
  emit (.delay us)

/-- `return (S, v)` (R27, R30, R100): the response is the last event of a command; MODE becomes READY. That the working
registers keep what the command left in them until the next accept or reset is the model's choice (log 35). -/
def respond (status : Status) (value : Word) : Act Unit := do
  turn
  emit (.respond status value)
  modify fun s => { s with res := status.code, rval := value, mode := .ready, phase := none }

/-! ### The register access layer's subroutines (R121 to R127) -/

/-- `PartCheck(part)` (R127): no port event. -/
def partCheck (part : PartId) : Act Unit := do
  let s ← get
  if s.partitionOk part then pure () else raiseFatal

/-- `EA <- BASE[part] + inst + idx` (R61). -/
def resolve (part : PartId) (inst idx : Addr) : Act Addr := do
  let s ← get
  let ea := s.effAddr part inst idx
  setWork fun w => { w with ea := some ea }
  pure ea

/-- `InstRead(part, inst, idx)` (R121). -/
def instRead (part : PartId) (inst idx : Addr) : Act Word := do
  partCheck part
  let ea ← resolve part inst idx
  memRead ea

/-- `InstWrite(value, part, inst, idx)` (R122). -/
def instWrite (value : Word) (part : PartId) (inst idx : Addr) : Act Unit := do
  partCheck part
  let ea ← resolve part inst idx
  memWrite ea value

/-- `InstRmw(mask, bits, part, inst, idx)` (R123): two events, ENV may step between them (R65, R254). -/
def instRmw (mask bits : Word) (part : PartId) (inst idx : Addr) : Act Word := do
  let old ← instRead part inst idx
  setWork fun w => { w with v := some old }
  let new := merge old mask bits
  setWork fun w => { w with v := some new }
  instWrite new part inst idx
  pure new

/-! ### PollUntil (R143) -/

/-- The line of a loop's back edge, which is passed unless the budget is used up (P5 of R143, C6 of R162). -/
def backEdge (left : Nat) (l : SubLabel) : Act Unit := if left = 0 then pure () else subLine l

/-- The loop P1 to P5 with `left` units of the budget not yet consumed and `cnt` consumed. -/
def pollLoop (cond : Act Bool) (delayUs : Nat) : (left : Nat) → (cnt : Word) → Act Bool
  | 0, _ => do
    setWork fun w => { w with okf := some false }
    pure false
  | left + 1, cnt => do
    subLine .P1
    let ok ← cond
    if ok then do
      setWork fun w => { w with okf := some true }
      pure true
    else do
      subLine .P2
      setWork fun w => { w with cnt := some (cnt + 1) }
      subLine .P3
      delay delayUs
      subLine .P4
      backEdge left .P5
      pollLoop cond delayUs left (cnt + 1)

/-- `PollUntil(cond, budget, delay_us)` (R143): at most `budget` checks, a delay after each that failed. -/
def pollUntil (cond : Act Bool) (budget : Word) (delayUs : Nat) : Act Bool := do
  subLine .P0
  setWork fun w => { w with cnt := some 0 }
  let ok ← pollLoop cond delayUs budget.toNat 0
  endSub
  pure ok

/-! ### The frame of a command -/

/-- What the latch holds of a descriptor (R28): the fields of word 0, then A to D, or the bases of INIT_BASES. What the
words that a format does not have hold is the model's choice, A to D 0 and no bases (log 34). -/
def latchOf (i : Instr) : Latch :=
  let ws := encode i
  let w0 := ws.headD 0
  match i with
  | .initBases bases =>
    { opc := opcOf w0, sel := selOf w0, shift := shiftOf w0, a := 0, b := 0, c := 0, d := 0
      bases := bases.map addrWord }
  | _ =>
    { opc := opcOf w0, sel := selOf w0, shift := shiftOf w0
      a := ws.getD 1 0, b := ws.getD 2 0, c := ws.getD 3 0, d := ws.getD 4 0, bases := [] }

/-- Accepting a command (R25, R28, R34): MODE becomes BUSY, the operands are latched, no working register holds a
value any more (log 7). -/
def State.accept (s : State) (i : Instr) : State :=
  { s with mode := .busy, latch := latchOf i, work := {} }

/-- How an action ends a step. -/
def outcomeOf : EStateM.Result Stop State Unit → Host.Outcome State Fault Refusal
  | .ok _ t => .next t
  | .error .cut t => .next t
  | .error (.refuse r) _ => .refused r

/-- What the block does only in MODE READY and with an admitted configuration (R25, R56, R212, U8). -/
def guarded (s : State) (run : Host.Outcome State Fault Refusal) : Host.Outcome State Fault Refusal :=
  match s.mode with
  | .fatal => .fault .fatalMode
  | .busy => .refused .midCommand
  | .ready => if s.cfg.admitted then run else .refused .configNotAdmitted

/-- The command `i`, whose lines are `body`. -/
def command (i : Instr) (s : State) (body : Act Unit) : Host.Outcome State Fault Refusal :=
  guarded s (outcomeOf (body (s.accept i)))

end Sys2Proof.Machine
end

