-- ==== Sys2Proof/Machine/RegAccess.lean ====
section
/-! DEFINITION. The register access layer: INIT_BASES, READ, WRITE, RMW (40_regaccess R120, R124 to R126). -/

namespace Sys2Proof.Machine

/-- `for p in 0 .. NPART-1: BASE[p] <- bases[p]` (R120, I1); a base has AW bits (R21; log 6). A well-formed command has
NPART bases (log 26). -/
def State.withBases (s : State) (bases : List Addr) : State :=
  { s with base := (List.range s.cfg.npart).map (fun p => s.cfg.wrap (bases.getD p 0)) }

/-- INIT_BASES (R120). -/
def execInitBases (bases : List Addr) (s : State) : Host.Outcome State Fault Refusal :=
  command (.initBases bases) s do
    line .I1
    modify fun t => t.withBases bases
    line .I2
    respond .ok 0

/-- READ (R124). -/
def execRead (part : PartId) (inst idx : Addr) (s : State) : Host.Outcome State Fault Refusal :=
  command (.read part inst idx) s do
    line .RD1
    let v ← instRead part inst idx
    setWork fun w => { w with v := some v }
    line .RD2
    respond .ok v

/-- WRITE (R125). -/
def execWrite (value : Word) (part : PartId) (inst idx : Addr) (s : State) : Host.Outcome State Fault Refusal :=
  command (.write value part inst idx) s do
    line .WR1
    instWrite value part inst idx
    line .WR2
    respond .ok 0

/-- RMW (R126). -/
def execRmw (mask bits : Word) (part : PartId) (inst idx : Addr) (s : State) : Host.Outcome State Fault Refusal :=
  command (.rmw mask bits part inst idx) s do
    line .RM1
    let v ← instRmw mask bits part inst idx
    line .RM2
    respond .ok v

end Sys2Proof.Machine
end

