-- ==== Sys2Proof/Machine/ResetLine.lean ====
section
/-! DEFINITION. The reset-line controller: RST_IS_ASSERTED, RST_ASSERT, RST_DEASSERT (41_resetline R140 to R147)
and the global sequences WARM_RESET and COLD_RESET (R148 to R152). -/

namespace Sys2Proof.Machine

/-- `IsAsserted(shift, part, inst, off)` (R141). -/
def isAsserted (shift : Shift) (part : PartId) (inst off : Addr) : Act Bool := do
  let v ← instRead part inst off
  setWork fun w => { w with v := some v }
  pure (bitSet v shift)

/-- RST_IS_ASSERTED (R142). -/
def execRstIsAsserted (shift : Shift) (part : PartId) (inst ctrlOffset : Addr) (s : State) :
    Host.Outcome State Fault Refusal :=
  command (.rstIsAsserted shift part inst ctrlOffset) s do
    line .IA1
    let b ← isAsserted shift part inst ctrlOffset
    setWork fun w => { w with okf := some b }
    line .IA2
    respond .ok (boolWord b)

/-- RST_ASSERT (R144). -/
def execRstAssert (shift : Shift) (part : PartId) (inst ctrlOffset : Addr) (s : State) :
    Host.Outcome State Fault Refusal :=
  command (.rstAssert shift part inst ctrlOffset) s do
    line .AS1
    let m := bitMask shift
    setWork fun w => { w with m := some m }
    line .AS2
    let _ ← instRmw m m part inst ctrlOffset
    line .AS3
    respond .ok 0

/-- Lines DA2 to DA6 of RST_DEASSERT (R146). -/
def deassertAsserted (shift : Shift) (part : PartId) (inst ctrlOffset : Addr) : Act Unit := do
  line .DA2
  let m := bitMask shift
  setWork fun w => { w with m := some m }
  line .DA3
  let s ← get
  let stOffset := s.cfg.statusOffset ctrlOffset
  let _ ← instRmw 0xFFFFFFFF m part inst stOffset
  line .DA4
  let _ ← instRmw m 0 part inst ctrlOffset
  line .DA5
  let ok ← pollUntil (isAsserted shift part inst stOffset) s.cfg.hardresetBudget s.cfg.hardresetDelayUs
  line .DA6
  if ok then respond .ok 0 else respond .busy 0

/-- RST_DEASSERT (R146). -/
def execRstDeassert (shift : Shift) (part : PartId) (inst ctrlOffset : Addr) (s : State) :
    Host.Outcome State Fault Refusal :=
  command (.rstDeassert shift part inst ctrlOffset) s do
    line .DA1
    let b ← isAsserted shift part inst ctrlOffset
    if b then deassertAsserted shift part inst ctrlOffset else respond .alreadyDeasserted 0

/-- WARM_RESET (R150). The SoC may reset at any turn after the control write has been observed (R243). -/
def execWarmReset (s : State) : Host.Outcome State Fault Refusal :=
  command .warmReset s do
    line .WM1
    let v ← instRead s.cfg.partPrm s.cfg.globalInst s.cfg.grst.ctrl
    setWork fun w => { w with v := some v }
    line .WM2
    instWrite (v ||| bitMask s.cfg.grst.warmBit) s.cfg.partPrm s.cfg.globalInst s.cfg.grst.ctrl
    line .WM3
    let v' ← instRead s.cfg.partPrm s.cfg.globalInst s.cfg.grst.ctrl
    setWork fun w => { w with v := some v' }
    line .WM4
    respond .ok 0

/-- COLD_RESET (R152). The SoC may reset at any turn after the control write has been observed (R243). -/
def execColdReset (s : State) : Host.Outcome State Fault Refusal :=
  command .coldReset s do
    line .CD1
    instWrite (bitMask s.cfg.grst.coldStBit) s.cfg.partPrm s.cfg.globalInst s.cfg.grst.st
    line .CD2
    let v ← instRead s.cfg.partPrm s.cfg.globalInst s.cfg.grst.ctrl
    setWork fun w => { w with v := some v }
    line .CD3
    instWrite (v ||| bitMask s.cfg.grst.coldBit) s.cfg.partPrm s.cfg.globalInst s.cfg.grst.ctrl
    line .CD4
    let v' ← instRead s.cfg.partPrm s.cfg.globalInst s.cfg.grst.ctrl
    setWork fun w => { w with v := some v' }
    line .CD5
    delay s.cfg.coldSettleUs
    line .CD6
    respond .ok 0

end Sys2Proof.Machine
end

