-- ==== Sys2Proof/Machine/Recovery.lean ====
section
/-! DEFINITION. The rate-limited error/recovery path (43_error_recovery R200 to R207). -/

namespace Sys2Proof.Machine

/-- Line E1 of `ReportError` (R201): one log event, and MSG goes down while it is not 0. -/
def reportMessage (d : DomId) : Act Unit := do
  subLine .E1
  let s ← get
  log (messageHalf s.msgCnt).1 d
  modify fun t => { t with msgCnt := (messageHalf t.msgCnt).2 }

/-- Line E2 of `ReportError` (R202), for a domain with a recovery callback: REC goes down first; at 0 the callback
of the reporting domain is called once and REC is reloaded. -/
def reportRecovery (id : Nat) : Act Unit := do
  subLine .E2
  let s ← get
  let r := recoveryHalf s.recCnt
  modify fun t => { t with recCnt := r.1 }
  if r.2 then do
    callRecover id
    modify fun t => { t with recCnt := t.cfg.n2 }
  else pure ()

/-- Line E2 is for a domain with a recovery callback only (R202). -/
def recoverIf (hasRecover : Bool) (id : Nat) : Act Unit := if hasRecover then reportRecovery id else pure ()

/-- `ReportError(d)` (R200), for the domain `dom` with the VP `vp`. -/
def reportError (d : DomId) (dom : Dom) (vp : Vp) : Act Unit := do
  reportMessage d
  recoverIf dom.hasRecover vp.id
  endSub

end Sys2Proof.Machine
end

