-- ==== Sys2Proof/Machine/VoltageProcessor.lean ====
section
/-! DEFINITION. The Voltage Processor state machine (42_vp R160 to R180): VP_READ_VOLT, VP_INIT, VP_TXDONE, VP_TXCLR,
VP_ERRGAIN, VP_SCALE, VP_ENABLE, VP_DISABLE and their subroutines. -/

namespace Sys2Proof.Machine

/-! ### Subroutines -/

/-- The check of `WaitIdle`: `(DomRead(d, vp.vstatus) & vp.st_idle) != 0` (R161). -/
def idleCheck (d : DomId) (vp : Vp) : Act Bool := do
  let v ← domRead d vp.vstatus
  pure (v &&& vp.stIdle != 0)

/-- `WaitIdle(d)` (R161). -/
def waitIdle (d : DomId) (vp : Vp) : Act Bool := do
  let s ← get
  pollUntil (idleCheck d vp) s.cfg.vpIdleBudget s.cfg.vpDelayUs

/-- The loop C1 to C6 of `ClearTxDone` (R162) with `left` attempts not yet made and `cnt` failed ones. -/
def clearLoop (id : Nat) (delayUs : Nat) : (left : Nat) → (cnt : Word) → Act Bool
  | 0, _ => do
    setWork fun w => { w with okf := some false }
    pure false
  | left + 1, cnt => do
    subLine .C1
    callClearTxdone id
    subLine .C2
    let pending ← callCheckTxdone id
    if pending then do
      subLine .C3
      setWork fun w => { w with cnt := some (cnt + 1) }
      subLine .C4
      delay delayUs
      subLine .C5
      backEdge left .C6
      clearLoop id delayUs left (cnt + 1)
    else do
      setWork fun w => { w with okf := some true }
      pure true

/-- `ClearTxDone(d)` (R162): at most VP_TXCLEAR_BUDGET attempts, a delay after each that failed. -/
def clearTxDone (vp : Vp) : Act Bool := do
  subLine .C0
  setWork fun w => { w with cnt := some 0 }
  let s ← get
  let ok ← clearLoop vp.id s.cfg.vpDelayUs s.cfg.vpTxclearBudget.toNat 0
  endSub
  pure ok

/-- What line V3 of `SetInitVoltage` clears before it inserts the selector (R163). -/
def pulseMask (vp : Vp) : Word := vp.cfgInitvoltage ||| vp.cfgInitvdd ||| vp.cfgForceupdate

/-- `SetInitVoltage(d, volt)` (R163): one read, then the three writes of the pulse (R258). -/
def setInitVoltage (d : DomId) (vp : Vp) (uvToVsel : PmicFn) (volt : Word) : Act Word := do
  subLine .V1
  let vsel := uvToVsel.apply volt
  setWork fun w => { w with vsel := some vsel }
  subLine .V2
  let v ← domRead d vp.vpconfig
  setWork fun w => { w with v := some v }
  subLine .V3
  let sel ← placeIn vsel.toNat vp.cfgInitvoltage
  let cfg := merge v (pulseMask vp) sel
  setWork fun w => { w with cfg := some cfg }
  subLine .V4
  domWrite d vp.vpconfig cfg
  subLine .V5
  domWrite d vp.vpconfig (cfg ||| vp.cfgInitvdd)
  subLine .V6
  domWrite d vp.vpconfig cfg
  endSub
  pure cfg

/-- VPSTATE <- v (R26). -/
def setVpstate (v : VpState) : Act Unit := modify fun s => { s with vpstate := v }

/-! ### Commands -/

/-- VP_READ_VOLT (R164). -/
def execVpReadVolt (d : DomId) (s : State) : Host.Outcome State Fault Refusal :=
  command (.vpReadVolt d) s do
    line .RV1
    match s.cfg.readVoltCaps d with
    | none => do
      log .configError d
      respond .ok 0
    | some (vp, vselToUv) => do
      line .RV2
      let v ← domRead d vp.voltage
      setWork fun w => { w with v := some v }
      line .RV3
      let vsel := field v vp.voltVsel
      setWork fun w => { w with vsel := some vsel }
      line .RV4
      respond .ok (vselToUv.apply vsel)

/-- Lines IN2 to IN8 of VP_INIT (R166). -/
def initWrites (d : DomId) (k : InitCaps) (x : InitValues) : Act Unit := do
  line .IN2
  modify fun t => t.withVpen d false
  line .IN3
  setWork fun w =>
    { w with tmo := some (BitVec.ofNat 32 x.tmo), wait := some (BitVec.ofNat 32 x.wait)
             vmin := some x.vmin, vmax := some x.vmax }
  line .IN4
  let off ← placeIn k.pmic.erroroffset k.vp.cfgErroroffset
  domWrite d k.vp.vpconfig (off ||| k.vp.cfgTimeouten)
  line .IN5
  let minWait ← placeIn x.wait k.vp.sminWait
  let minStep ← placeIn k.pmic.vstepmin k.vp.sminStep
  domWrite d k.vp.vstepmin (minWait ||| minStep)
  line .IN6
  let maxWait ← placeIn x.wait k.vp.smaxWait
  let maxStep ← placeIn k.pmic.vstepmax k.vp.smaxStep
  domWrite d k.vp.vstepmax (maxWait ||| maxStep)
  line .IN7
  let vmax ← placeIn x.vmax.toNat k.vp.limVddmax
  let vmin ← placeIn x.vmin.toNat k.vp.limVddmin
  let tmo ← placeIn x.tmo k.vp.limTimeout
  domWrite d k.vp.vlimitto (vmax ||| vmin ||| tmo)
  line .IN8
  respond .ok 0

/-- VP_INIT (R165, R166). -/
def execVpInit (d : DomId) (s : State) : Host.Outcome State Fault Refusal :=
  command (.vpInit d) s do
    line .IN1
    match s.cfg.initCaps d with
    | none => do
      log .configError d
      respond .ok 0
    | some k => initWrites d k (s.cfg.initValues k)

/-- VP_TXDONE (R167). -/
def execVpTxdone (d : DomId) (s : State) : Host.Outcome State Fault Refusal :=
  command (.vpTxdone d) s do
    line .TD1
    match s.cfg.txCaps d with
    | none => refuse .missingCapability
    | some vp => do
      let b ← callCheckTxdone vp.id
      setWork fun w => { w with okf := some b }
      line .TD2
      respond .ok (boolWord b)

/-- VP_TXCLR (R168). -/
def execVpTxclr (d : DomId) (s : State) : Host.Outcome State Fault Refusal :=
  command (.vpTxclr d) s do
    line .TC1
    match s.cfg.txCaps d with
    | none => refuse .missingCapability
    | some vp => do
      callClearTxdone vp.id
      line .TC2
      respond .ok 0

/-- VP_ERRGAIN (R169). -/
def execVpErrgain (d : DomId) (td : Option TD) (s : State) : Host.Outcome State Fault Refusal :=
  command (.vpErrgain d td) s do
    line .EG1
    match s.cfg.errgainCaps d, td with
    | some vp, some td => do
      line .EG2
      let gain ← placeIn td.errgain.toNat vp.cfgErrorgain
      domRmw d vp.cfgErrorgain gain vp.vpconfig
      line .EG3
      respond .ok 0
    | _, _ => respond .invalidArgument 0

/-- A VP_SCALE that times out at step 2 or 4 (R171, R172): reported, then TIMEOUT. -/
def scaleTimeout (d : DomId) (dom : Dom) (vp : Vp) : Act Unit := do
  reportError d dom vp
  setVpstate (.failed .timeout)
  respond .timeout 0

/-- "on timeout, ... continue regardless": a failed wait is reported and the command goes on (R174, R178). -/
def reportUnless (ok : Bool) (d : DomId) (dom : Dom) (vp : Vp) : Act Unit :=
  if ok then pure () else reportError d dom vp

/-- Steps 5 to 11 of VP_SCALE (R170, R173, R174): nothing aborts them. -/
def scaleRamp (d : DomId) (dom : Dom) (vp : Vp) (uvToVsel : PmicFn) (td : TD) (tvolt tsel csel : Word) :
    Act Unit := do
  line .S5
  setVpstate .configWriting
  let cfg ← setInitVoltage d vp uvToVsel tvolt
  line .S6
  domWrite d vp.vpconfig (cfg ||| vp.cfgForceupdate)
  setVpstate .transactionPending
  line .S7
  let s ← get
  let done ← pollUntil (callCheckTxdone vp.id) s.cfg.vpTxwaitBudget s.cfg.vpDelayUs
  reportUnless done d dom vp
  line .S8
  callPostScale d tvolt td tsel csel
  line .S9
  let cleared ← clearTxDone vp
  reportUnless cleared d dom vp
  line .S10
  domWrite d vp.vpconfig cfg
  line .S11
  setVpstate .idle
  respond .ok 0

/-- Steps 3 and 4 of VP_SCALE, then the ramp (R171, R172). -/
def scaleIdle (d : DomId) (dom : Dom) (vp : Vp) (uvToVsel : PmicFn) (td : TD) : Act Unit := do
  line .S3
  let s ← get
  let tvolt := s.cfg.operationVoltage td
  setWork fun w => { w with tvolt := some tvolt }
  let r ← callPreScale d tvolt td
  match r with
  | .err e => do
    setVpstate (.failed .hookError)
    respond .hookError e
  | .ok tsel csel => do
    setWork fun w => { w with tsel := some tsel, csel := some csel }
    line .S4
    let cleared ← clearTxDone vp
    if cleared then scaleRamp d dom vp uvToVsel td tvolt tsel csel else scaleTimeout d dom vp

/-- VP_SCALE (R170). -/
def execVpScale (d : DomId) (td : Option TD) (s : State) : Host.Outcome State Fault Refusal :=
  command (.vpScale d td) s do
    line .S0
    setVpstate .idle
    line .S1
    match s.cfg.scaleCaps d, td with
    | some (dom, vp), some td =>
      match scaleRelied dom with
      | none => refuse .missingCapability
      | some uvToVsel => do
        line .S2
        let idle ← waitIdle d vp
        if idle then scaleIdle d dom vp uvToVsel td else scaleTimeout d dom vp
    | _, _ => do
      setVpstate (.failed .invalidArgument)
      respond .invalidArgument 0

/-- Lines EN3 to EN7 of VP_ENABLE (R176). -/
def enableDisabled (d : DomId) (vp : Vp) (uvToVsel : PmicFn) : Act Unit := do
  line .EN3
  let r ← callLookup d
  match r with
  | none => do
    log .configError d
    respond .ok 0
  | some td => do
    line .EN4
    let s ← get
    let cfg ← setInitVoltage d vp uvToVsel (s.cfg.operationVoltage td)
    line .EN5
    domWrite d vp.vpconfig (cfg ||| vp.cfgVpenable)
    line .EN6
    modify fun t => t.withVpen d true
    line .EN7
    respond .ok 0

/-- VP_ENABLE (R176). -/
def execVpEnable (d : DomId) (s : State) : Host.Outcome State Fault Refusal :=
  command (.vpEnable d) s do
    line .EN1
    match s.cfg.enableCaps d with
    | none => do
      log .configError d
      respond .ok 0
    | some (vp, uvToVsel) => do
      line .EN2
      if s.vpenOf d then respond .ok 0 else enableDisabled d vp uvToVsel

/-- Lines DS3 to DS7 of VP_DISABLE (R178). -/
def disableEnabled (d : DomId) (dom : Dom) (vp : Vp) : Act Unit := do
  line .DS3
  let idle ← waitIdle d vp
  reportUnless idle d dom vp
  line .DS4
  let v ← domRead d vp.vpconfig
  setWork fun w => { w with v := some v }
  domWrite d vp.vpconfig (v &&& ~~~vp.cfgVpenable)
  line .DS5
  let idle' ← waitIdle d vp
  reportUnless idle' d dom vp
  line .DS6
  modify fun t => t.withVpen d false
  line .DS7
  respond .ok 0

/-- VP_DISABLE (R178). -/
def execVpDisable (d : DomId) (s : State) : Host.Outcome State Fault Refusal :=
  command (.vpDisable d) s do
    line .DS1
    match s.cfg.disableCaps d with
    | none => do
      log .configError d
      respond .ok 0
    | some (dom, vp) => do
      line .DS2
      if s.vpenOf d then disableEnabled d dom vp
      else do
        log .warnAlreadyDisabled d
        respond .ok 0

end Sys2Proof.Machine
end

