-- ==== Sys2Proof/Machine/Dispatch.lean ====
section
/-! DEFINITION. One arm per command: each calls its meaning. -/

namespace Sys2Proof.Machine

def exec (i : Instr) (s : State) : Host.Outcome State Fault Refusal :=
  match i with
  | .initBases bases => Sys2Proof.Machine.execInitBases bases s
  | .read part inst idx => Sys2Proof.Machine.execRead part inst idx s
  | .write value part inst idx => Sys2Proof.Machine.execWrite value part inst idx s
  | .rmw mask bits part inst idx => Sys2Proof.Machine.execRmw mask bits part inst idx s
  | .rstIsAsserted shift part inst ctrlOffset => Sys2Proof.Machine.execRstIsAsserted shift part inst ctrlOffset s
  | .rstAssert shift part inst ctrlOffset => Sys2Proof.Machine.execRstAssert shift part inst ctrlOffset s
  | .rstDeassert shift part inst ctrlOffset => Sys2Proof.Machine.execRstDeassert shift part inst ctrlOffset s
  | .warmReset => Sys2Proof.Machine.execWarmReset s
  | .coldReset => Sys2Proof.Machine.execColdReset s
  | .vpReadVolt d => Sys2Proof.Machine.execVpReadVolt d s
  | .vpInit d => Sys2Proof.Machine.execVpInit d s
  | .vpTxdone d => Sys2Proof.Machine.execVpTxdone d s
  | .vpTxclr d => Sys2Proof.Machine.execVpTxclr d s
  | .vpErrgain d td => Sys2Proof.Machine.execVpErrgain d td s
  | .vpScale d td => Sys2Proof.Machine.execVpScale d td s
  | .vpEnable d => Sys2Proof.Machine.execVpEnable d s
  | .vpDisable d => Sys2Proof.Machine.execVpDisable d s

end Sys2Proof.Machine
end

