-- ==== Sys2Proof/Machine/Fetch.lean ====
section
/-! DEFINITION. Taking a descriptor from CMD (30_encoding R90, R95), the answer to an illegal one (R97), a turn of the
other agents while the block waits (R241), and their turns in FATAL (R212, R243). -/

namespace Sys2Proof.Machine

/-- The words of the first descriptor on CMD and what follows it, once the whole of it has been presented. Its length
comes from W0[7:0] alone (R95). -/
def takeDescriptor (npart : Nat) (cmd : List Word) : Option (List Word × List Word) :=
  match cmd with
  | [] => none
  | w0 :: _ =>
    let n := descriptorLength npart w0
    if n ≤ cmd.length then some (cmd.take n, cmd.drop n) else none

/-- An illegal descriptor (R97): status ILLEGAL_COMMAND, value 0, no other event and no other change of state. -/
def answerIllegal (s : State) : Host.Outcome State Fault Refusal :=
  guarded s (outcomeOf (respond .illegalCommand 0 s))

/-- The block waits in READY (R241): the other agents have a turn. -/
def State.idleTurn (s : State) : State := s.takeTurn.1

/-- In FATAL the block does nothing (R212); the other agents have their turns, of the script and then a free one, until
one of them resets the block (R240, R243). The second part says whether one did. -/
def awaitReset : List (List Move) → State → State × Bool
  | [], s => s.freeTurn
  | ms :: rest, s =>
    let r := runMoves ms { s with script := rest }
    if r.2 then r else awaitReset rest r.1

end Sys2Proof.Machine
end

