-- ==== Sys2Proof/Machine/Step.lean ====
section
/-! DEFINITION. One step of the machine: a signalled block reset is taken in every mode; otherwise the next descriptor
on CMD is taken, decoded and run, or the block waits in READY (R25, R240, R241), or in FATAL for a reset (R212). -/

namespace Sys2Proof.Machine

/-- One step (R25, R212, R240, R241, R243, R97). -/
def step (s : State) : Host.Outcome State Fault Refusal :=
  match s.resetPin with
  | some keep => .next (s.blockReset keep)
  | none =>
    match s.mode with
    | .fatal => if (awaitReset s.script s).2 then .next (awaitReset s.script s).1 else .fault .fatalMode
    | .busy => .refused .midCommand
    | .ready =>
      match takeDescriptor s.cfg.npart s.cmd with
      | none => .next s.idleTurn
      | some (ws, rest) =>
        match decode s.cfg.npart ws with
        | .ok i => exec i { s with cmd := rest }
        | .error _ => answerIllegal { s with cmd := rest }

/-- `s` with the descriptor whose bits are the low `nbits` of `w` presented first on CMD. -/
def State.withFetchWord (s : State) (nbits w : Nat) : State :=
  { s with cmd := tableWords s.cfg.npart nbits w ++ s.cmd }

end Sys2Proof.Machine
end

