-- ==== Sys2Proof/Safety.lean ====
section
/-! DEFINITION. The terms in which claims speak of runs: a command that completes or that a reset cuts short, what a
command leaves alone, the writes the block has issued (R69, R73), the traces of the bounded loops (R143, R162) and of
ReportError (R200), and the contract of a correct target (R74, R78). -/

namespace Sys2Proof.Machine

/-! ### Runs -/

/-- The move is no reset. -/
def Move.isEnv : Move → Bool
  | .env _ => true
  | .socReset _ => false
  | .blockReset _ => false

/-- A global reset request stands: the target has observed one, or one is queued (R79, R243; log 18). -/
def State.requestPending (s : State) : Bool := s.target.armed || s.wq.any (fun e => e.request)

/-- No reset comes in the coming turns, of the script or free, unless the block itself asks for one (R243): ENV and HOST
may still do anything else. After reset it holds. -/
def State.noResets (s : State) : Bool :=
  s.script.all (fun ms => ms.all Move.isEnv) && (!s.freeResets || !s.requestPending)

/-- A command can be accepted and runs: MODE READY (R25) and an admitted configuration (R56). -/
def State.takesCommand (s : State) : Prop := s.mode = .ready ∧ s.cfg.admitted = true

/-- The event is a block or SoC reset. -/
def Event.isReset : Event → Bool
  | .blockReset => true
  | .socReset => true
  | _ => false

/-- A block or SoC reset is among the events since `s` (R242, R243). -/
def ResetSince (s t : State) : Prop := ∃ es e, t.events = es ++ s.events ∧ e ∈ es ∧ e.isReset = true

/-- A global reset request is among the block's writes (R49, R243), with BASE as it is in `s`. -/
def State.RequestsAmong (s : State) (es : List Event) : Prop :=
  ∃ a v, Event.mmioWrite a v ∈ es ∧ s.requestsGlobalReset a v = true

/-- A reset came first (R242, R243). Where none was coming, the block asked for it since. What it leaves of the block is
said of every command (`Obligations.OneResponsePerCommand`). -/
def CutShort (s t : State) : Prop :=
  ResetSince s t ∧ (s.noResets = true → ∃ es, t.events = es ++ s.events ∧ s.RequestsAmong es)

/-- The command completes in a next state as `good` says, or a reset comes before its response. -/
def Completes (i : Instr) (s : State) (good : State → Prop) : Prop :=
  ∃ t, exec i s = .next t ∧ (good t ∨ CutShort s t)

/-- The command is refused, or a reset comes before it gets there. -/
def Refuses (i : Instr) (s : State) (r : Refusal) : Prop :=
  exec i s = .refused r ∨ ∃ t, exec i s = .next t ∧ CutShort s t

/-- A run has ended (R19): MODE is READY, no command is accepted and not yet answered (PHASE has no value, R27), and WQ
is empty. Nothing is said of ENV, or of what HOST may still present. -/
def State.runEnded (s : State) : Prop := s.mode = .ready ∧ s.phase = none ∧ s.wq = []

/-- What no command changes unless a rule says so: every register of the block but the latch, the working registers,
PHASE, RES, RVAL and WQ, and the configuration, CMD, the reset wire and HOST's prepared answers. -/
structure Unchanged (s t : State) : Prop where
  base : t.base = s.base
  vpen : t.vpen = s.vpen
  msgCnt : t.msgCnt = s.msgCnt
  recCnt : t.recCnt = s.recCnt
  mode : t.mode = s.mode
  vpstate : t.vpstate = s.vpstate
  cfg : t.cfg = s.cfg
  cmd : t.cmd = s.cmd
  resetPin : t.resetPin = s.resetPin
  host : t.host = s.host

/-- The latch holds the fields of `i`'s descriptor that its format has (R28); nothing is said of the others (log 34). -/
def Latch.Holds (l : Latch) (i : Instr) : Prop :=
  l.opc = (latchOf i).opc ∧ l.sel = (latchOf i).sel ∧ l.shift = (latchOf i).shift ∧
    match i with
    | .initBases bases => l.bases = bases.map addrWord
    | _ => l.a = (latchOf i).a ∧ l.b = (latchOf i).b ∧ l.c = (latchOf i).c ∧ l.d = (latchOf i).d

/-- `t` is `s` after the command `i` answered (`status`, `value`): the response stands in RES and RVAL and is the last
event, `events` (newest first) are the command's other events, the latch holds `i`, PHASE has no value. -/
structure Answered (i : Instr) (s t : State) (status : Status) (value : Word) (events : List Event) : Prop where
  res : t.res = status.code
  rval : t.rval = value
  latch : t.latch.Holds i
  phase : t.phase = none
  events : t.events = .respond status value :: events ++ s.events

/-! ### The target as the block's next read would find it -/

/-- What a read of the register would be answered now if no agent moved before it: the queued writes are observed
first (R70). `none` where its contents are not known (log 9). -/
def State.readsAs (s : State) (port : Port) (a : Addr) : Option Word := s.drain.target.get port a

/-- No other agent moves at any turn of the script. -/
def State.undisturbed (s : State) : Prop := ∀ ms ∈ s.script, ms = []

/-- No register of the target but those of `stores` reads otherwise in `t` than in `s`, where no other agent moved in
between (the script had a turn left at the end, so it covered every turn). -/
def OnlyStores (s t : State) (stores : List (Port × Addr)) : Prop :=
  s.undisturbed → t.script ≠ [] → ∀ port a, (port, a) ∉ stores → t.readsAs port a = s.readsAs port a

/-! ### The partition fault and resets -/

/-- The partition passes the three tests of R127. -/
def State.MappedPartition (s : State) (part : PartId) : Prop :=
  part.toNat < s.cfg.npart ∧ part ∉ s.cfg.partInvalid ∧ s.baseOf part ≠ 0

/-- `raise Fatal(PartitionInvalid)` (R212): MODE is FATAL, there was no event, all other state has its value. -/
structure FatalEntry (s t : State) : Prop where
  mode : t.mode = .fatal
  events : t.events = s.events
  unchanged : Unchanged { s with mode := .fatal } t
  res : t.res = s.res
  rval : t.rval = s.rval
  wq : t.wq = s.wq
  target : t.target = s.target

/-- How a command ends that goes through the partition `part` and whose first access is at `ea`: an invalid partition
is fatal before any event (R127, R212), a misaligned address is refused (R63), and otherwise it completes as `good`
says, unless a reset comes first (R242, R243). -/
def ThroughPartition (i : Instr) (s : State) (part : PartId) (ea : Addr) (good : State → Prop) : Prop :=
  s.takesCommand →
    (¬s.MappedPartition part → ∃ t, exec i s = .next t ∧ FatalEntry s t) ∧
    (s.MappedPartition part → aligned ea = false → exec i s = .refused .misaligned) ∧
    (s.MappedPartition part → aligned ea = true → Completes i s good)

/-- The SoC reset came before the response (R243), after `events` (newest first): the block is at its reset values
(R240), and nothing is known of ENV's registers and indications. Two fields are the model's own, no words of R243: the
reset uses the request up (`armed`, log 18), and what HOST has presented on CMD stays there (`cmd`, log 37). -/
structure SocResetEnd (s t : State) (events : List Event) : Prop where
  events : t.events = .socReset :: events ++ s.events
  wq : t.wq = []
  regs : t.target.regs = []
  txdone : t.target.txdone = []
  armed : t.target.armed = false
  base : t.base = List.replicate s.cfg.npart 0
  vpen : t.vpen = List.replicate s.cfg.doms.length false
  msgCnt : t.msgCnt = s.cfg.n1
  recCnt : t.recCnt = s.cfg.n2
  mode : t.mode = .ready
  vpstate : t.vpstate = .idle
  phase : t.phase = none
  work : t.work = {}
  cfg : t.cfg = s.cfg
  cmd : t.cmd = s.cmd

/-- The answered end of WARM_RESET (R150): read, write with the warm bit set, read back, (OK, 0). -/
def WarmAnswers (s t : State) : Prop :=
  ∃ v v' : Word, Answered .warmReset s t .ok 0
      [.mmioRead s.globalCtrl v', .mmioWrite s.globalCtrl (v ||| 1#32 <<< s.cfg.grst.warmBit.toNat),
        .mmioRead s.globalCtrl v] ∧
    Unchanged s t ∧ t.wq = [] ∧ OnlyStores s t [(.mmio, s.globalCtrl)]

/-- The answered end of COLD_RESET (R152): the cold status bit cleared by writing 1, read, write with the cold bit set,
read back, delay, (OK, 0). -/
def ColdAnswers (s t : State) : Prop :=
  ∃ v v' : Word, Answered .coldReset s t .ok 0
      [.delay s.cfg.coldSettleUs, .mmioRead s.globalCtrl v',
        .mmioWrite s.globalCtrl (v ||| 1#32 <<< s.cfg.grst.coldBit.toNat), .mmioRead s.globalCtrl v,
        .mmioWrite s.globalStatus (1#32 <<< s.cfg.grst.coldStBit.toNat)] ∧
    Unchanged s t ∧ t.wq = [] ∧ OnlyStores s t [(.mmio, s.globalCtrl), (.mmio, s.globalStatus)]

/-- `Present(d)` (R40), and its record. -/
def HasDomain (c : Config) (d : DomId) (dom : Dom) : Prop := c.doms[d.toNat]? = some dom ∧ dom.present = true

/-! ### HOST's answers (R46; log 21) -/

/-- `r` is what `pre_scale` answers, and `h'` what HOST has prepared after it: the next prepared answer, else any. -/
def HostAnswers.PreScaleGives (h : HostAnswers) (r : PreScaleResult) (h' : HostAnswers) : Prop :=
  (∀ x rest, h.preScale = x :: rest → r = x ∧ h' = { h with preScale := rest }) ∧ (h.preScale = [] → h' = h)

/-- `r` is what `get_current_voltage_data` answers, and `h'` what HOST has prepared after it. -/
def HostAnswers.LookupGives (h : HostAnswers) (r : Option TD) (h' : HostAnswers) : Prop :=
  (∀ x rest, h.lookup = x :: rest → r = x ∧ h' = { h with lookup := rest }) ∧ (h.lookup = [] → h' = h)

/-! ### What the block has issued -/

/-- The write an event issues, if any; the read-modify-write accessor counts as a write (R66, R70). -/
def Event.written : Event → Option Write
  | .mmioWrite a v => some ⟨.mmio, a, v⟩
  | .domWrite d a v => some ⟨.dom d, a, v⟩
  | .domRmw d a _ _ new => some ⟨.dom d, a, new⟩
  | _ => none

/-- The read an event completes, if any: the register's key and the value. -/
def Event.readOf : Event → Option (Nat × Word)
  | .mmioRead a v => some (regKey .mmio a, v)
  | .domRead d a v => some (regKey (.dom d) a, v)
  | _ => none

/-- The writes issued, newest first. -/
def writesOf (events : List Event) : List Write := events.filterMap Event.written

/-- The block's writes as they stand in WQ and as the target has observed them, newest first (R69). -/
def State.issued (s : State) : List Write := (s.wq.reverse ++ s.target.seen).map WEntry.toWrite

/-- The event is a response on RSP. -/
def Event.isResponse : Event → Bool
  | .respond _ _ => true
  | _ => false

/-- The event is a call of the recovery callback. -/
def Event.isRecover : Event → Bool
  | .call (.recover _) => true
  | _ => false

/-- The event is a call of the post-scale hook. -/
def Event.isPostScale : Event → Bool
  | .call (.postScale _ _ _ _ _) => true
  | _ => false

/-- An event that accesses a register does so at a multiple of 4 (R63). -/
def Event.wordAligned : Event → Bool
  | .mmioRead a _ => aligned a
  | .mmioWrite a _ => aligned a
  | .domRead _ a _ => aligned a
  | .domWrite _ a _ => aligned a
  | .domRmw _ a _ _ _ => aligned a
  | _ => true

/-- The event is a full-verbosity log of a routed error (R226). -/
def Event.isFullLog : Event → Bool
  | .log .errFull _ => true
  | _ => false

/-- The event is a read of an MMIO register. -/
def Event.isMmioRead : Event → Bool
  | .mmioRead _ _ => true
  | _ => false

/-- The event is a delay. -/
def Event.isDelay : Event → Bool
  | .delay _ => true
  | _ => false

/-- The command goes through the partitioned layer (R211). -/
def usesPartition : Instr → Bool
  | .read _ _ _ => true
  | .write _ _ _ _ => true
  | .rmw _ _ _ _ _ => true
  | .rstIsAsserted _ _ _ _ => true
  | .rstAssert _ _ _ _ => true
  | .rstDeassert _ _ _ _ => true
  | .warmReset => true
  | .coldReset => true
  | .initBases _ => false
  | .vpReadVolt _ => false
  | .vpInit _ => false
  | .vpTxdone _ => false
  | .vpTxclr _ => false
  | .vpErrgain _ _ => false
  | .vpScale _ _ => false
  | .vpEnable _ => false
  | .vpDisable _ => false

/-- The partition operand of a partitioned command; the global sequences use PART_PRM (R148). -/
def State.partitionOf (s : State) : Instr → PartId
  | .read part _ _ => part
  | .write _ part _ _ => part
  | .rmw _ _ part _ _ => part
  | .rstIsAsserted _ part _ _ => part
  | .rstAssert _ part _ _ => part
  | .rstDeassert _ part _ _ => part
  | _ => s.cfg.partPrm

/-! ### Traces of the bounded loops (R143, R161, R162), newest event first -/

/-- Failed checks, each followed by its delay (R143). -/
def failedChecks (delayUs : Nat) (checks : List Event) : List Event := checks.flatMap (fun e => [.delay delayUs, e])

/-- `PollUntil` (R143): `check v` is the event of a check that found `v`, `holds v` says that it succeeded. It ends at
the first check that holds, within the budget, or when the budget is used up. -/
def PollTrace {α : Type} (budget : Nat) (delayUs : Nat) (check : α → Event) (holds : α → Bool) (ok : Bool)
    (es : List Event) : Prop :=
  ∃ failed : List α, (∀ v ∈ failed, holds v = false) ∧
    ((ok = false ∧ failed.length = budget ∧ es = failedChecks delayUs (failed.map check)) ∨
      (ok = true ∧ failed.length < budget ∧
        ∃ v, holds v = true ∧ es = check v :: failedChecks delayUs (failed.map check)))

/-- Line DA5 of RST_DEASSERT, on the status register at `a` (R146). -/
def StatusPolls (c : Config) (a : Addr) (shift : Shift) : Bool → List Event → Prop :=
  PollTrace c.hardresetBudget.toNat c.hardresetDelayUs (.mmioRead a) (fun v => bitSet v shift)

/-- `WaitIdle(d)` (R161). -/
def IdleWait (c : Config) (d : DomId) (vp : Vp) : Bool → List Event → Prop :=
  PollTrace c.vpIdleBudget.toNat c.vpDelayUs (.domRead d vp.vstatus) (fun v => v &&& vp.stIdle != 0)

/-- The wait for transaction-done, S7 of VP_SCALE (R174). -/
def TxWait (c : Config) (vp : Vp) : Bool → List Event → Prop :=
  PollTrace c.vpTxwaitBudget.toNat c.vpDelayUs (fun b => .call (.checkTxdone vp.id b)) id

/-- `n` attempts to clear transaction-done that failed, each followed by its delay (R162). -/
def failedClears (id delayUs : Nat) : Nat → List Event
  | 0 => []
  | n + 1 => failedClears id delayUs n ++ [.delay delayUs, .call (.checkTxdone id true), .call (.clearTxdone id)]

/-- `ClearTxDone(d)` (R162). -/
def ClearTrace (c : Config) (vp : Vp) (ok : Bool) (es : List Event) : Prop :=
  ∃ n, (ok = false ∧ n = c.vpTxclearBudget.toNat ∧ es = failedClears vp.id c.vpDelayUs n) ∨
    (ok = true ∧ n < c.vpTxclearBudget.toNat ∧
      es = .call (.checkTxdone vp.id false) :: .call (.clearTxdone vp.id) :: failedClears vp.id c.vpDelayUs n)

/-- CFG of `SetInitVoltage` (line V3 of R163), from the word read and the placed selector. -/
def pulseValue (vp : Vp) (v sel : Word) : Word :=
  (v &&& ~~~(vp.cfgInitvoltage ||| vp.cfgInitvdd ||| vp.cfgForceupdate)) ||| sel

/-- `SetInitVoltage` (R163): one read, then the three writes of the pulse (R258). -/
def pulseTrace (d : DomId) (vp : Vp) (v sel : Word) : List Event :=
  [.domWrite d vp.vpconfig (pulseValue vp v sel),
    .domWrite d vp.vpconfig (pulseValue vp v sel ||| vp.cfgInitvdd),
    .domWrite d vp.vpconfig (pulseValue vp v sel),
    .domRead d vp.vpconfig v]

/-! ### Traces of ReportError (R200) -/

/-- The event `ReportError(d)` logs when it finds MSG = `msg` (R201). -/
def reportLog (msg : Counter) (d : DomId) : Event := .log (if msg = 0 then .errRateLimited else .errFull) d

/-- MSG after `ReportError` (R201): it goes down to 0 and stays there. -/
def msgAfter (msg : Counter) : Counter := if msg = 0 then 0 else msg - 1

/-- REC after `ReportError` for a domain with a recovery callback (R202). -/
def recAfter (rc n2 : Counter) : Counter := if rc - 1 = 0 then n2 else rc - 1

/-- The counters after `ReportError` for `dom` (R200). -/
def State.reported (s : State) (dom : Dom) : State :=
  { s with
    msgCnt := msgAfter s.msgCnt
    recCnt := if dom.hasRecover then recAfter s.recCnt s.cfg.n2 else s.recCnt }

/-- The events of `ReportError(d)`, newest first (R200): the log, then the callback when REC reaches 0. -/
def State.reportTrace (s : State) (d : DomId) (dom : Dom) (vp : Vp) : List Event :=
  (if dom.hasRecover && s.recCnt - 1 == 0 then [.call (.recover vp.id)] else []) ++ [reportLog s.msgCnt d]

/-- The counters after a wait of a best-effort phase: reported unless it succeeded (R174, R178). -/
def State.reportedUnless (s : State) (ok : Bool) (dom : Dom) : State := if ok then s else s.reported dom

/-- The events of the report after a wait of a best-effort phase (R174, R178). -/
def State.reportUnlessTrace (s : State) (ok : Bool) (d : DomId) (dom : Dom) (vp : Vp) : List Event :=
  if ok then [] else s.reportTrace d dom vp

/-- Invocations of `ReportError` one after the other, first to last. -/
def reportAll : List (DomId × Dom × Vp) → Act Unit
  | [] => pure ()
  | (d, dom, vp) :: rest => do
    reportError d dom vp
    reportAll rest

/-! ### The contract of a correct target, on the events (newest first) -/

/-- The value last written to the register `k`. -/
def lastWritten (k : Nat) : List Event → Option Word
  | [] => none
  | e :: rest =>
    match e.written with
    | some w => if regKey w.port w.addr = k then some w.value else lastWritten k rest
    | none => lastWritten k rest

/-- R74: every read of the register `k` returned the value last written to it. -/
def holdsLastWritten (k : Nat) : List Event → Prop
  | [] => True
  | e :: rest => (∀ v w, e.readOf = some (k, v) → lastWritten k rest = some w → v = w) ∧ holdsLastWritten k rest

/-- The selector of the last force update of the VP that was followed by a transaction-done (R78): the
initial-voltage field of the write that set the force-update bit. -/
def rampedSelector (d : DomId) (vp : Vp) (done : Bool) : List Event → Option Word
  | [] => none
  | e :: rest =>
    match e with
    | .call (.checkTxdone id b) => rampedSelector d vp (done || (id == vp.id && b)) rest
    | .domWrite d' a v =>
      if d' = d ∧ a = vp.vpconfig ∧ v &&& vp.cfgForceupdate ≠ 0 then
        if done then some (field v vp.cfgInitvoltage) else none
      else rampedSelector d vp done rest
    | _ => rampedSelector d vp done rest

/-- R78: "After the ramp the voltage register's selector field equals the target selector". -/
def showsRampedSelector (d : DomId) (vp : Vp) : List Event → Prop
  | [] => True
  | e :: rest =>
    (∀ v sel, e.readOf = some (regKey (.dom d) vp.voltage, v) → rampedSelector d vp false rest = some sel →
      field v vp.voltVsel = sel) ∧ showsRampedSelector d vp rest

/-! ### Invariants -/

/-- The register files have the lengths their configuration gives (R21, R22, R35). -/
def State.filesFit (s : State) : Prop := s.base.length = s.cfg.npart ∧ s.vpen.length = s.cfg.doms.length

/-- REC is in 1 .. N2 and MSG is at most N1 (R23, R24), in a configuration with N2 >= 1. -/
def State.countersInRange (s : State) : Prop :=
  s.cfg.n2 ≠ 0 ∧ s.recCnt ≠ 0 ∧ s.recCnt ≤ s.cfg.n2 ∧ s.msgCnt ≤ s.cfg.n1

/-- The target has seen the block's writes in issue order, and the queue holds later ones (R69, R73). -/
def State.writesInOrder (s : State) : Prop := s.issued.Sublist (writesOf s.events)

/-- No command is in progress between steps, and then PHASE has no value (R25, R27). -/
def State.sequencerIdle (s : State) : Prop := s.mode ≠ .busy ∧ (s.mode = .ready → s.phase = none)

/-- A SoC reset is possible, or has happened, only after the target observed a write of the block that asked for it
(R243; log 18). -/
def State.resetWasRequested (s : State) : Prop :=
  (s.target.armed = true ∨ Event.socReset ∈ s.events) → ∃ e ∈ s.target.seen, e.request = true

end Sys2Proof.Machine
end

