-- ==== Sys2Proof/Certificates/Slice0/Obligations.lean ====
section
/-! DEFINITION. The statements about the model, in the terms of Safety.lean. Event lists are newest first. Every
statement about a command holds for every configuration the state may carry and for whatever ENV and HOST do at the
turns (log 2), unless it says `undisturbed`. A reset may come at any turn (R242, R243): a command "completes" or "is
refused" here unless one does first (`Completes`, `Refuses`, `CutShort`). -/

open Sys2Proof Sys2Proof.Machine

/-! ### Encoding (30_encoding) -/

/-- R106: the worked encodings decode to the commands they stand for (NPART = 6). -/
def Obligations.SpecWordsDecode : Prop :=
  decode 6 [0x00000102, 0x400, 0x10, 0, 0] = .ok (.read 1 0x400 0x10) ∧
  decode 6 [0x00000103, 0x400, 0x10, 0xDEADBEEF, 0] = .ok (.write 0xDEADBEEF 1 0x400 0x10) ∧
  decode 6 [0x00000104, 0x400, 0x10, 0x0000FF00, 0x00001200] = .ok (.rmw 0x0000FF00 0x00001200 1 0x400 0x10) ∧
  decode 6 [0x0001010A, 0x400, 0x10, 0, 0] = .ok (.rstDeassert 1 1 0x400 0x10) ∧
  decode 6 [0x001F0509, 0, 0x20, 0, 0] = .ok (.rstAssert 31 5 0 0x20) ∧
  decode 6 [0x0000000D, 0, 0, 0, 0] = .ok .coldReset ∧
  decode 6 [0x00000215, 1, 0x0010C8E0, 0xC, 0] = .ok (.vpScale 2 (some ⟨1100000, 0xC, 0⟩)) ∧
  decode 6 [0x00000215, 0, 0, 0, 0] = .ok (.vpScale 2 none) ∧
  decode 6 [0x00000016, 0, 0, 0, 0] = .ok (.vpEnable 0) ∧
  decode 6 [0x00000001, 0, 0x4A306000, 0x4A004000, 0x4A008000, 0x4A30A000, 0x48243000] =
    .ok (.initBases [0, 0x4A306000, 0x4A004000, 0x4A008000, 0x4A30A000, 0x48243000])

/-- Every well-formed command is what its descriptor decodes to. -/
def Obligations.DecodeEncodeRoundTrip : Prop :=
  ∀ (npart : Nat) (i : Instr), i.wellFormed npart = true → decode npart (encode i) = .ok i

/-- A descriptor that decodes is the descriptor of that command: each command has exactly one. -/
def Obligations.DecodedWordsAreTheEncoding : Prop :=
  ∀ (npart : Nat) (ws : List Word) (i : Instr), decode npart ws = .ok i → encode i = ws ∧ i.wellFormed npart = true

/-- R105 and R93 (and R94 for INIT_BASES): a descriptor selects an operation exactly when `W0 & mask = match` and its
must-be-zero words are zero, and the operands are the fields as written. -/
def Obligations.OpcodeTableSelects : Prop :=
  ∀ (npart : Nat) (w0 a b c d : Word),
    let w := [w0, a, b, c, d]
    let sel := w0.extractLsb' 8 8
    let shift := w0.extractLsb' 16 5
    (∀ rest bases, decode npart (w0 :: rest) = .ok (.initBases bases) ↔
      w0 &&& 0xFFFFFFFF#32 = 0x00000001#32 ∧ bases = rest.map BitVec.toNat ∧ rest.length = npart) ∧
    (∀ p i x, decode npart w = .ok (.read p i x) ↔
      w0 &&& 0xFFFF00FF#32 = 0x00000002#32 ∧ p = sel ∧ i = a.toNat ∧ x = b.toNat ∧ c = 0 ∧ d = 0) ∧
    (∀ v p i x, decode npart w = .ok (.write v p i x) ↔
      w0 &&& 0xFFFF00FF#32 = 0x00000003#32 ∧ p = sel ∧ i = a.toNat ∧ x = b.toNat ∧ v = c ∧ d = 0) ∧
    (∀ m v p i x, decode npart w = .ok (.rmw m v p i x) ↔
      w0 &&& 0xFFFF00FF#32 = 0x00000004#32 ∧ p = sel ∧ i = a.toNat ∧ x = b.toNat ∧ m = c ∧ v = d) ∧
    (∀ s p i x, decode npart w = .ok (.rstIsAsserted s p i x) ↔
      w0 &&& 0xFFE000FF#32 = 0x00000008#32 ∧ s = shift ∧ p = sel ∧ i = a.toNat ∧ x = b.toNat ∧ c = 0 ∧ d = 0) ∧
    (∀ s p i x, decode npart w = .ok (.rstAssert s p i x) ↔
      w0 &&& 0xFFE000FF#32 = 0x00000009#32 ∧ s = shift ∧ p = sel ∧ i = a.toNat ∧ x = b.toNat ∧ c = 0 ∧ d = 0) ∧
    (∀ s p i x, decode npart w = .ok (.rstDeassert s p i x) ↔
      w0 &&& 0xFFE000FF#32 = 0x0000000A#32 ∧ s = shift ∧ p = sel ∧ i = a.toNat ∧ x = b.toNat ∧ c = 0 ∧ d = 0) ∧
    (decode npart w = .ok .warmReset ↔
      w0 &&& 0xFFFFFFFF#32 = 0x0000000C#32 ∧ a = 0 ∧ b = 0 ∧ c = 0 ∧ d = 0) ∧
    (decode npart w = .ok .coldReset ↔
      w0 &&& 0xFFFFFFFF#32 = 0x0000000D#32 ∧ a = 0 ∧ b = 0 ∧ c = 0 ∧ d = 0) ∧
    (∀ x, decode npart w = .ok (.vpReadVolt x) ↔
      w0 &&& 0xFFFF00FF#32 = 0x00000010#32 ∧ x = sel ∧ a = 0 ∧ b = 0 ∧ c = 0 ∧ d = 0) ∧
    (∀ x, decode npart w = .ok (.vpInit x) ↔
      w0 &&& 0xFFFF00FF#32 = 0x00000011#32 ∧ x = sel ∧ a = 0 ∧ b = 0 ∧ c = 0 ∧ d = 0) ∧
    (∀ x, decode npart w = .ok (.vpTxdone x) ↔
      w0 &&& 0xFFFF00FF#32 = 0x00000012#32 ∧ x = sel ∧ a = 0 ∧ b = 0 ∧ c = 0 ∧ d = 0) ∧
    (∀ x, decode npart w = .ok (.vpTxclr x) ↔
      w0 &&& 0xFFFF00FF#32 = 0x00000013#32 ∧ x = sel ∧ a = 0 ∧ b = 0 ∧ c = 0 ∧ d = 0) ∧
    (∀ x td, decode npart w = .ok (.vpErrgain x td) ↔
      w0 &&& 0xFFFF00FF#32 = 0x00000014#32 ∧ x = sel ∧
        ((a = 1 ∧ td = some ⟨b, c, d⟩) ∨ (a = 0 ∧ b = 0 ∧ c = 0 ∧ d = 0 ∧ td = none))) ∧
    (∀ x td, decode npart w = .ok (.vpScale x td) ↔
      w0 &&& 0xFFFF00FF#32 = 0x00000015#32 ∧ x = sel ∧
        ((a = 1 ∧ td = some ⟨b, c, d⟩) ∨ (a = 0 ∧ b = 0 ∧ c = 0 ∧ d = 0 ∧ td = none))) ∧
    (∀ x, decode npart w = .ok (.vpEnable x) ↔
      w0 &&& 0xFFFF00FF#32 = 0x00000016#32 ∧ x = sel ∧ a = 0 ∧ b = 0 ∧ c = 0 ∧ d = 0) ∧
    (∀ x, decode npart w = .ok (.vpDisable x) ↔
      w0 &&& 0xFFFF00FF#32 = 0x00000017#32 ∧ x = sel ∧ a = 0 ∧ b = 0 ∧ c = 0 ∧ d = 0)

/-- R98: the reserved codes are illegal, whatever the rest of the descriptor says. -/
def Obligations.ReservedOpcodesIllegal : Prop :=
  ∀ (npart : Nat) (w0 : Word) (rest : List Word),
    let opc := w0.toNat % 256
    (opc = 0x00 ∨ (0x05 ≤ opc ∧ opc ≤ 0x07) ∨ opc = 0x0B ∨ opc = 0x0E ∨ opc = 0x0F ∨ 0x18 ≤ opc) →
      ∃ r, decode npart (w0 :: rest) = .error r

/-- R97: an illegal descriptor is answered with ILLEGAL_COMMAND (6), value 0, with no other event and no other change of
state, unless a reset comes first. That the answer stands in RES and RVAL, as every response does (R30), is the model's
reading of R97's "changes no state" (log 28). -/
def Obligations.IllegalDescriptorAnswered : Prop :=
  ∀ (s : State) (ws rest : List Word) (r : Reject), s.takesCommand → s.resetPin = none →
    takeDescriptor s.cfg.npart s.cmd = some (ws, rest) → decode s.cfg.npart ws = .error r →
    ∃ t, step s = .next t ∧
      ((t.res = 6 ∧ t.rval = 0 ∧ t.events = .respond .illegalCommand 0 :: s.events ∧
        Unchanged { s with cmd := rest } t ∧ t.latch = s.latch ∧ t.work = s.work ∧ OnlyStores s t []) ∨ CutShort s t)

/-! ### The step (10_state R25, 30_encoding R95, 70_reset_and_hazards) -/

/-- A step runs the decoded command, with the descriptor's words taken off CMD. -/
def Obligations.StepRunsDecodedCommand : Prop :=
  ∀ (s : State) (i : Instr) (ws rest : List Word), s.resetPin = none → s.mode = .ready →
    takeDescriptor s.cfg.npart s.cmd = some (ws, rest) → decode s.cfg.npart ws = .ok i →
    step s = exec i { s with cmd := rest }

/-- A step runs the command whose descriptor comes first on CMD, whatever follows it. -/
def Obligations.StepRunsEncodedCommand : Prop :=
  ∀ (s : State) (i : Instr) (rest : List Word), s.resetPin = none → s.mode = .ready →
    i.wellFormed s.cfg.npart = true → s.cmd = encode i ++ rest → step s = exec i { s with cmd := rest }

/-- R95: the length of a descriptor comes from `W0[7:0]` alone; in READY a descriptor is taken whole, reserved or not.
That one which is not yet presented whole is left on CMD is the model's choice (log 29), and so is that a reset in the
step takes no word off CMD (log 37). Outside READY nothing is taken (R25, R212). -/
def Obligations.StepTakesWholeDescriptor : Prop :=
  ∀ (s t : State) (w0 : Word) (rest : List Word), s.resetPin = none → s.cmd = w0 :: rest → step s = .next t →
    let n := if w0 &&& 0xFF#32 = 0x01#32 then 1 + s.cfg.npart else 5
    (s.mode = .ready → t.cmd = if n ≤ s.cmd.length then s.cmd.drop n else s.cmd) ∧ (s.mode ≠ .ready → t.cmd = s.cmd)

/-- R241: without a command the block waits in READY: no event, no state of the block changes, and no register of the
target is touched, unless a reset comes. A run that has ended stays ended (R19). That a partly presented descriptor is
no command yet, its words staying on CMD, is the model's choice (log 29). -/
def Obligations.WaitsForACommand : Prop :=
  ∀ (s : State), s.mode = .ready → s.resetPin = none → takeDescriptor s.cfg.npart s.cmd = none →
    ∃ t, step s = .next t ∧ (s.runEnded → t.runEnded) ∧
      ((t.events = s.events ∧ Unchanged s t ∧ t.latch = s.latch ∧ t.work = s.work ∧ t.phase = s.phase ∧
        t.res = s.res ∧ t.rval = s.rval ∧ t.wq.length ≤ s.wq.length ∧ OnlyStores s t []) ∨ CutShort s t)

/-- R240: block reset is taken in every mode, FATAL included, and leaves every element of R39 at its reset value. That
the words HOST presented and the block has not taken stay on CMD (`t.cmd`) is the model's choice (log 37). -/
def Obligations.BlockResetState : Prop :=
  ∀ (s : State) (keep : List Bool), s.resetPin = some keep →
    ∃ t, step s = .next t ∧
      t.base = List.replicate s.cfg.npart 0 ∧ t.vpen = List.replicate s.cfg.doms.length false ∧
      t.msgCnt = s.cfg.n1 ∧ t.recCnt = s.cfg.n2 ∧ t.mode = .ready ∧ t.vpstate = .idle ∧ t.phase = none ∧
      t.work = {} ∧ t.wq = [] ∧ t.cfg = s.cfg ∧ t.cmd = s.cmd ∧ t.events = .blockReset :: s.events

/-- R242: at a reset the queued writes may or may not reach the target: exactly the orders that drop some of them and
keep the rest in issue order are possible. -/
def Obligations.QueuedWritesAtReset : Prop :=
  ∀ (s : State) (l : List WEntry),
    l.Sublist s.wq ↔ ∃ keep t, step { s with resetPin := some keep } = .next t ∧ t.wq = [] ∧
      t.target.seen = l.reverse ++ s.target.seen

/-- R39: the block state right after reset, for every configuration; the model's reset state is that of EX1 (log 5). -/
def Obligations.ResetStateValues : Prop :=
  State.reset = State.atReset Config.ex1 ∧
  ∀ c : Config,
    (State.atReset c).base = List.replicate c.npart 0 ∧
    (State.atReset c).vpen = List.replicate c.doms.length false ∧
    (State.atReset c).msgCnt = c.n1 ∧ (State.atReset c).recCnt = c.n2 ∧ (State.atReset c).mode = .ready ∧
    (State.atReset c).vpstate = .idle ∧ (State.atReset c).phase = none ∧ (State.atReset c).work = {} ∧
    (State.atReset c).wq = [] ∧ (State.atReset c).cfg = c ∧ (State.atReset c).target.regs = []

/-! ### The fault (60_exceptions R211 to R213, 40_regaccess R127) -/

/-- R127 and R212: every command of the partitioned layer with an invalid partition enters FATAL before any event, all
other state keeps its value. In FATAL no command runs; a step there is a fault unless a reset comes, of the block or,
once it was requested, of the SoC (R240, R243), and a reset leaves READY. That FATAL is a next state whose steps are
faults until a reset is the model's form of R212 (log 27). In the last clause two fields of `SocResetEnd` are the
model's, no words of R243: the SoC reset uses the request up (log 18), and CMD keeps its words (log 37). -/
def Obligations.InvalidPartitionIsFatal : Prop :=
  (∀ (i : Instr) (s : State), usesPartition i = true → s.mode = .ready → s.cfg.admitted = true →
    (s.cfg.npart ≤ (s.partitionOf i).toNat ∨ s.partitionOf i ∈ s.cfg.partInvalid ∨
      s.base.getD (s.partitionOf i).toNat 0 = 0) →
    ∃ t, exec i s = .next t ∧ FatalEntry s t) ∧
  (∀ (i : Instr) (s : State), s.mode = .fatal → exec i s = .fault .fatalMode) ∧
  (∀ s : State, s.mode = .fatal → s.resetPin = none → s.noResets = true → step s = .fault .fatalMode) ∧
  (∀ s : State, s.mode = .fatal → s.resetPin = none →
    step s = .fault .fatalMode ∨ ∃ t, step s = .next t ∧ t.mode = .ready ∧ ResetSince s t) ∧
  (∀ (s : State) (keep : List Bool), s.mode = .fatal → s.resetPin = some keep →
    ∃ t, step s = .next t ∧ t.mode = .ready) ∧
  (∀ (s : State) (keep : List Bool) (rest : List (List Move)), s.mode = .fatal → s.resetPin = none →
    s.script = [.socReset keep] :: rest → s.target.armed = true →
    ∃ t, step s = .next t ∧ SocResetEnd s t [])

/-- R211 and R213: a command ends in FATAL exactly when it is a command of the partitioned layer whose partition is
invalid, and then nothing was touched. -/
def Obligations.OnlyInvalidPartitionIsFatal : Prop :=
  ∀ (i : Instr) (s t : State), exec i s = .next t →
    (t.mode = .fatal ↔ usesPartition i = true ∧ ¬s.MappedPartition (s.partitionOf i)) ∧
    (t.mode = .fatal → FatalEntry s t)

/-- R63: no command accesses a register at an address that is not a multiple of 4, on either port. -/
def Obligations.AccessesAreWordAligned : Prop :=
  ∀ (i : Instr) (s t : State), exec i s = .next t →
    ∃ es, t.events = es ++ s.events ∧ ∀ e ∈ es, e.wordAligned = true

/-- R13: `lsb` is the lowest set bit; a placed value lies in its field and is read back from it, and `place` is
defined exactly when the value fits. -/
def Obligations.PlacedFieldReadsBack : Prop :=
  ∀ (m : Word), m ≠ 0 →
    m.getLsbD (lsb m) = true ∧ (∀ j < lsb m, m.getLsbD j = false) ∧
    (∀ x w, place x m = some w → field w m = BitVec.ofNat 32 x ∧ w &&& ~~~m = 0) ∧
    (∀ x : Nat, (place x m).isSome = true ↔
      x < 2 ^ (32 - lsb m) ∧ (BitVec.ofNat 32 x <<< lsb m) &&& ~~~m = 0)

/-! ### The register access layer (40_regaccess, 20_memory) -/

/-- R120: INIT_BASES binds every partition, each base reduced to an AW-bit address (R21; log 6); no MMIO event, nothing
is checked. -/
def Obligations.InitBasesBindsEveryPartition : Prop :=
  ∀ (s : State) (bases : List Addr), s.takesCommand → bases.length = s.cfg.npart →
    Completes (.initBases bases) s fun t => Answered (.initBases bases) s t .ok 0 [] ∧
      Unchanged { s with base := bases.map (fun b => b % 2 ^ s.cfg.aw) } t ∧ OnlyStores s t []

/-- R124 and R121: READ makes one read, at `BASE[part] + inst + idx` modulo 2^AW (R61, R62), answers the data read and
drains WQ; it leaves EA and V, and no other working register has a value (R29, R34; that they are kept after the
response is the model's choice, log 35). Where the contents are known and nobody else moves, they are the data: this is the
model's ENV (log 9, U1 lets a read answer anything). -/
def Obligations.ReadAnswersTheRegister : Prop :=
  ∀ (s : State) (part : PartId) (inst idx : Addr),
    s.effAddr part inst idx = (s.base.getD part.toNat 0 + inst + idx) % 2 ^ s.cfg.aw ∧
    ThroughPartition (.read part inst idx) s part (s.effAddr part inst idx) fun t =>
      ∃ v : Word, Answered (.read part inst idx) s t .ok v [.mmioRead (s.effAddr part inst idx) v] ∧ Unchanged s t ∧
        t.wq = [] ∧ t.work = { ea := some (s.effAddr part inst idx), v := some v } ∧ OnlyStores s t [] ∧
        (s.undisturbed → t.script ≠ [] → ∀ w, s.readsAs .mmio (s.effAddr part inst idx) = some w → v = w)

/-- R125, R122 and R68: WRITE makes one write, which is posted: the response does not wait for the target. -/
def Obligations.WriteIsPosted : Prop :=
  ∀ (s : State) (value : Word) (part : PartId) (inst idx : Addr),
    ThroughPartition (.write value part inst idx) s part (s.effAddr part inst idx) fun t =>
      Answered (.write value part inst idx) s t .ok 0 [.mmioWrite (s.effAddr part inst idx) value] ∧ Unchanged s t ∧
        OnlyStores s t [(.mmio, s.effAddr part inst idx)] ∧
        (s.undisturbed → t.script ≠ [] →
          t.wq = s.wq ++ [s.entry .mmio (s.effAddr part inst idx) value] ∧ t.target = s.target)

/-- R126, R123 and R128: RMW makes exactly one read then one write at the same address, writes and answers
`(old & ~mask) | bits`. Where the contents are known and nobody else moves, `old` is what is known: this is the model's
ENV (log 9). -/
def Obligations.RmwMergesTheRegister : Prop :=
  ∀ (s : State) (mask bits : Word) (part : PartId) (inst idx : Addr),
    ThroughPartition (.rmw mask bits part inst idx) s part (s.effAddr part inst idx) fun t =>
      ∃ old : Word, Answered (.rmw mask bits part inst idx) s t .ok ((old &&& ~~~mask) ||| bits)
          [.mmioWrite (s.effAddr part inst idx) ((old &&& ~~~mask) ||| bits),
            .mmioRead (s.effAddr part inst idx) old] ∧
        Unchanged s t ∧ OnlyStores s t [(.mmio, s.effAddr part inst idx)] ∧
        (s.undisturbed → t.script ≠ [] → ∀ w, s.readsAs .mmio (s.effAddr part inst idx) = some w → old = w)

/-- R65 and R254: what another master writes between the read and the write of RMW is lost in every bit: the register
ends as if it had not been written. That the read finds the known contents, and that a register which is not
write-1-to-clear then holds the value written, is the model's ENV (log 9, log 19). -/
def Obligations.RmwIsNotAtomic : Prop :=
  ∀ (s : State) (mask bits old x : Word) (part : PartId) (inst idx : Addr) (rest : List (List Move)),
    s.mode = .ready → s.cfg.admitted = true → s.MappedPartition part → aligned (s.effAddr part inst idx) = true →
    s.readsAs .mmio (s.effAddr part inst idx) = some old →
    s.target.w1c.contains (regKey .mmio (s.effAddr part inst idx)) = false →
    s.script = [] :: [.env (.poke .mmio (s.effAddr part inst idx) x)] :: [] :: rest →
    ∃ t, exec (.rmw mask bits part inst idx) s = .next t ∧
      t.readsAs .mmio (s.effAddr part inst idx) = some ((old &&& ~~~mask) ||| bits)

/-- R74 and R48, for the model's ENV (log 9, log 19): a register written is found with the value written, and a
write-1-to-clear register with the bits written as 1 cleared. -/
def Obligations.StoreIsReadBack : Prop :=
  ∀ (s t : State) (value : Word) (part : PartId) (inst idx : Addr),
    exec (.write value part inst idx) s = .next t → t.mode = .ready → s.undisturbed → t.script ≠ [] →
    t.readsAs .mmio (s.effAddr part inst idx) =
      if s.target.w1c.contains (regKey .mmio (s.effAddr part inst idx))
      then (s.readsAs .mmio (s.effAddr part inst idx)).map (fun old => old &&& ~~~value)
      else some value

/-- R129: against a target that holds the last value written (R74), WRITE v followed by READ of the same triple
answers v, unless a reset comes first. -/
def Obligations.WriteThenReadReturnsTheValue : Prop :=
  ∀ (s t u : State) (value : Word) (part : PartId) (inst idx : Addr), s.takesCommand → s.MappedPartition part →
    exec (.write value part inst idx) s = .next t → exec (.read part inst idx) t = .next u →
    holdsLastWritten (regKey .mmio (s.effAddr part inst idx)) u.events → (u.res = 0 ∧ u.rval = value) ∨ CutShort s u

/-- R70: every read of the block, on either port, is answered when every earlier write of the block has been observed,
in issue order: the answer is what the register holds after them, where that is known (log 9), unless a reset comes
first. READ and VP_READ_VOLT say the same of a whole command. -/
def Obligations.ReadObservesQueuedWrites : Prop :=
  (∀ (s : State) (port : Port) (a : Addr), aligned a = true →
    (∃ (v : Word) (t : State), targetRead port a s = .ok v t ∧ t.wq = [] ∧
      t.target.seen = s.wq.reverse ++ s.target.seen ∧ ∀ w, t.target.get port a = some w → v = w) ∨
    ∃ t, targetRead port a s = .error .cut t ∧ CutShort s t) ∧
  (∀ (s t : State) (part : PartId) (inst idx : Addr), s.takesCommand → s.MappedPartition part →
    exec (.read part inst idx) s = .next t →
    (t.wq = [] ∧ t.target.seen = s.wq.reverse ++ s.target.seen ∧
      (s.undisturbed → t.script ≠ [] → ∀ w, s.readsAs .mmio (s.effAddr part inst idx) = some w → t.rval = w)) ∨
    CutShort s t) ∧
  (∀ (s t : State) (d : DomId) (vp : Vp) (f : PmicFn), s.takesCommand → s.cfg.readVoltCaps d = some (vp, f) →
    exec (.vpReadVolt d) s = .next t →
    (t.wq = [] ∧ t.target.seen = s.wq.reverse ++ s.target.seen ∧
      (s.undisturbed → t.script ≠ [] → ∀ w, s.readsAs (.dom d) vp.voltage = some w →
        t.rval = f.apply (field w vp.voltVsel))) ∨
    CutShort s t)

/-! ### The reset-line controller (41_resetline) -/

/-- R142 and R141: RST_IS_ASSERTED makes one read and answers bit `shift` of it. -/
def Obligations.IsAssertedTestsTheBit : Prop :=
  ∀ (s : State) (shift : Shift) (part : PartId) (inst off : Addr),
    ThroughPartition (.rstIsAsserted shift part inst off) s part (s.effAddr part inst off) fun t =>
      ∃ v : Word, Answered (.rstIsAsserted shift part inst off) s t .ok
          (if (v >>> shift.toNat) &&& 1#32 = 1#32 then 1 else 0) [.mmioRead (s.effAddr part inst off) v] ∧
        Unchanged s t ∧ OnlyStores s t []

/-- R144: RST_ASSERT reads the control register and writes it back with the one bit set; it always answers OK. -/
def Obligations.AssertSetsTheBit : Prop :=
  ∀ (s : State) (shift : Shift) (part : PartId) (inst off : Addr),
    ThroughPartition (.rstAssert shift part inst off) s part (s.effAddr part inst off) fun t =>
      ∃ v : Word, Answered (.rstAssert shift part inst off) s t .ok 0
          [.mmioWrite (s.effAddr part inst off) (v ||| 1#32 <<< shift.toNat), .mmioRead (s.effAddr part inst off) v] ∧
        Unchanged s t ∧ OnlyStores s t [(.mmio, s.effAddr part inst off)]

/-- R146. RST_DEASSERT. A line whose control bit is 0 is answered ALREADY_DEASSERTED after the one read. Otherwise the
status bit is cleared by writing exactly `1 << shift`, the control bit is cleared with the other bits as read, and the
status register, 4 bytes above, is polled within the budget: OK when the bit is seen set, else BUSY. What is left in EA,
V, M, CNT and OKF (R29, R143); no other working register has a value (R34). That they are kept after the response is the
model's choice (log 35). -/
def Obligations.DeassertProtocol : Prop :=
  ∀ (s : State) (shift : Shift) (part : PartId) (inst off : Addr),
    let i := Instr.rstDeassert shift part inst off
    let ctrl := s.effAddr part inst off
    let st := s.effAddr part inst (off + 4)
    ThroughPartition i s part ctrl fun t =>
      Unchanged s t ∧ ∃ v : Word,
        ((v >>> shift.toNat) &&& 1#32 = 0#32 → Answered i s t .alreadyDeasserted 0 [.mmioRead ctrl v] ∧
          t.work = { ea := some ctrl, v := some v } ∧ OnlyStores s t []) ∧
        ((v >>> shift.toNat) &&& 1#32 = 1#32 → ∃ (stv c : Word) (ok : Bool) (polls : List Event),
          StatusPolls s.cfg st shift ok polls ∧
          Answered i s t (if ok then .ok else .busy) 0
            (polls ++ [.mmioWrite ctrl (c &&& ~~~(1#32 <<< shift.toNat)), .mmioRead ctrl c,
              .mmioWrite st (1#32 <<< shift.toNat), .mmioRead st stv, .mmioRead ctrl v]) ∧
          (∃ last : Word, polls.find? Event.isMmioRead = some (.mmioRead st last) ∧
            t.work = { ea := some st, v := some last, m := some (1#32 <<< shift.toNat), okf := some ok
                       cnt := some (BitVec.ofNat 32 (polls.countP Event.isDelay)) }) ∧
          OnlyStores s t [(.mmio, ctrl), (.mmio, st)])

/-- R147: the event counts of RST_DEASSERT, unless a reset comes first. -/
def Obligations.DeassertEventCounts : Prop :=
  ∀ (s t : State) (shift : Shift) (part : PartId) (inst off : Addr), s.takesCommand → s.MappedPartition part →
    exec (.rstDeassert shift part inst off) s = .next t →
    (∃ es, t.events = es ++ s.events ∧
      let reads := es.countP Event.isMmioRead
      let writes := (writesOf es).length
      let delays := es.countP Event.isDelay
      (t.res = Status.alreadyDeasserted.code → reads = 1 ∧ writes = 0 ∧ delays = 0) ∧
      (t.res = Status.ok.code → ∃ k, 1 ≤ k ∧ k ≤ s.cfg.hardresetBudget.toNat ∧ reads = k + 3 ∧ writes = 2 ∧
        delays = k - 1) ∧
      (t.res = Status.busy.code → reads = s.cfg.hardresetBudget.toNat + 3 ∧ writes = 2 ∧
        delays = s.cfg.hardresetBudget.toNat) ∧
      (t.res = Status.alreadyDeasserted.code ∨ t.res = Status.ok.code ∨ t.res = Status.busy.code)) ∨
    CutShort s t

/-- R150, R148 and R243: WARM_RESET sets the warm bit of the global control register, reads it back and answers (OK, 0)
where no reset of the SoC comes first. Both ends happen: where nobody moves in its four turns, it answers; where the
target observes the write and the SoC resets before the response, nothing is known of ENV's registers and the block is
at its reset values. In that end two fields of `SocResetEnd` are the model's, no words of R243: the reset uses the
request up (log 18), and CMD keeps its words (log 37). -/
def Obligations.WarmResetSequence : Prop :=
  (∀ (s : State), ThroughPartition .warmReset s s.cfg.partPrm s.globalCtrl (WarmAnswers s)) ∧
  (∀ (s : State) (rest : List (List Move)), s.takesCommand → s.MappedPartition s.cfg.partPrm →
    aligned s.globalCtrl = true → s.script = [] :: [] :: [] :: [] :: rest →
    ∃ t, exec .warmReset s = .next t ∧ WarmAnswers s t) ∧
  (∀ (s : State) (keep : List Bool) (rest : List (List Move)), s.mode = .ready → s.cfg.admitted = true →
    s.MappedPartition s.cfg.partPrm → aligned s.globalCtrl = true →
    s.script = [] :: [] :: [.env .observe, .socReset keep] :: rest →
    ∃ (v : Word) (t : State), exec .warmReset s = .next t ∧
      let es : List Event := [.mmioWrite s.globalCtrl (v ||| 1#32 <<< s.cfg.grst.warmBit.toNat),
        .mmioRead s.globalCtrl v]
      SocResetEnd s t es ∧ t.issued = writesOf es ++ s.issued)

/-- R152, R148 and R243: COLD_RESET clears the cold status bit first, sets the cold bit, reads it back, delays by
COLD_SETTLE_US and answers (OK, 0) where no reset of the SoC comes first. Its first access is to the status register;
where that one is aligned and the control register is not, it is refused there (R63; that the refusal comes where the
command reaches the access is log 10). Both ends happen: where nobody moves in its six turns, it answers; where the
target observes the request and the SoC resets before the response, the block is at its reset values. In that end two
fields of `SocResetEnd` are the model's, no words of R243: the reset uses the request up (log 18), and CMD keeps its
words (log 37). -/
def Obligations.ColdResetSequence : Prop :=
  (∀ (s : State), aligned s.globalCtrl = true →
    ThroughPartition .coldReset s s.cfg.partPrm s.globalStatus (ColdAnswers s)) ∧
  (∀ (s : State) (rest : List (List Move)), s.takesCommand → s.MappedPartition s.cfg.partPrm →
    aligned s.globalCtrl = true → aligned s.globalStatus = true →
    s.script = [] :: [] :: [] :: [] :: [] :: [] :: rest → ∃ t, exec .coldReset s = .next t ∧ ColdAnswers s t) ∧
  (∀ (s : State), s.takesCommand → s.MappedPartition s.cfg.partPrm → aligned s.globalCtrl = false →
    Refuses .coldReset s .misaligned) ∧
  (∀ (s : State) (keep : List Bool) (rest : List (List Move)), s.mode = .ready → s.cfg.admitted = true →
    s.MappedPartition s.cfg.partPrm → aligned s.globalCtrl = true → aligned s.globalStatus = true →
    s.script = [] :: [] :: [] :: [.env .observe, .socReset keep] :: rest →
    ∃ (v : Word) (t : State), exec .coldReset s = .next t ∧
      let es : List Event := [.mmioWrite s.globalCtrl (v ||| 1#32 <<< s.cfg.grst.coldBit.toNat),
        .mmioRead s.globalCtrl v, .mmioWrite s.globalStatus (1#32 <<< s.cfg.grst.coldStBit.toNat)]
      SocResetEnd s t es ∧ t.issued = writesOf es ++ s.issued)

/-! ### The Voltage Processor (42_vp) -/

/-- R164: VP_READ_VOLT reads the voltage register and answers the selector field converted to microvolts; with a
capability missing it logs a configuration error and answers the sentinel 0; at a misaligned address it is refused
(R63). -/
def Obligations.ReadVoltConvertsTheSelector : Prop :=
  ∀ (s : State) (d : DomId), s.takesCommand →
    (∀ dom vp pmic f, HasDomain s.cfg d dom → dom.vp = some vp → dom.hasRead = true → dom.pmic = some pmic →
      pmic.vselToUv = some f →
      (aligned vp.voltage = true →
        Completes (.vpReadVolt d) s fun t => ∃ v : Word,
          Answered (.vpReadVolt d) s t .ok (f.apply ((v &&& vp.voltVsel) >>> lsb vp.voltVsel))
            [.domRead d vp.voltage v] ∧
          Unchanged s t ∧ t.wq = [] ∧ OnlyStores s t []) ∧
      (aligned vp.voltage = false → exec (.vpReadVolt d) s = .refused .misaligned)) ∧
    ((¬∃ dom vp pmic f, HasDomain s.cfg d dom ∧ dom.vp = some vp ∧ dom.hasRead = true ∧ dom.pmic = some pmic ∧
        pmic.vselToUv = some f) →
      Completes (.vpReadVolt d) s fun t => Answered (.vpReadVolt d) s t .ok 0 [.log .configError d] ∧
        Unchanged s t ∧ OnlyStores s t [])

/-- R166: VP_INIT clears VPEN[d] and writes the configuration, step-min, step-max and limit registers whole, in this
order, with no read; in an admitted configuration every value fits its field (R56). A register at a misaligned address
is refused (R63); with a dependency missing it logs a configuration error and changes nothing. A configuration in which
one of the values does not fit is not admitted, and every command is refused (R13, R56). -/
def Obligations.InitWritesFourRegisters : Prop :=
  (∀ (s : State) (d : DomId), s.takesCommand →
    (∀ dom pmic vp vc vpp f g, HasDomain s.cfg d dom → dom.pmic = some pmic → pmic.uvToVsel = some f →
      pmic.vselToUv = some g → dom.hasRead = true → dom.hasWrite = true → dom.vp = some vp → dom.vcParam = some vc →
      dom.vpParam = some vpp →
      let x := s.cfg.initValues ⟨dom, vp, pmic, f, vc, vpp⟩
      (aligned vp.vpconfig = true → aligned vp.vstepmin = true → aligned vp.vstepmax = true →
        aligned vp.vlimitto = true →
        ∃ off w1 s1 w2 s2 hi lo tmo : Word, place pmic.erroroffset vp.cfgErroroffset = some off ∧
          place x.wait vp.sminWait = some w1 ∧ place pmic.vstepmin vp.sminStep = some s1 ∧
          place x.wait vp.smaxWait = some w2 ∧ place pmic.vstepmax vp.smaxStep = some s2 ∧
          place x.vmax.toNat vp.limVddmax = some hi ∧ place x.vmin.toNat vp.limVddmin = some lo ∧
          place x.tmo vp.limTimeout = some tmo ∧
          Completes (.vpInit d) s fun t =>
          Answered (.vpInit d) s t .ok 0
            [.domWrite d vp.vlimitto (hi ||| lo ||| tmo), .domWrite d vp.vstepmax (w2 ||| s2),
              .domWrite d vp.vstepmin (w1 ||| s1), .domWrite d vp.vpconfig (off ||| vp.cfgTimeouten)] ∧
          Unchanged { s with vpen := s.vpen.set d.toNat false } t ∧
          OnlyStores s t [(.dom d, vp.vpconfig), (.dom d, vp.vstepmin), (.dom d, vp.vstepmax),
            (.dom d, vp.vlimitto)]) ∧
      (aligned vp.vpconfig = false ∨ aligned vp.vstepmin = false ∨ aligned vp.vstepmax = false ∨
          aligned vp.vlimitto = false →
        Refuses (.vpInit d) s .misaligned)) ∧
    ((¬∃ dom pmic vp vc vpp f g, HasDomain s.cfg d dom ∧ dom.pmic = some pmic ∧ pmic.uvToVsel = some f ∧
        pmic.vselToUv = some g ∧ dom.hasRead = true ∧ dom.hasWrite = true ∧ dom.vp = some vp ∧
        dom.vcParam = some vc ∧ dom.vpParam = some vpp) →
      Completes (.vpInit d) s fun t => Answered (.vpInit d) s t .ok 0 [.log .configError d] ∧ Unchanged s t ∧
        OnlyStores s t [])) ∧
  (∀ (s : State) (d : DomId) (i : Instr) (dom : Dom) (pmic : Pmic) (vp : Vp) (vc : VcParam) (vpp : VpParam)
    (f g : PmicFn), s.mode = .ready → HasDomain s.cfg d dom → dom.pmic = some pmic → pmic.uvToVsel = some f →
    pmic.vselToUv = some g → dom.hasRead = true → dom.hasWrite = true → dom.vp = some vp → dom.vcParam = some vc →
    dom.vpParam = some vpp →
    let x := s.cfg.initValues ⟨dom, vp, pmic, f, vc, vpp⟩
    (place pmic.erroroffset vp.cfgErroroffset = none ∨ place x.wait vp.sminWait = none ∨
      place pmic.vstepmin vp.sminStep = none ∨ place x.wait vp.smaxWait = none ∨
      place pmic.vstepmax vp.smaxStep = none ∨ place x.vmax.toNat vp.limVddmax = none ∨
      place x.vmin.toNat vp.limVddmin = none ∨ place x.tmo vp.limTimeout = none) →
    exec i s = .refused .configNotAdmitted)

/-- R165: the timeout and wait cycles (the wait rounded up) and the clamped selector bounds. -/
def Obligations.InitValuesFormulas : Prop :=
  ∀ (c : Config) (k : InitCaps), c.initFormulas = .r165 → 1 ≤ k.pmic.slewRate →
    let khz := k.dom.clkRate / 1000
    let x := c.initValues k
    x.tmo = khz * k.pmic.timeoutUs / 1000 ∧
    (k.pmic.stepSize * khz ≤ x.wait * (1000 * k.pmic.slewRate) ∧
      ∀ w, k.pmic.stepSize * khz ≤ w * (1000 * k.pmic.slewRate) → x.wait ≤ w) ∧
    (∃ lo hi : Word, x.vmin = k.uvToVsel.apply lo ∧ x.vmax = k.uvToVsel.apply hi ∧
      lo.toNat = max (max k.vpParam.vddmin.toNat k.pmic.vddmin.toNat) k.vcParam.ret.toNat ∧
      hi.toNat = min k.vpParam.vddmax.toNat k.pmic.vddmax.toNat)

/-- R167: VP_TXDONE calls `check_txdone` once and answers 1 or 0; a domain without a VP is refused (R180). -/
def Obligations.TxdoneAsksTheCallback : Prop :=
  ∀ (s : State) (d : DomId), s.takesCommand →
    (∀ dom vp, HasDomain s.cfg d dom → dom.vp = some vp →
      Completes (.vpTxdone d) s fun t => ∃ b : Bool,
        Answered (.vpTxdone d) s t .ok (if b then 1 else 0) [.call (.checkTxdone vp.id b)] ∧ Unchanged s t ∧
        OnlyStores s t []) ∧
    ((¬∃ dom vp, HasDomain s.cfg d dom ∧ dom.vp = some vp) → exec (.vpTxdone d) s = .refused .missingCapability)

/-- R168: VP_TXCLR calls `clear_txdone` once; a domain without a VP is refused (R180). -/
def Obligations.TxclrCallsTheCallback : Prop :=
  ∀ (s : State) (d : DomId), s.takesCommand →
    (∀ dom vp, HasDomain s.cfg d dom → dom.vp = some vp →
      Completes (.vpTxclr d) s fun t =>
        Answered (.vpTxclr d) s t .ok 0 [.call (.clearTxdone vp.id)] ∧ Unchanged s t ∧ OnlyStores s t []) ∧
    ((¬∃ dom vp, HasDomain s.cfg d dom ∧ dom.vp = some vp) → exec (.vpTxclr d) s = .refused .missingCapability)

/-- R169: VP_ERRGAIN is one read-modify-write of the error-gain field through the optional accessor, the register's
other bits as read; where the contents are known and nobody else moves, what is read is what is known (R66): this is the
model's ENV (log 9). Without a VP, the
accessor or a target descriptor it answers INVALID_ARGUMENT, no event. A gain that does not fit its field is refused
where it is placed: R13 and R56 refuse the configuration, and the model tests the operand (log 11). A misaligned
configuration register is refused (R63). -/
def Obligations.ErrgainUpdatesTheField : Prop :=
  ∀ (s : State) (d : DomId), s.takesCommand →
    (∀ dom vp td, HasDomain s.cfg d dom → dom.vp = some vp → dom.hasRmw = true →
      (∀ gain, place td.errgain.toNat vp.cfgErrorgain = some gain →
        (aligned vp.vpconfig = true →
          Completes (.vpErrgain d (some td)) s fun t => ∃ old : Word,
            Answered (.vpErrgain d (some td)) s t .ok 0
              [.domRmw d vp.vpconfig vp.cfgErrorgain gain ((old &&& ~~~vp.cfgErrorgain) ||| gain)] ∧
            Unchanged s t ∧ OnlyStores s t [(.dom d, vp.vpconfig)] ∧
            (s.undisturbed → t.script ≠ [] → ∀ w, s.readsAs (.dom d) vp.vpconfig = some w → old = w)) ∧
        (aligned vp.vpconfig = false → exec (.vpErrgain d (some td)) s = .refused .misaligned)) ∧
      (place td.errgain.toNat vp.cfgErrorgain = none → exec (.vpErrgain d (some td)) s = .refused .fieldOverflow)) ∧
    (∀ td, (td = none ∨ ¬∃ dom vp, HasDomain s.cfg d dom ∧ dom.vp = some vp ∧ dom.hasRmw = true) →
      Completes (.vpErrgain d td) s fun t => Answered (.vpErrgain d td) s t .invalidArgument 0 [] ∧
        Unchanged s t ∧ OnlyStores s t [])

/-- R170 (steps S0, S1) and R171: VP_SCALE with an invalid argument touches no hardware and logs nothing; a domain that
lacks what the command relies on is refused (R180). -/
def Obligations.ScaleChecksItsArguments : Prop :=
  ∀ (s : State) (d : DomId) (td : Option TD), s.takesCommand →
    ((td = none ∨ ¬∃ dom vp, HasDomain s.cfg d dom ∧ dom.hasWrite = true ∧ dom.vp = some vp) →
      Completes (.vpScale d td) s fun t => Answered (.vpScale d td) s t .invalidArgument 0 [] ∧
        Unchanged { s with vpstate := .failed .invalidArgument } t ∧ OnlyStores s t []) ∧
    (∀ dom vp, td ≠ none → HasDomain s.cfg d dom → dom.hasWrite = true → dom.vp = some vp →
      (¬∃ pmic f, dom.hasRead = true ∧ dom.pmic = some pmic ∧ pmic.uvToVsel = some f) →
      exec (.vpScale d td) s = .refused .missingCapability)

/-- R170 to R175: VP_SCALE of a valid domain ends in one of four ways, each with exactly these events, counters, VPSTATE
and stores: the idle wait times out; the pre-scale hook fails; the pre-clear times out, none of which stores anything;
or the scale completes, whether or not the transaction-done wait and the cleanup clear succeeded, and the configuration
register is restored to CFG. HOST's prepared answer, if there is one, is the hook's answer (log 21). A misaligned status
register is refused at the idle wait, and a misaligned configuration register, or a selector that does not fit its
field, where the command comes to step 5 (R63, R13; log 10, log 11). A reset may come first (R242, R243). -/
def Obligations.ScaleRunsTheProtocol : Prop :=
  ∀ (s : State) (d : DomId) (td : TD) (dom : Dom) (vp : Vp) (pmic : Pmic) (f : PmicFn),
    s.takesCommand → HasDomain s.cfg d dom → dom.hasWrite = true → dom.vp = some vp → dom.hasRead = true →
    dom.pmic = some pmic → pmic.uvToVsel = some f →
    let i := Instr.vpScale d (some td)
    let volt := s.cfg.operationVoltage td
    let placed := place (f.apply volt).toNat vp.cfgInitvoltage
    (aligned vp.vstatus = false → exec i s = .refused .misaligned) ∧
    (aligned vp.vstatus = true →
      (∃ (t : State) (wait : List Event), exec i s = .next t ∧ IdleWait s.cfg d vp false wait ∧
        Answered i s t .timeout 0 (s.reportTrace d dom vp ++ wait) ∧
        Unchanged { s.reported dom with vpstate := .failed .timeout } t ∧ OnlyStores s t []) ∨
      (∃ (t : State) (wait : List Event) (e : Word) (host : HostAnswers), exec i s = .next t ∧
        IdleWait s.cfg d vp true wait ∧ s.host.PreScaleGives (.err e) host ∧
        Answered i s t .hookError e (.call (.preScale d volt td (.err e)) :: wait) ∧
        Unchanged { s with vpstate := .failed .hookError, host := host } t ∧ OnlyStores s t []) ∨
      (∃ (t : State) (wait : List Event) (tsel csel : Word) (host : HostAnswers) (clear : List Event),
        exec i s = .next t ∧ IdleWait s.cfg d vp true wait ∧ s.host.PreScaleGives (.ok tsel csel) host ∧
        ClearTrace s.cfg vp false clear ∧
        Answered i s t .timeout 0
          (s.reportTrace d dom vp ++ clear ++ .call (.preScale d volt td (.ok tsel csel)) :: wait) ∧
        Unchanged { s.reported dom with vpstate := .failed .timeout, host := host } t ∧ OnlyStores s t []) ∨
      (∃ (t : State) (wait : List Event) (tsel csel : Word) (host : HostAnswers) (clear : List Event) (sel v : Word)
          (done : Bool) (tx : List Event) (cleared : Bool) (clear' : List Event),
        aligned vp.vpconfig = true ∧ placed = some sel ∧
        exec i s = .next t ∧ IdleWait s.cfg d vp true wait ∧ s.host.PreScaleGives (.ok tsel csel) host ∧
        ClearTrace s.cfg vp true clear ∧ TxWait s.cfg vp done tx ∧ ClearTrace s.cfg vp cleared clear' ∧
        Answered i s t .ok 0
          (.domWrite d vp.vpconfig (pulseValue vp v sel) ::
            (s.reportedUnless done dom).reportUnlessTrace cleared d dom vp ++ clear' ++
            .call (.postScale d volt td tsel csel) :: s.reportUnlessTrace done d dom vp ++ tx ++
            .domWrite d vp.vpconfig (pulseValue vp v sel ||| vp.cfgForceupdate) :: pulseTrace d vp v sel ++
            clear ++ .call (.preScale d volt td (.ok tsel csel)) :: wait) ∧
        Unchanged { (s.reportedUnless done dom).reportedUnless cleared dom with vpstate := .idle, host := host } t ∧
        OnlyStores s t [(.dom d, vp.vpconfig)]) ∨
      (aligned vp.vpconfig = false ∧ exec i s = .refused .misaligned) ∨
      (aligned vp.vpconfig = true ∧ placed = none ∧ exec i s = .refused .fieldOverflow) ∨
      ∃ t, exec i s = .next t ∧ CutShort s t)

/-- R170 to R173 and the testable property S5 of the source, for the model's ENV: with the idle bit known to be set, a
pre-scale hook that is going to answer (TSEL, CSEL), and no other agent moving before step 5, VP_SCALE answers OK
whatever the others do from then on (short of a reset): it calls the post-scale hook exactly once, with the target
voltage and the hook's own selectors, and writes the configuration register exactly five times, the pulse, the force
update and the restore. That the idle bit is found as known (log 9), and that a check right after a clear answers false
where no agent moves (log 22; U2 lets it answer anything), are the model's choices. -/
def Obligations.ScaleCompletes : Prop :=
  ∀ (s : State) (d : DomId) (td : TD) (dom : Dom) (vp : Vp) (pmic : Pmic) (f : PmicFn) (sel w tsel csel : Word)
    (answers : List PreScaleResult) (moves : List (List Move)),
    s.takesCommand → HasDomain s.cfg d dom → dom.hasWrite = true → dom.vp = some vp → dom.hasRead = true →
    dom.pmic = some pmic → pmic.uvToVsel = some f → aligned vp.vstatus = true → aligned vp.vpconfig = true →
    place (f.apply (s.cfg.operationVoltage td)).toNat vp.cfgInitvoltage = some sel →
    s.readsAs (.dom d) vp.vstatus = some w → w &&& vp.stIdle ≠ 0 → s.host.preScale = .ok tsel csel :: answers →
    s.script = [] :: [] :: [] :: [] :: moves →
    Completes (.vpScale d (some td)) s fun t => ∃ (es : List Event) (v : Word),
      Answered (.vpScale d (some td)) s t .ok 0 es ∧ t.vpstate = .idle ∧
      es.filter Event.isPostScale = [.call (.postScale d (s.cfg.operationVoltage td) td tsel csel)] ∧
      writesOf es = [⟨.dom d, vp.vpconfig, pulseValue vp v sel⟩,
        ⟨.dom d, vp.vpconfig, pulseValue vp v sel ||| vp.cfgForceupdate⟩,
        ⟨.dom d, vp.vpconfig, pulseValue vp v sel⟩,
        ⟨.dom d, vp.vpconfig, pulseValue vp v sel ||| vp.cfgInitvdd⟩,
        ⟨.dom d, vp.vpconfig, pulseValue vp v sel⟩]

/-- R176: VP_ENABLE. With a capability missing it logs and does nothing; an enabled VP is left alone, no event;
otherwise the lookup is asked once (HOST's prepared answer, if there is one, log 21): no descriptor is logged, and a
descriptor is written as the three-write pulse followed by one write that sets the enable bit, and VPEN[d] becomes 1. A
misaligned configuration register is refused there (R63), and so is a selector that does not fit (R13; log 11). -/
def Obligations.EnableArmsTheVp : Prop :=
  ∀ (s : State) (d : DomId), s.takesCommand →
    (∀ dom vp pmic f, HasDomain s.cfg d dom → dom.vp = some vp → dom.hasRead = true → dom.hasWrite = true →
      dom.pmic = some pmic → pmic.uvToVsel = some f →
      (s.vpenOf d = true → Completes (.vpEnable d) s fun t => Answered (.vpEnable d) s t .ok 0 [] ∧
        Unchanged s t ∧ OnlyStores s t []) ∧
      (s.vpenOf d = false → ∃ (r : Option TD) (host : HostAnswers), s.host.LookupGives r host ∧
        (r = none → Completes (.vpEnable d) s fun t =>
          Answered (.vpEnable d) s t .ok 0 [.log .configError d, .call (.getCurrentVoltageData d none)] ∧
          Unchanged { s with host := host } t ∧ OnlyStores s t []) ∧
        (∀ td, r = some td →
          let placed := place (f.apply (s.cfg.operationVoltage td)).toNat vp.cfgInitvoltage
          (aligned vp.vpconfig = true → ∀ sel, placed = some sel →
            Completes (.vpEnable d) s fun t => ∃ v : Word,
              Answered (.vpEnable d) s t .ok 0
                (.domWrite d vp.vpconfig (pulseValue vp v sel ||| vp.cfgVpenable) :: pulseTrace d vp v sel ++
                  [.call (.getCurrentVoltageData d (some td))]) ∧
              Unchanged { s with vpen := s.vpen.set d.toNat true, host := host } t ∧
              OnlyStores s t [(.dom d, vp.vpconfig)]) ∧
          (aligned vp.vpconfig = true → placed = none → Refuses (.vpEnable d) s .fieldOverflow) ∧
          (aligned vp.vpconfig = false → Refuses (.vpEnable d) s .misaligned)))) ∧
    ((¬∃ dom vp pmic f, HasDomain s.cfg d dom ∧ dom.vp = some vp ∧ dom.hasRead = true ∧ dom.hasWrite = true ∧
        dom.pmic = some pmic ∧ pmic.uvToVsel = some f) →
      Completes (.vpEnable d) s fun t => Answered (.vpEnable d) s t .ok 0 [.log .configError d] ∧
        Unchanged s t ∧ OnlyStores s t [])

/-- R177: after a VP_ENABLE that armed the VP, a second one performs no event but its response, and the VP is still
enabled. -/
def Obligations.EnableTwiceWritesOnce : Prop :=
  ∀ (s t : State) (d : DomId), s.takesCommand → exec (.vpEnable d) s = .next t → s.cfg.enableCaps d ≠ none →
    t.vpenOf d = true →
    Completes (.vpEnable d) t fun u => u.events = .respond .ok 0 :: t.events ∧ u.vpenOf d = true

/-- R178: VP_DISABLE. With a capability missing it logs and does nothing; a disabled VP is warned about; otherwise the
enable bit is cleared by one read and one write between two idle waits, each reported and passed over when it times
out, and VPEN[d] becomes 0. A misaligned status or configuration register is refused where it is reached (R63). -/
def Obligations.DisableDisarmsTheVp : Prop :=
  ∀ (s : State) (d : DomId), s.takesCommand →
    (∀ dom vp, HasDomain s.cfg d dom → dom.vp = some vp → dom.hasRead = true → dom.hasWrite = true →
      (s.vpenOf d = false → Completes (.vpDisable d) s fun t =>
        Answered (.vpDisable d) s t .ok 0 [.log .warnAlreadyDisabled d] ∧ Unchanged s t ∧ OnlyStores s t []) ∧
      (s.vpenOf d = true → aligned vp.vstatus = true → aligned vp.vpconfig = true →
        Completes (.vpDisable d) s fun t =>
        ∃ (idle : Bool) (wait : List Event) (v : Word) (idle' : Bool) (wait' : List Event),
        IdleWait s.cfg d vp idle wait ∧ IdleWait s.cfg d vp idle' wait' ∧
        Answered (.vpDisable d) s t .ok 0
          ((s.reportedUnless idle dom).reportUnlessTrace idle' d dom vp ++ wait' ++
            .domWrite d vp.vpconfig (v &&& ~~~vp.cfgVpenable) :: .domRead d vp.vpconfig v ::
            s.reportUnlessTrace idle d dom vp ++ wait) ∧
        Unchanged { (s.reportedUnless idle dom).reportedUnless idle' dom with
          vpen := s.vpen.set d.toNat false } t ∧
        OnlyStores s t [(.dom d, vp.vpconfig)]) ∧
      (s.vpenOf d = true → aligned vp.vstatus = false ∨ aligned vp.vpconfig = false →
        Refuses (.vpDisable d) s .misaligned)) ∧
    ((¬∃ dom vp, HasDomain s.cfg d dom ∧ dom.vp = some vp ∧ dom.hasRead = true ∧ dom.hasWrite = true) →
      Completes (.vpDisable d) s fun t => Answered (.vpDisable d) s t .ok 0 [.log .configError d] ∧
        Unchanged s t ∧ OnlyStores s t [])

/-- R78 with R163 and R164: a VP_SCALE that saw its transaction done, then VP_READ_VOLT: on a VP that shows the
selector it ramped to, the answer is the target voltage converted to a selector and back, unless a reset comes first. -/
def Obligations.ReadVoltAfterScale : Prop :=
  ∀ (s t u : State) (d : DomId) (td : TD) (dom : Dom) (vp : Vp) (pmic : Pmic) (f g : PmicFn), s.takesCommand →
    HasDomain s.cfg d dom → dom.vp = some vp → dom.pmic = some pmic → pmic.uvToVsel = some f →
    pmic.vselToUv = some g →
    exec (.vpScale d (some td)) s = .next t → t.res = Status.ok.code → rampedSelector d vp false t.events ≠ none →
    exec (.vpReadVolt d) t = .next u → showsRampedSelector d vp u.events →
    (u.res = Status.ok.code ∧ u.rval = g.apply (f.apply (s.cfg.operationVoltage td))) ∨ CutShort s u

/-! ### The error/recovery path (43_error_recovery) -/

/-- R200 to R202: one invocation of `ReportError`, unless a reset comes first. -/
def Obligations.ReportErrorOnce : Prop :=
  ∀ (s : State) (d : DomId) (dom : Dom) (vp : Vp),
    (∃ t, reportError d dom vp s = .ok () t ∧
      t.msgCnt = (if s.msgCnt = 0 then 0 else s.msgCnt - 1) ∧
      t.recCnt = (if dom.hasRecover then (if s.recCnt - 1 = 0 then s.cfg.n2 else s.recCnt - 1) else s.recCnt) ∧
      t.events = (if dom.hasRecover = true ∧ s.recCnt - 1 = 0 then [.call (.recover vp.id)] else []) ++
        .log (if s.msgCnt ≠ 0 then .errFull else .errRateLimited) d :: s.events ∧
      t.base = s.base ∧ t.vpen = s.vpen ∧ t.mode = s.mode ∧ t.vpstate = s.vpstate ∧ t.cfg = s.cfg ∧
      t.latch = s.latch) ∨
    ∃ t, reportError d dom vp s = .error .cut t ∧ CutShort s t

/-- R204: the counting law, for any sequence of invocations from the reset values of the counters: `n` of them for
domains with a recovery callback, `n'` in all. A reset on the way leaves the counters at these values again (R240). -/
def Obligations.CountingLaw : Prop :=
  ∀ (s : State) (calls : List (DomId × Dom × Vp)), s.cfg.n2 ≠ 0 → s.recCnt = s.cfg.n2 → s.msgCnt = s.cfg.n1 →
    let n := calls.countP (fun c => c.2.1.hasRecover)
    let n' := calls.length
    (∃ t es, reportAll calls s = .ok () t ∧ t.events = es ++ s.events ∧
      es.countP Event.isRecover = n / s.cfg.n2 ∧
      t.recCnt = s.cfg.n2 - n % s.cfg.n2 ∧
      t.msgCnt = s.cfg.n1 - n' ∧
      es.countP Event.isFullLog = min s.cfg.n1 n') ∨
    ∃ t, reportAll calls s = .error .cut t ∧ CutShort s t ∧ t.recCnt = s.cfg.n2 ∧ t.msgCnt = s.cfg.n1

/-- R205: MSG and REC change only in VP_SCALE and VP_DISABLE (or by a reset). -/
def Obligations.CountersOnlyThroughReport : Prop :=
  ∀ (i : Instr) (s t : State), exec i s = .next t → (∀ d td, i ≠ .vpScale d td) → (∀ d, i ≠ .vpDisable d) →
    (t.msgCnt = s.msgCnt ∧ t.recCnt = s.recCnt) ∨ ResetSince s t

/-! ### The whole machine -/

/-- R100 and R242: a command ends in exactly one of three ways: one response, its last event; FATAL, with no event at
all; or cut by a reset, with no response and every element of R39 at its reset value. Where no reset was coming, the
command itself asked for it (R243). -/
def Obligations.OneResponsePerCommand : Prop :=
  ∀ (i : Instr) (s t : State), exec i s = .next t →
    (∃ st v es, t.events = .respond st v :: es ++ s.events ∧ t.res = st.code ∧ t.rval = v ∧ t.mode = .ready ∧
      ∀ e ∈ es, e.isResponse = false ∧ e.isReset = false) ∨
    (t.mode = .fatal ∧ t.events = s.events) ∨
    (CutShort s t ∧ (∃ es, t.events = es ++ s.events ∧ ∀ e ∈ es, e.isResponse = false) ∧ t.mode = .ready ∧
      t.base = List.replicate s.cfg.npart 0 ∧ t.vpen = List.replicate s.cfg.doms.length false ∧
      t.msgCnt = s.cfg.n1 ∧ t.recCnt = s.cfg.n2 ∧ t.vpstate = .idle ∧ t.wq = [] ∧ t.phase = none ∧ t.work = {})

/-- R27: PHASE holds, at each event, the label of the line that produces it: RMW and COLD_RESET, event by event, unless
a reset comes first. -/
def Obligations.PhaseNamesTheLine : Prop :=
  ∀ (s : State), s.takesCommand →
    (∀ (mask bits : Word) (part : PartId) (inst idx : Addr) (t : State),
      exec (.rmw mask bits part inst idx) s = .next t → t.mode = .ready →
      (∃ old new : Word, t.hist =
        (some ⟨.RM2, none⟩, .respond .ok new) ::
        (some ⟨.RM1, none⟩, .mmioWrite (s.effAddr part inst idx) new) ::
        (some ⟨.RM1, none⟩, .mmioRead (s.effAddr part inst idx) old) :: s.hist) ∨ CutShort s t) ∧
    (∀ t : State, exec .coldReset s = .next t → t.mode = .ready →
      (∃ v v' : Word, t.hist =
        (some ⟨.CD6, none⟩, .respond .ok 0) ::
        (some ⟨.CD5, none⟩, .delay s.cfg.coldSettleUs) ::
        (some ⟨.CD4, none⟩, .mmioRead s.globalCtrl v') ::
        (some ⟨.CD3, none⟩, .mmioWrite s.globalCtrl (v ||| 1#32 <<< s.cfg.grst.coldBit.toNat)) ::
        (some ⟨.CD2, none⟩, .mmioRead s.globalCtrl v) ::
        (some ⟨.CD1, none⟩, .mmioWrite s.globalStatus (1#32 <<< s.cfg.grst.coldStBit.toNat)) :: s.hist) ∨
      CutShort s t)

/-- R40 and R20: the configuration is constant for the life of the block; in a configuration that is not admitted every
command is refused (R56). Beside R56's own conditions the model admits one command context only (log 23), VP register
addresses of AW bits (log 6) and a SOC_VARIANT among the variants listed (log 13): these are its choices, no rule of
the spec. -/
def Obligations.ConfigurationIsConstant : Prop :=
  (∀ s t : State, step s = .next t → t.cfg = s.cfg) ∧
  (∀ (i : Instr) (s : State), s.mode = .ready → s.cfg.admitted = false → exec i s = .refused .configNotAdmitted)

/-- R21: BASE is written only by INIT_BASES (or by a reset). -/
def Obligations.BaseWrittenOnlyByInitBases : Prop :=
  ∀ (i : Instr) (s t : State), exec i s = .next t → (∀ bases, i ≠ .initBases bases) →
    t.base = s.base ∨ ResetSince s t

/-- R22 and R33: VPEN[d] is written only by VP_INIT and VP_DISABLE, to 0, and by VP_ENABLE, to 1, for their own domain
(or by a reset). -/
def Obligations.VpenWrittenOnlyByItsCommands : Prop :=
  ∀ (i : Instr) (s t : State), exec i s = .next t →
    t.vpen = s.vpen ∨ ResetSince s t ∨
    (∃ d, (i = .vpInit d ∨ i = .vpDisable d) ∧ t.vpen = s.vpen.set d.toNat false) ∨
    (∃ d, i = .vpEnable d ∧ t.vpen = s.vpen.set d.toNat true)

/-- R26: VPSTATE is written only by VP_SCALE (or by a reset), and a VP_SCALE that answers leaves Idle exactly when it
answers OK. -/
def Obligations.VpstateWrittenOnlyByScale : Prop :=
  ∀ (i : Instr) (s t : State), exec i s = .next t → ResetSince s t ∨
    ((∀ d td, i ≠ .vpScale d td) ∧ t.vpstate = s.vpstate) ∨
    ((∃ d td, i = .vpScale d td) ∧ (t.vpstate = .idle ↔ t.res = Status.ok.code))

/-! ### Invariants every step keeps -/

/-- R21, R22: BASE has NPART entries and VPEN has NDOM, for ever. -/
def Obligations.RegisterFilesKeepTheirSize : Prop :=
  ∀ s t : State, s.filesFit → step s = .next t → t.filesFit

/-- R24, R23, R207: between steps REC is in 1 .. N2 and MSG is at most N1. -/
def Obligations.CountersStayInRange : Prop :=
  ∀ s t : State, s.countersInRange → step s = .next t → t.countersInRange

/-- The model's memory keeps its canonical form (log 9). -/
def Obligations.TargetStaysCanonical : Prop :=
  ∀ s t : State, s.target.wf = true → step s = .next t → t.target.wf = true

/-- R69 and R73: the target sees the block's writes in issue order, each at most once, and the queue holds later ones.
Where no reset comes, none is lost: the writes among the events of a step, or of any command, are exactly those that
entered WQ, at its young end. -/
def Obligations.WritesSeenInIssueOrder : Prop :=
  (∀ s t : State, s.writesInOrder → step s = .next t → t.writesInOrder) ∧
  (∀ s t : State, step s = .next t → ¬ResetSince s t →
    ∃ es, t.events = es ++ s.events ∧ t.issued = writesOf es ++ s.issued) ∧
  (∀ (i : Instr) (s t : State), exec i s = .next t → ¬ResetSince s t →
    ∃ es, t.events = es ++ s.events ∧ t.issued = writesOf es ++ s.issued)

/-- The model's step size: a command runs whole within one step (log 1), so no step leaves one in progress (log 14), and
PHASE has no value then (R25, R27; log 7). Between steps a run has ended (R19) exactly when MODE is READY and WQ is
empty. These are the model's choices, not rules of the spec. -/
def Obligations.NoCommandBetweenSteps : Prop :=
  ∀ s t : State, s.sequencerIdle → step s = .next t →
    t.sequencerIdle ∧ (t.runEnded ↔ t.mode = .ready ∧ t.wq = [])

/-- R79 and R243: the SoC resets only after the target observed a global reset request. A request is a write of the block
that sets the warm or the cold bit at the address of the global reset-control register, as BASE has it when the write
is issued: every request among the writes queued or observed after a step was there before it, or is such a write of
this step. That a request of another master is none is the model's choice (log 18). -/
def Obligations.GlobalResetWasRequested : Prop :=
  ∀ s t : State, step s = .next t →
    (s.resetWasRequested → t.resetWasRequested) ∧
    (∀ e ∈ t.wq ++ t.target.seen, e.request = true → e ∈ s.wq ++ s.target.seen ∨
      (∃ es, t.events = es ++ s.events ∧ .mmioWrite e.addr e.value ∈ es ∧ e.port = .mmio ∧
        s.baseOf s.cfg.partPrm ≠ 0 ∧ e.addr = s.effAddr s.cfg.partPrm s.cfg.globalInst s.cfg.grst.ctrl ∧
        ((e.value >>> s.cfg.grst.warmBit.toNat) &&& 1#32 = 1#32 ∨
          (e.value >>> s.cfg.grst.coldBit.toNat) &&& 1#32 = 1#32)))

/-- Every invariant above holds of the reset state of every configuration with N2 >= 1 (R56), and so of the model's own
reset state, whose configuration is EX1 (log 5). -/
def Obligations.ResetMeetsTheInvariants : Prop :=
  (∀ c : Config, c.n2 ≠ 0 →
    (State.atReset c).filesFit ∧ (State.atReset c).countersInRange ∧ (State.atReset c).target.wf = true ∧
      (State.atReset c).writesInOrder ∧ (State.atReset c).sequencerIdle ∧ (State.atReset c).resetWasRequested) ∧
  State.reset.filesFit ∧ State.reset.countersInRange ∧ State.reset.target.wf = true ∧ State.reset.writesInOrder ∧
    State.reset.sequencerIdle ∧ State.reset.resetWasRequested
end

