-- ==== Sys2Proof/Laws/State.lean ====
section
/-! SUPPORT. What the named updates of State do to each field, one lemma per field and update. -/

namespace Sys2Proof.Machine

section Accept
variable (s : State) (i : Instr)
@[simp] theorem accept_base : (s.accept i).base = s.base := rfl
@[simp] theorem accept_vpen : (s.accept i).vpen = s.vpen := rfl
@[simp] theorem accept_msgCnt : (s.accept i).msgCnt = s.msgCnt := rfl
@[simp] theorem accept_recCnt : (s.accept i).recCnt = s.recCnt := rfl
@[simp] theorem accept_mode : (s.accept i).mode = .busy := rfl
@[simp] theorem accept_vpstate : (s.accept i).vpstate = s.vpstate := rfl
@[simp] theorem accept_phase : (s.accept i).phase = s.phase := rfl
@[simp] theorem accept_latch : (s.accept i).latch = latchOf i := rfl
@[simp] theorem accept_work : (s.accept i).work = {} := rfl
@[simp] theorem accept_res : (s.accept i).res = s.res := rfl
@[simp] theorem accept_rval : (s.accept i).rval = s.rval := rfl
@[simp] theorem accept_wq : (s.accept i).wq = s.wq := rfl
@[simp] theorem accept_cfg : (s.accept i).cfg = s.cfg := rfl
@[simp] theorem accept_cmd : (s.accept i).cmd = s.cmd := rfl
@[simp] theorem accept_resetPin : (s.accept i).resetPin = s.resetPin := rfl
@[simp] theorem accept_script : (s.accept i).script = s.script := rfl
@[simp] theorem accept_freeResets : (s.accept i).freeResets = s.freeResets := rfl
@[simp] theorem accept_host : (s.accept i).host = s.host := rfl
@[simp] theorem accept_target : (s.accept i).target = s.target := rfl
@[simp] theorem accept_tick : (s.accept i).tick = s.tick := rfl
@[simp] theorem accept_hist : (s.accept i).hist = s.hist := rfl
@[simp] theorem accept_events : (s.accept i).events = s.events := rfl
end Accept

section WithBases
variable (s : State) (bases : List Addr)
@[simp] theorem withBases_base :
    (s.withBases bases).base = (List.range s.cfg.npart).map (fun p => s.cfg.wrap (bases.getD p 0)) := rfl
@[simp] theorem withBases_vpen : (s.withBases bases).vpen = s.vpen := rfl
@[simp] theorem withBases_msgCnt : (s.withBases bases).msgCnt = s.msgCnt := rfl
@[simp] theorem withBases_recCnt : (s.withBases bases).recCnt = s.recCnt := rfl
@[simp] theorem withBases_mode : (s.withBases bases).mode = s.mode := rfl
@[simp] theorem withBases_vpstate : (s.withBases bases).vpstate = s.vpstate := rfl
@[simp] theorem withBases_phase : (s.withBases bases).phase = s.phase := rfl
@[simp] theorem withBases_latch : (s.withBases bases).latch = s.latch := rfl
@[simp] theorem withBases_work : (s.withBases bases).work = s.work := rfl
@[simp] theorem withBases_res : (s.withBases bases).res = s.res := rfl
@[simp] theorem withBases_rval : (s.withBases bases).rval = s.rval := rfl
@[simp] theorem withBases_wq : (s.withBases bases).wq = s.wq := rfl
@[simp] theorem withBases_cfg : (s.withBases bases).cfg = s.cfg := rfl
@[simp] theorem withBases_cmd : (s.withBases bases).cmd = s.cmd := rfl
@[simp] theorem withBases_resetPin : (s.withBases bases).resetPin = s.resetPin := rfl
@[simp] theorem withBases_script : (s.withBases bases).script = s.script := rfl
@[simp] theorem withBases_freeResets : (s.withBases bases).freeResets = s.freeResets := rfl
@[simp] theorem withBases_host : (s.withBases bases).host = s.host := rfl
@[simp] theorem withBases_target : (s.withBases bases).target = s.target := rfl
@[simp] theorem withBases_tick : (s.withBases bases).tick = s.tick := rfl
@[simp] theorem withBases_hist : (s.withBases bases).hist = s.hist := rfl
end WithBases

section WithVpen
variable (s : State) (d : DomId) (b : Bool)
@[simp] theorem withVpen_base : (s.withVpen d b).base = s.base := rfl
@[simp] theorem withVpen_vpen : (s.withVpen d b).vpen = s.vpen.set d.toNat b := rfl
@[simp] theorem withVpen_msgCnt : (s.withVpen d b).msgCnt = s.msgCnt := rfl
@[simp] theorem withVpen_recCnt : (s.withVpen d b).recCnt = s.recCnt := rfl
@[simp] theorem withVpen_mode : (s.withVpen d b).mode = s.mode := rfl
@[simp] theorem withVpen_vpstate : (s.withVpen d b).vpstate = s.vpstate := rfl
@[simp] theorem withVpen_phase : (s.withVpen d b).phase = s.phase := rfl
@[simp] theorem withVpen_latch : (s.withVpen d b).latch = s.latch := rfl
@[simp] theorem withVpen_work : (s.withVpen d b).work = s.work := rfl
@[simp] theorem withVpen_res : (s.withVpen d b).res = s.res := rfl
@[simp] theorem withVpen_rval : (s.withVpen d b).rval = s.rval := rfl
@[simp] theorem withVpen_wq : (s.withVpen d b).wq = s.wq := rfl
@[simp] theorem withVpen_cfg : (s.withVpen d b).cfg = s.cfg := rfl
@[simp] theorem withVpen_cmd : (s.withVpen d b).cmd = s.cmd := rfl
@[simp] theorem withVpen_resetPin : (s.withVpen d b).resetPin = s.resetPin := rfl
@[simp] theorem withVpen_script : (s.withVpen d b).script = s.script := rfl
@[simp] theorem withVpen_freeResets : (s.withVpen d b).freeResets = s.freeResets := rfl
@[simp] theorem withVpen_host : (s.withVpen d b).host = s.host := rfl
@[simp] theorem withVpen_target : (s.withVpen d b).target = s.target := rfl
@[simp] theorem withVpen_tick : (s.withVpen d b).tick = s.tick := rfl
@[simp] theorem withVpen_hist : (s.withVpen d b).hist = s.hist := rfl
end WithVpen

section ClearBlock
variable (s : State)
@[simp] theorem clearBlock_base : s.clearBlock.base = List.replicate s.cfg.npart 0 := rfl
@[simp] theorem clearBlock_vpen : s.clearBlock.vpen = List.replicate s.cfg.doms.length false := rfl
@[simp] theorem clearBlock_msgCnt : s.clearBlock.msgCnt = s.cfg.n1 := rfl
@[simp] theorem clearBlock_recCnt : s.clearBlock.recCnt = s.cfg.n2 := rfl
@[simp] theorem clearBlock_mode : s.clearBlock.mode = .ready := rfl
@[simp] theorem clearBlock_vpstate : s.clearBlock.vpstate = .idle := rfl
@[simp] theorem clearBlock_phase : s.clearBlock.phase = none := rfl
@[simp] theorem clearBlock_latch : s.clearBlock.latch = State.reset.latch := rfl
@[simp] theorem clearBlock_work : s.clearBlock.work = {} := rfl
@[simp] theorem clearBlock_res : s.clearBlock.res = 0 := rfl
@[simp] theorem clearBlock_rval : s.clearBlock.rval = 0 := rfl
@[simp] theorem clearBlock_wq : s.clearBlock.wq = [] := rfl
@[simp] theorem clearBlock_cfg : s.clearBlock.cfg = s.cfg := rfl
@[simp] theorem clearBlock_cmd : s.clearBlock.cmd = s.cmd := rfl
@[simp] theorem clearBlock_resetPin : s.clearBlock.resetPin = none := rfl
@[simp] theorem clearBlock_script : s.clearBlock.script = s.script := rfl
@[simp] theorem clearBlock_freeResets : s.clearBlock.freeResets = s.freeResets := rfl
@[simp] theorem clearBlock_host : s.clearBlock.host = s.host := rfl
@[simp] theorem clearBlock_target : s.clearBlock.target = s.target := rfl
@[simp] theorem clearBlock_tick : s.clearBlock.tick = s.tick := rfl
@[simp] theorem clearBlock_hist : s.clearBlock.hist = s.hist := rfl
end ClearBlock

section ObserveEntry
variable (s : State) (e : WEntry)
@[simp] theorem observeEntry_base : (s.observeEntry e).base = s.base := rfl
@[simp] theorem observeEntry_vpen : (s.observeEntry e).vpen = s.vpen := rfl
@[simp] theorem observeEntry_msgCnt : (s.observeEntry e).msgCnt = s.msgCnt := rfl
@[simp] theorem observeEntry_recCnt : (s.observeEntry e).recCnt = s.recCnt := rfl
@[simp] theorem observeEntry_mode : (s.observeEntry e).mode = s.mode := rfl
@[simp] theorem observeEntry_vpstate : (s.observeEntry e).vpstate = s.vpstate := rfl
@[simp] theorem observeEntry_phase : (s.observeEntry e).phase = s.phase := rfl
@[simp] theorem observeEntry_latch : (s.observeEntry e).latch = s.latch := rfl
@[simp] theorem observeEntry_work : (s.observeEntry e).work = s.work := rfl
@[simp] theorem observeEntry_res : (s.observeEntry e).res = s.res := rfl
@[simp] theorem observeEntry_rval : (s.observeEntry e).rval = s.rval := rfl
@[simp] theorem observeEntry_wq : (s.observeEntry e).wq = s.wq := rfl
@[simp] theorem observeEntry_cfg : (s.observeEntry e).cfg = s.cfg := rfl
@[simp] theorem observeEntry_cmd : (s.observeEntry e).cmd = s.cmd := rfl
@[simp] theorem observeEntry_resetPin : (s.observeEntry e).resetPin = s.resetPin := rfl
@[simp] theorem observeEntry_script : (s.observeEntry e).script = s.script := rfl
@[simp] theorem observeEntry_freeResets : (s.observeEntry e).freeResets = s.freeResets := rfl
@[simp] theorem observeEntry_host : (s.observeEntry e).host = s.host := rfl
@[simp] theorem observeEntry_tick : (s.observeEntry e).tick = s.tick := rfl
@[simp] theorem observeEntry_hist : (s.observeEntry e).hist = s.hist := rfl
end ObserveEntry

section Entry
variable (s : State) (p : Port) (a : Addr) (v : Word)
@[simp] theorem entry_toWrite : (s.entry p a v).toWrite = ⟨p, a, v⟩ := rfl
@[simp] theorem entry_port : (s.entry p a v).port = p := rfl
@[simp] theorem entry_addr : (s.entry p a v).addr = a := rfl
@[simp] theorem entry_value : (s.entry p a v).value = v := rfl
@[simp] theorem entry_request : (s.entry p a v).request = (p == .mmio && s.requestsGlobalReset a v) := rfl
end Entry

/-- Events after one more entry of the history. -/
@[simp] theorem events_cons (s : State) (h : List (Option Phase × Event)) (p : Option Phase) (e : Event) :
    ({ s with hist := (p, e) :: h } : State).events = e :: ({ s with hist := h } : State).events := rfl

end Sys2Proof.Machine
end

