-- ==== Sys2Proof/Laws/Target.lean ====
section
/-! SUPPORT. ENV's registers: read after write, and every operation on them keeps the canonical form. -/

namespace Sys2Proof.Machine

theorem regsGet_regsSet_same (k : Nat) (w : Word) (l : List (Nat × Word)) : regsGet k (regsSet k w l) = some w := by
  induction l with
  | nil => simp [regsSet, regsGet]
  | cons e rest ih =>
    obtain ⟨a, v⟩ := e
    unfold regsSet
    split
    · simp [regsGet]
    · split
      · simp [regsGet]
      · rename_i h1 h2
        simp [regsGet, h2, ih]

theorem regsGet_regsSet_other (k j : Nat) (w : Word) (l : List (Nat × Word)) (h : j ≠ k) :
    regsGet j (regsSet k w l) = regsGet j l := by
  induction l with
  | nil => simp [regsSet, regsGet, h]
  | cons e rest ih =>
    obtain ⟨a, v⟩ := e
    unfold regsSet
    split
    · simp [regsGet, h]
    · split
      · rename_i h1 h2
        subst h2
        simp [regsGet, h]
      · by_cases hj : j = a <;> simp [regsGet, hj, ih]

theorem regsSet_all (k : Nat) (w : Word) (l : List (Nat × Word)) (b : Nat) (hk : b < k)
    (h : l.all (fun e => b < e.1) = true) : (regsSet k w l).all (fun e => b < e.1) = true := by
  induction l with
  | nil => simpa [regsSet] using hk
  | cons e rest ih =>
    obtain ⟨a, v⟩ := e
    rw [List.all_cons, Bool.and_eq_true] at h
    unfold regsSet
    split
    · simp only [List.all_cons, Bool.and_eq_true]
      exact ⟨by simpa using hk, h⟩
    · split
      · simp only [List.all_cons, Bool.and_eq_true]
        exact ⟨by simpa using hk, h.2⟩
      · simp only [List.all_cons, Bool.and_eq_true]
        exact ⟨h.1, ih h.2⟩

theorem regsWf_regsSet (k : Nat) (w : Word) (l : List (Nat × Word)) (h : regsWf l = true) :
    regsWf (regsSet k w l) = true := by
  induction l with
  | nil => simp [regsSet, regsWf]
  | cons e rest ih =>
    obtain ⟨a, v⟩ := e
    simp only [regsWf, Bool.and_eq_true] at h
    unfold regsSet
    split
    · rename_i hk
      simp only [regsWf, Bool.and_eq_true, List.all_cons, decide_eq_true_eq]
      refine ⟨⟨hk, ?_⟩, h⟩
      rw [List.all_eq_true] at h ⊢
      intro x hx
      have := h.1 x hx
      simp only [decide_eq_true_eq] at this ⊢
      omega
    · split
      · rename_i h1 h2
        subst h2
        simpa [regsWf] using h
      · simp only [regsWf, Bool.and_eq_true]
        exact ⟨regsSet_all k w rest a (by omega) h.1, ih h.2⟩

theorem put_wf (t : Target) (p : Port) (a : Addr) (v : Word) (h : t.wf = true) : (t.put p a v).wf = true :=
  regsWf_regsSet _ _ _ h

theorem put_get_same (t : Target) (p : Port) (a : Addr) (v : Word) : (t.put p a v).get p a = some v :=
  regsGet_regsSet_same _ _ _

theorem absorb_wf (t : Target) (e : WEntry) (h : t.wf = true) : (t.absorb e).wf = true := by
  unfold Target.absorb
  split
  · split
    · exact put_wf _ _ _ _ h
    · exact h
  · exact put_wf _ _ _ _ h

@[simp] theorem absorb_seen (t : Target) (e : WEntry) : (t.absorb e).seen = e :: t.seen := by
  unfold Target.absorb
  split
  · split <;> rfl
  · rfl

@[simp] theorem absorb_armed (t : Target) (e : WEntry) : (t.absorb e).armed = t.armed := by
  unfold Target.absorb
  split
  · split <;> rfl
  · rfl

/-- A write to a register that is not write-1-to-clear is read back (R74). -/
theorem absorb_get_plain (t : Target) (e : WEntry) (h : t.w1c.contains (regKey e.port e.addr) = false) :
    (t.absorb e).get e.port e.addr = some e.value := by
  unfold Target.absorb
  rw [if_neg (by rw [h]; simp)]
  exact put_get_same _ _ _ _

/-- A write changes no other register (R69). -/
theorem absorb_get_other (t : Target) (e : WEntry) (k : Nat) (h : k ≠ regKey e.port e.addr) :
    regsGet k (t.absorb e).regs = regsGet k t.regs := by
  unfold Target.absorb
  split
  · split
    · exact regsGet_regsSet_other _ _ _ _ h
    · rfl
  · exact regsGet_regsSet_other _ _ _ _ h

theorem observeEntry_wf (s : State) (e : WEntry) (h : s.target.wf = true) : (s.observeEntry e).target.wf = true :=
  absorb_wf _ _ h

end Sys2Proof.Machine
end

