-- ==== Sys2Proof/Laws/Act.lean ====
section
/-! SUPPORT. Reasoning about actions: `wp m Q E s` says that `m`, run from `s`, ends in a value and state that meet
`Q`, or stops as `E` says. Every later law about a command is put together from these. -/

namespace Sys2Proof.Machine

variable {α β : Type}

/-- The action ends as `Q` says or stops as `E` says. -/
def wp (m : Act α) (Q : α → State → Prop) (E : Stop → State → Prop) (s : State) : Prop :=
  match m s with
  | .ok a t => Q a t
  | .error e t => E e t

theorem wp_bind (m : Act α) (f : α → Act β) (Q : β → State → Prop) (E : Stop → State → Prop) (s : State) :
    wp (m >>= f) Q E s ↔ wp m (fun a t => wp (f a) Q E t) E s := by
  simp only [wp, bind, EStateM.bind]
  cases m s <;> rfl

theorem wp_pure (a : α) (Q : α → State → Prop) (E : Stop → State → Prop) (s : State) :
    wp (pure a) Q E s ↔ Q a s := Iff.rfl

theorem wp_get (Q : State → State → Prop) (E : Stop → State → Prop) (s : State) :
    wp (get : Act State) Q E s ↔ Q s s := Iff.rfl

theorem wp_set (t : State) (Q : PUnit → State → Prop) (E : Stop → State → Prop) (s : State) :
    wp (set t : Act PUnit) Q E s ↔ Q ⟨⟩ t := Iff.rfl

theorem wp_modify (f : State → State) (Q : Unit → State → Prop) (E : Stop → State → Prop) (s : State) :
    wp (modify f : Act Unit) Q E s ↔ Q () (f s) := Iff.rfl

theorem wp_refuse (r : Refusal) (Q : α → State → Prop) (E : Stop → State → Prop) (s : State) :
    wp (refuse r : Act α) Q E s ↔ E (.refuse r) s := Iff.rfl

theorem wp_raiseFatal (Q : α → State → Prop) (E : Stop → State → Prop) (s : State) :
    wp (raiseFatal : Act α) Q E s ↔ E .cut { s with mode := .fatal } := Iff.rfl

theorem wp_line (l : Label) (Q : Unit → State → Prop) (E : Stop → State → Prop) (s : State) :
    wp (line l) Q E s ↔ Q () { s with phase := some ⟨l, none⟩ } := Iff.rfl

theorem wp_subLine (l : SubLabel) (Q : Unit → State → Prop) (E : Stop → State → Prop) (s : State) :
    wp (subLine l) Q E s ↔ Q () { s with phase := s.phase.map (fun p => { p with sub := some l }) } := Iff.rfl

theorem wp_endSub (Q : Unit → State → Prop) (E : Stop → State → Prop) (s : State) :
    wp endSub Q E s ↔ Q () { s with phase := s.phase.map (fun p => { p with sub := none }) } := Iff.rfl

theorem wp_setWork (f : Work → Work) (Q : Unit → State → Prop) (E : Stop → State → Prop) (s : State) :
    wp (setWork f) Q E s ↔ Q () { s with work := f s.work } := Iff.rfl

theorem wp_emit (e : Event) (Q : Unit → State → Prop) (E : Stop → State → Prop) (s : State) :
    wp (emit e) Q E s ↔ Q () { s with hist := (s.phase, e) :: s.hist } := Iff.rfl

theorem wp_setVpstate (v : VpState) (Q : Unit → State → Prop) (E : Stop → State → Prop) (s : State) :
    wp (setVpstate v) Q E s ↔ Q () { s with vpstate := v } := Iff.rfl

theorem wp_draw (f : Nat → α) (Q : α → State → Prop) (E : Stop → State → Prop) (s : State) :
    wp (draw f) Q E s ↔ Q (f s.tick) { s with tick := s.tick + 1 } := Iff.rfl

theorem wp_ite (c : Prop) [Decidable c] (m n : Act α) (Q : α → State → Prop) (E : Stop → State → Prop) (s : State) :
    wp (if c then m else n) Q E s ↔ (c → wp m Q E s) ∧ (¬c → wp n Q E s) := by
  split <;> simp [*]

theorem wp_mono {m : Act α} {Q Q' : α → State → Prop} {E E' : Stop → State → Prop} {s : State}
    (h : wp m Q E s) (hq : ∀ a t, Q a t → Q' a t) (he : ∀ e t, E e t → E' e t) : wp m Q' E' s := by
  unfold wp at *
  cases hm : m s <;> simp only [hm] at h ⊢
  · exact hq _ _ h
  · exact he _ _ h

/-- Two things an action ensures. -/
theorem wp_and {m : Act α} {Q Q' : α → State → Prop} {E E' : Stop → State → Prop} {s : State} (h : wp m Q E s)
    (k : wp m Q' E' s) : wp m (fun a t => Q a t ∧ Q' a t) (fun e t => E e t ∧ E' e t) s := by
  unfold wp at *
  cases hm : m s <;> simp only [hm] at h k ⊢ <;> exact ⟨h, k⟩

/-- A command that is accepted ends as its body does: enough to know of the body. -/
theorem command_next {i : Instr} {s : State} {body : Act Unit} {P : State → Prop}
    (hm : s.mode = .ready) (ha : s.cfg.admitted = true)
    (h : wp body (fun _ t => P t) (fun e t => e = .cut ∧ P t) (s.accept i)) :
    ∃ t, command i s body = .next t ∧ P t := by
  unfold wp at h
  simp only [command, guarded, hm, ha, if_true]
  cases hb : body (s.accept i) with
  | ok a t =>
    simp only [hb] at h
    exact ⟨t, rfl, h⟩
  | error e t =>
    simp only [hb] at h
    obtain ⟨rfl, hp⟩ := h
    exact ⟨t, rfl, hp⟩

/-- A command whose body can only be refused is refused. -/
theorem command_refused {i : Instr} {s : State} {body : Act Unit} {r : Refusal} (hm : s.mode = .ready)
    (ha : s.cfg.admitted = true) (h : wp body (fun _ _ => False) (fun e _ => e = .refuse r) (s.accept i)) :
    command i s body = .refused r := by
  unfold wp at h
  simp only [command, guarded, hm, ha, if_true]
  cases hb : body (s.accept i) with
  | ok a t =>
    simp only [hb] at h
  | error e t =>
    simp only [hb] at h
    subst h
    rfl

/-- A command that gives a next state was accepted in READY, with an admitted configuration, and its body ended there
or was cut there. -/
theorem command_inv {i : Instr} {s t : State} {body : Act Unit} (h : command i s body = .next t) :
    s.mode = .ready ∧ s.cfg.admitted = true ∧
      (body (s.accept i) = .ok () t ∨ body (s.accept i) = .error .cut t) := by
  unfold command guarded at h
  cases hm : s.mode <;> simp only [hm] at h
  · split at h
    · rename_i ha
      refine ⟨rfl, ha, ?_⟩
      cases hb : body (s.accept i) with
      | ok a u =>
        simp only [hb, outcomeOf, Host.Outcome.next.injEq] at h
        exact .inl (by rw [h])
      | error e u =>
        cases e with
        | cut =>
          simp only [hb, outcomeOf, Host.Outcome.next.injEq] at h
          exact .inr (by rw [h])
        | refuse r => simp [hb, outcomeOf] at h
    · simp at h
  · simp at h
  · simp at h

/-- What a body ensures however it ends holds of the next state of its command. -/
theorem command_post {i : Instr} {s t : State} {body : Act Unit} {Q : State → Prop}
    (h : command i s body = .next t)
    (hb : wp body (fun _ u => Q u) (fun e u => e = .cut → Q u) (s.accept i)) : Q t := by
  obtain ⟨_, _, h1 | h1⟩ := command_inv h <;> simp only [wp, h1] at hb
  · exact hb
  · exact hb trivial

end Sys2Proof.Machine
end

