-- ==== Sys2Proof/Laws/Operands.lean ====
section
/-! SUPPORT. The operand forms: alignment (R63), the status address (R62), single-bit masks (R140, R141). -/

namespace Sys2Proof

theorem aligned_iff (a : Addr) : aligned a = true ↔ a % 4 = 0 := by simp [aligned]

/-- A status register is 4 bytes above its control register, modulo 2^AW (R62). -/
theorem effAddr_status (s : Machine.State) (p : PartId) (inst off : Addr) (h : s.cfg.rstStOffset = 4) :
    s.effAddr p inst (s.cfg.statusOffset off) = s.cfg.wrap (s.baseOf p + inst + off + 4) := by
  rw [Machine.State.effAddr, Config.statusOffset, h, Nat.add_assoc _ off]

/-- Adding 4 does not change alignment, at any address width. -/
theorem aligned_wrap_add (c : Config) (a : Nat) : aligned (c.wrap (a + 4)) = aligned (c.wrap a) := by
  rw [Bool.eq_iff_iff, aligned_iff, aligned_iff]
  show (a + 4) % 2 ^ c.aw % 4 = 0 ↔ a % 2 ^ c.aw % 4 = 0
  by_cases h : 2 ≤ c.aw
  · have hd : 4 ∣ 2 ^ c.aw := (Nat.pow_dvd_pow 2 h : 2 ^ 2 ∣ 2 ^ c.aw)
    rw [Nat.mod_mod_of_dvd _ hd, Nat.mod_mod_of_dvd _ hd]
    omega
  · have h01 : c.aw = 0 ∨ c.aw = 1 := by omega
    rcases h01 with h | h <;> rw [h] <;> omega

/-- The status register of a reset line is aligned exactly when its control register is. -/
theorem aligned_status (s : Machine.State) (p : PartId) (inst off : Addr) (h : s.cfg.rstStOffset = 4) :
    aligned (s.effAddr p inst (s.cfg.statusOffset off)) = aligned (s.effAddr p inst off) := by
  rw [effAddr_status s p inst off h]
  exact aligned_wrap_add _ _

/-- An address of AW bits is itself. -/
theorem wrap_of_lt {c : Config} {a : Addr} (h : a < 2 ^ c.aw) : c.wrap a = a := Nat.mod_eq_of_lt h

/-! ### Admitted configurations (R56) -/

/-- The two parameters that the source fixes (R7). -/
theorem admitted_fixed {c : Config} (h : c.admitted = true) : c.dw = 32 ∧ c.rstStOffset = 4 := by
  simp only [Config.admitted, Bool.and_eq_true, beq_iff_eq] at h
  tauto

/-- Every poll budget of an admitted configuration is at least 1. -/
theorem admitted_budgets {c : Config} (h : c.admitted = true) : c.hardresetBudget ≠ 0 ∧ c.vpIdleBudget ≠ 0 ∧
    c.vpTxclearBudget ≠ 0 ∧ c.vpTxwaitBudget ≠ 0 := by
  simp only [Config.admitted, List.all_cons, List.all_nil, Bool.and_eq_true, bne_iff_ne] at h
  tauto

/-- Every value that VP_INIT places in an admitted configuration fits its field. -/
theorem admitted_places {c : Config} {dom : Dom} {k : InitCaps} (h : c.admitted = true) (hd : dom ∈ c.doms)
    (hp : dom.present = true) (hk : dom.initCaps = some k) {x : Nat} {m : Word} (hm : (x, m) ∈ c.initPlaces k) :
    ∃ w, place x m = some w := by
  simp only [Config.admitted, Bool.and_eq_true, List.all_eq_true] at h
  have hf := h.2 dom hd
  simp only [Dom.admitted, hp, hk, Option.all_some, Bool.not_true, Bool.false_or, Bool.and_eq_true] at hf
  exact Option.isSome_iff_exists.mp (List.all_eq_true.mp hf.2 _ hm)

theorem bitSet_iff (v : Word) (shift : Shift) : bitSet v shift = true ↔ (v >>> shift.toNat) &&& 1#32 = 1#32 := by
  simp [bitSet]

/-- A bit that was set is found set. -/
theorem bitSet_or_mask (v : Word) (shift : Shift) : bitSet (v ||| bitMask shift) shift = true := by
  rw [bitSet_iff]
  refine BitVec.eq_of_getLsbD_eq fun i hi => ?_
  have h := shift.isLt
  simp only [bitMask, BitVec.getLsbD_and, BitVec.getLsbD_ushiftRight, BitVec.getLsbD_or, BitVec.getLsbD_shiftLeft,
    BitVec.getLsbD_one]
  by_cases h0 : i = 0
  · subst h0
    simp
    omega
  · simp [h0]

/-- Setting a bit by read-modify-write keeps the other bits as read (R144). -/
theorem merge_set (old m : Word) : merge old m m = old ||| m := by
  unfold merge
  ext k hk
  simp only [BitVec.getElem_or, BitVec.getElem_and, BitVec.getElem_not]
  cases m[k] <;> simp

/-- A mask of all ones keeps nothing of what was read (line DA3 of R146). -/
theorem merge_all (old bits : Word) : merge old 0xFFFFFFFF bits = bits := by
  unfold merge
  rw [show (~~~(0xFFFFFFFF : Word)) = 0 from rfl]
  simp

/-- Clearing the masked bits (line DA4 of R146). -/
theorem merge_clear (old mask : Word) : merge old mask 0 = old &&& ~~~mask := by
  simp [merge]

end Sys2Proof
end

