-- ==== Sys2Proof/Laws/Env.lean ====
section
/-! SUPPORT. What the other agents can do at a turn: ENV's moves touch WQ, ENV's own state, the script and the draw
counter, nothing else of the block; a drain empties WQ; a turn without a scripted reset never cuts. -/

namespace Sys2Proof.Machine

/-- Only the script, ENV's state and the draw counter may differ, and WQ may have lost its oldest entries. -/
structure EnvOnly (s t : State) : Prop where
  base : t.base = s.base
  vpen : t.vpen = s.vpen
  msgCnt : t.msgCnt = s.msgCnt
  recCnt : t.recCnt = s.recCnt
  mode : t.mode = s.mode
  vpstate : t.vpstate = s.vpstate
  phase : t.phase = s.phase
  latch : t.latch = s.latch
  work : t.work = s.work
  res : t.res = s.res
  rval : t.rval = s.rval
  cfg : t.cfg = s.cfg
  cmd : t.cmd = s.cmd
  resetPin : t.resetPin = s.resetPin
  host : t.host = s.host
  freeResets : t.freeResets = s.freeResets
  hist : t.hist = s.hist
  /-- the oldest entries may have been observed, in order (R69). -/
  wq : t.wq <:+ s.wq

/-- No event of the block is among the moves. -/
theorem EnvOnly.events {s t : State} (h : EnvOnly s t) : t.events = s.events := by simp [State.events, h.hist]

theorem EnvOnly.refl (s : State) : EnvOnly s s := ⟨rfl, rfl, rfl, rfl, rfl, rfl, rfl, rfl, rfl, rfl, rfl, rfl, rfl, rfl,
  rfl, rfl, rfl, List.suffix_rfl⟩

theorem EnvOnly.trans {s t u : State} (h : EnvOnly s t) (k : EnvOnly t u) : EnvOnly s u :=
  ⟨k.base.trans h.base, k.vpen.trans h.vpen, k.msgCnt.trans h.msgCnt, k.recCnt.trans h.recCnt, k.mode.trans h.mode,
    k.vpstate.trans h.vpstate, k.phase.trans h.phase, k.latch.trans h.latch, k.work.trans h.work, k.res.trans h.res,
    k.rval.trans h.rval, k.cfg.trans h.cfg, k.cmd.trans h.cmd, k.resetPin.trans h.resetPin, k.host.trans h.host,
    k.freeResets.trans h.freeResets, k.hist.trans h.hist, k.wq.trans h.wq⟩

theorem EnvOnly.of_fields (s : State) {wq : List WEntry} (h : wq <:+ s.wq) (script : List (List Move))
    (target : Target) (tick : Nat) :
    EnvOnly s { s with wq := wq, script := script, target := target, tick := tick } :=
  ⟨rfl, rfl, rfl, rfl, rfl, rfl, rfl, rfl, rfl, rfl, rfl, rfl, rfl, rfl, rfl, rfl, rfl, h⟩

theorem observeEntry_envOnly (s : State) (e : WEntry) : EnvOnly s (s.observeEntry e) :=
  EnvOnly.of_fields s List.suffix_rfl s.script _ s.tick

theorem observeOldest_envOnly (s : State) : EnvOnly s s.observeOldest := by
  unfold State.observeOldest
  split
  · exact EnvOnly.refl s
  · rename_i e rest h
    exact EnvOnly.of_fields s (h ▸ List.suffix_cons e rest) s.script _ s.tick

theorem observeOldest_script (s : State) : s.observeOldest.script = s.script := by
  unfold State.observeOldest
  split <;> rfl

/-- The queue after observing some of it: nothing but ENV's state changes, and the queue is as it was left. -/
theorem foldl_observeEntry (l : List WEntry) (s : State) :
    EnvOnly s (l.foldl State.observeEntry s) ∧ (l.foldl State.observeEntry s).wq = s.wq ∧
      (l.foldl State.observeEntry s).script = s.script ∧ (l.foldl State.observeEntry s).tick = s.tick := by
  induction l generalizing s with
  | nil => exact ⟨EnvOnly.refl s, rfl, rfl, rfl⟩
  | cons e rest ih =>
    obtain ⟨h1, h2, h3, h4⟩ := ih (s.observeEntry e)
    exact ⟨(observeEntry_envOnly s e).trans h1, h2, h3, h4⟩

theorem drain_envOnly (s : State) : EnvOnly s s.drain :=
  (EnvOnly.of_fields s (List.nil_suffix) s.script s.target s.tick).trans (foldl_observeEntry _ _).1

/-- Every entry has been observed (R70). -/
theorem drain_wq (s : State) : s.drain.wq = [] := (foldl_observeEntry _ _).2.1

theorem drain_script (s : State) : s.drain.script = s.script := (foldl_observeEntry _ _).2.2.1

/-- An empty queue has nothing to observe. -/
theorem drain_of_empty (s : State) (h : s.wq = []) : s.drain = s := by
  unfold State.drain
  rw [h]
  cases s
  simp_all

theorem envMove_envOnly (s : State) (m : EnvMove) : EnvOnly s (s.envMove m) := by
  cases m with
  | observe => exact observeOldest_envOnly s
  | poke p a v => exact EnvOnly.of_fields s List.suffix_rfl s.script _ s.tick
  | txdone id b => exact EnvOnly.of_fields s List.suffix_rfl s.script _ s.tick

theorem envMove_script (s : State) (m : EnvMove) : (s.envMove m).script = s.script := by
  cases m with
  | observe => exact observeOldest_script s
  | poke p a v => rfl
  | txdone id b => rfl

theorem foldl_envMove (l : List EnvMove) (s : State) :
    EnvOnly s (l.foldl State.envMove s) ∧ (l.foldl State.envMove s).script = s.script := by
  induction l generalizing s with
  | nil => exact ⟨EnvOnly.refl s, rfl⟩
  | cons m rest ih =>
    obtain ⟨h1, h2⟩ := ih (s.envMove m)
    exact ⟨(envMove_envOnly s m).trans h1, h2.trans (envMove_script s m)⟩

theorem foldl_envMove_fields (l : List EnvMove) (s : State) :
    ∃ q x, l.foldl State.envMove s = { s with wq := q, target := x } := by
  induction l generalizing s with
  | nil => exact ⟨s.wq, s.target, rfl⟩
  | cons m rest ih =>
    have h : ∃ q x, s.envMove m = { s with wq := q, target := x } := by
      cases m with
      | observe =>
        simp only [State.envMove, State.observeOldest]
        split
        · exact ⟨s.wq, s.target, rfl⟩
        · exact ⟨_, _, rfl⟩
      | poke p a v => exact ⟨s.wq, _, rfl⟩
      | txdone id b => exact ⟨s.wq, _, rfl⟩
    obtain ⟨q, x, hm⟩ := h
    obtain ⟨q', x', hr⟩ := ih (s.envMove m)
    exact ⟨q', x', by rw [List.foldl_cons, hr, hm]⟩

/-- Moves of ENV reach WQ and ENV's own state only. -/
theorem foldl_envMove_eq (l : List EnvMove) (s : State) : l.foldl State.envMove s =
    { s with wq := (l.foldl State.envMove s).wq, target := (l.foldl State.envMove s).target } := by
  obtain ⟨q, x, h⟩ := foldl_envMove_fields l s
  rw [h]

/-- No move disarms the SoC reset. -/
theorem envMove_armed (s : State) (m : EnvMove) (h : s.target.armed = true) : (s.envMove m).target.armed = true := by
  cases m with
  | observe =>
    simp only [State.envMove, State.observeOldest]
    split
    · exact h
    · simp [State.observeEntry, h]
  | poke p a v => exact h
  | txdone id b => exact h

/-- A request stays queued or arms the SoC reset, and nothing else does. -/
theorem envMove_request (s : State) (m : EnvMove) :
    ((s.envMove m).target.armed || (s.envMove m).wq.any (fun e => e.request)) =
      (s.target.armed || s.wq.any (fun e => e.request)) := by
  cases m with
  | observe =>
    simp only [State.envMove, State.observeOldest]
    split
    · rfl
    · rename_i e rest h
      simp [State.observeEntry, h, Bool.or_assoc]
  | poke p a v => rfl
  | txdone id b => rfl

theorem foldl_envMove_request (l : List EnvMove) (s : State) :
    (s.target.armed = true → (l.foldl State.envMove s).target.armed = true) ∧
      ((l.foldl State.envMove s).target.armed || (l.foldl State.envMove s).wq.any (fun e => e.request)) =
        (s.target.armed || s.wq.any (fun e => e.request)) := by
  induction l generalizing s with
  | nil => exact ⟨id, rfl⟩
  | cons m rest ih =>
    obtain ⟨h1, h2⟩ := ih (s.envMove m)
    exact ⟨fun h => h1 (envMove_armed s m h), h2.trans (envMove_request s m)⟩

/-- Observing queued writes turns queued requests into observed ones. -/
theorem foldl_observeEntry_armed (l : List WEntry) (s : State) :
    (l.foldl State.observeEntry s).target.armed = (s.target.armed || l.any (fun e => e.request)) := by
  induction l generalizing s with
  | nil => simp
  | cons e rest ih => simp [ih, State.observeEntry, Bool.or_assoc]

/-- A drain loses no request. -/
theorem drain_requestPending (s : State) : s.drain.requestPending = s.requestPending := by
  rw [State.requestPending, drain_wq]
  simp [State.drain, foldl_observeEntry_armed, State.requestPending]

theorem drain_noResets (s : State) : s.drain.noResets = s.noResets := by
  simp only [State.noResets, drain_script, (drain_envOnly s).freeResets, drain_requestPending]

/-- The free moves are moves of ENV, one after the other. -/
theorem freeMoves_eq (s : State) :
    s.freeMoves = { (Config.freeMoves s.tick).foldl State.envMove s with tick := s.tick + 1 } := by
  obtain ⟨h1, h2⟩ := foldl_envMove_request (Config.freeMoves s.tick) s
  have hq := (foldl_envMove (Config.freeMoves s.tick) s).1.wq
  rw [foldl_envMove_eq]
  unfold State.freeMoves
  generalize (Config.freeMoves s.tick).foldl State.envMove s = t at h1 h2 hq
  have hw : (if s.wq.isEmpty then [] else t.wq) = t.wq := by
    split
    · rename_i h
      rw [List.isEmpty_iff.mp h] at hq
      exact (List.suffix_nil.mp hq).symm
    · rfl
  have ha : (s.target.armed || (s.wq.any (fun e => e.request) && t.target.armed)) = t.target.armed := by
    cases hs : s.target.armed <;> cases ht : t.target.armed <;> cases hr : s.wq.any (fun e => e.request) <;> simp_all
  simp only [hw, ha]

theorem freeMoves_envOnly (s : State) : EnvOnly s s.freeMoves := by
  rw [freeMoves_eq, foldl_envMove_eq]
  exact EnvOnly.of_fields s (foldl_envMove _ _).1.wq s.script _ _

theorem freeMoves_script (s : State) : s.freeMoves.script = s.script := rfl

/-- What a free turn is, said once: moves of ENV, or these and then the SoC's reset. -/
theorem freeTurn_cases (s : State) : s.freeTurn = (s.freeMoves, false) ∨
    ∃ keep, s.freeResets = true ∧ s.freeMoves.target.armed = true ∧ s.freeTurn = (s.freeMoves.socReset keep, true) := by
  unfold State.freeTurn
  by_cases h : (s.freeResets && s.freeMoves.target.armed) = true
  · simp only [h, if_true]
    split
    · rw [Bool.and_eq_true] at h
      exact .inr ⟨_, h.1, h.2, rfl⟩
    · exact .inl rfl
  · simp [h]

/-- Moves without a reset: only ENV's side changes and the turn does not cut. -/
theorem runMoves_env (ms : List Move) (s : State) (h : ms.all Move.isEnv = true) :
    EnvOnly s (runMoves ms s).1 ∧ (runMoves ms s).2 = false ∧ (runMoves ms s).1.script = s.script := by
  induction ms generalizing s with
  | nil => exact ⟨EnvOnly.refl s, rfl, rfl⟩
  | cons m rest ih =>
    rw [List.all_cons, Bool.and_eq_true] at h
    cases m with
    | env e =>
      obtain ⟨h1, h2, h3⟩ := ih (s.envMove e) h.2
      exact ⟨(envMove_envOnly s e).trans h1, h2, h3.trans (envMove_script s e)⟩
    | socReset k => simp [Move.isEnv] at h
    | blockReset k => simp [Move.isEnv] at h

/-- "At any later time" (R243): once a request has been observed, a free turn may be the SoC's reset. -/
theorem takeTurn_freeReset {s : State} {keep : List Bool} (h : s.script = []) (hf : s.freeResets = true)
    (ha : s.target.armed = true) (hk : Config.freeReset s.tick = some keep) :
    s.takeTurn = (s.freeMoves.socReset keep, true) := by
  have hm : s.freeMoves.target.armed = true := by simp [State.freeMoves, ha]
  simp [State.takeTurn, h, State.freeTurn, hf, hm, hk]

/-- No move of ENV makes or loses a request. -/
theorem runMoves_requestPending (ms : List Move) (s : State) (h : ms.all Move.isEnv = true) :
    (runMoves ms s).1.requestPending = s.requestPending := by
  induction ms generalizing s with
  | nil => rfl
  | cons m rest ih =>
    rw [List.all_cons, Bool.and_eq_true] at h
    cases m with
    | env e => exact (ih (s.envMove e) h.2).trans (envMove_request s e)
    | socReset k => simp [Move.isEnv] at h
    | blockReset k => simp [Move.isEnv] at h

theorem freeMoves_requestPending (s : State) : s.freeMoves.requestPending = s.requestPending := by
  rw [freeMoves_eq]
  exact (foldl_envMove_request (Config.freeMoves s.tick) s).2

/-- With no reset ahead a turn is no reset, changes ENV's side only, and leaves none ahead. -/
theorem takeTurn_calm {s : State} (hs : s.noResets = true) :
    s.takeTurn.2 = false ∧ EnvOnly s s.takeTurn.1 ∧ s.takeTurn.1.noResets = true := by
  simp only [State.noResets, Bool.and_eq_true] at hs ⊢
  obtain ⟨h1, h2⟩ := hs
  unfold State.takeTurn
  cases h : s.script with
  | nil =>
    have hp := freeMoves_requestPending s
    have he := freeMoves_envOnly s
    obtain hc | ⟨keep, k1, k2, -⟩ := freeTurn_cases s
    · rw [hc]
      refine ⟨rfl, he, ?_, ?_⟩
      · rw [freeMoves_script, h]
        rfl
      · rw [he.freeResets, hp]
        exact h2
    · have hr : s.requestPending = true := by
        rw [← hp, State.requestPending, k2]
        rfl
      rw [k1, hr] at h2
      cases h2
  | cons ms rest =>
    rw [h, List.all_cons, Bool.and_eq_true] at h1
    obtain ⟨k1, k2, k3⟩ := runMoves_env ms { s with script := rest } h1.1
    refine ⟨k2, (EnvOnly.of_fields s List.suffix_rfl rest s.target s.tick).trans k1, ?_, ?_⟩
    · rw [k3]
      exact h1.2
    · rw [k1.freeResets, runMoves_requestPending ms _ h1.1]
      exact h2

/-- A turn in which no agent moves. -/
theorem takeTurn_quiet (s : State) (rest : List (List Move)) (h : s.script = [] :: rest) :
    s.takeTurn = ({ s with script := rest }, false) := by
  simp [State.takeTurn, h, runMoves]

theorem turn_quiet (s : State) (rest : List (List Move)) (h : s.script = [] :: rest) :
    turn s = .ok () { s with script := rest } := by
  simp [turn, takeTurn_quiet s rest h]

/-- The state after a reset, as far as the block goes (R39, R240). -/
structure WasReset (s t : State) : Prop where
  base : t.base = List.replicate s.cfg.npart 0
  vpen : t.vpen = List.replicate s.cfg.doms.length false
  msgCnt : t.msgCnt = s.cfg.n1
  recCnt : t.recCnt = s.cfg.n2
  mode : t.mode = .ready
  vpstate : t.vpstate = .idle
  phase : t.phase = none
  work : t.work = {}
  wq : t.wq = []
  cfg : t.cfg = s.cfg
  cmd : t.cmd = s.cmd
  hist : ∃ e : Event, e.isReset = true ∧ t.hist = (s.phase, e) :: s.hist

/-- A reset is itself an event. -/
theorem WasReset.events {s t : State} (h : WasReset s t) : ∃ e : Event, e.isReset = true ∧ t.events = e :: s.events := by
  obtain ⟨e, h1, h2⟩ := h.hist
  exact ⟨e, h1, by simp [State.events, h2]⟩

theorem settleQueue_script (s : State) (keep : List Bool) : (s.settleQueue keep).script = s.script := by
  unfold State.settleQueue
  rw [← List.foldl_map]
  exact (foldl_observeEntry _ _).2.2.1

theorem settleQueue_envOnly (s : State) (keep : List Bool) :
    EnvOnly s (s.settleQueue keep) ∧ (s.settleQueue keep).wq = [] := by
  unfold State.settleQueue
  have h : ∀ (l : List (WEntry × Bool)) (u : State),
      l.foldl (fun t p => t.observeEntry p.1) u = (l.map (fun p => p.1)).foldl State.observeEntry u := by
    intro l u
    rw [List.foldl_map]
  rw [h]
  obtain ⟨h1, h2, _, _⟩ := foldl_observeEntry
    (((s.wq.zip keep).filter (fun p => p.2)).map (fun p => p.1)) { s with wq := [] }
  exact ⟨(EnvOnly.of_fields s (List.nil_suffix) s.script s.target s.tick).trans h1, h2⟩

/-- Block reset leaves every state element of the block at its reset value. -/
theorem blockReset_wasReset (s : State) (keep : List Bool) : WasReset s (s.blockReset keep) := by
  have h := (settleQueue_envOnly s keep).1
  constructor <;> simp [State.blockReset, h.cfg, h.cmd, h.hist, Event.isReset]

/-- So does the SoC's reset (R243). -/
theorem socReset_wasReset (s : State) (keep : List Bool) : WasReset s (s.socReset keep) := by
  have h := (settleQueue_envOnly s keep).1
  constructor <;> simp [State.socReset, h.cfg, h.cmd, h.hist, Event.isReset]

/-! ### The registers as the block's next read finds them -/

/-- The value of the register `k` once the queued writes have been observed (R70). -/
def settled (s : State) (k : Nat) : Option Word := regsGet k (s.wq.foldl Target.absorb s.target).regs

theorem absorb_same {t u : Target} (e : WEntry) (hr : t.regs = u.regs) (hw : t.w1c = u.w1c) :
    (t.absorb e).regs = (u.absorb e).regs ∧ (t.absorb e).w1c = (u.absorb e).w1c := by
  unfold Target.absorb
  simp only [Target.get, hr, hw]
  split
  · split
    · exact ⟨by simp [Target.put], rfl⟩
    · exact ⟨rfl, rfl⟩
  · exact ⟨by simp [Target.put], rfl⟩

theorem foldl_absorb_same (l : List WEntry) {t u : Target} (hr : t.regs = u.regs) (hw : t.w1c = u.w1c) :
    (l.foldl Target.absorb t).regs = (l.foldl Target.absorb u).regs ∧
      (l.foldl Target.absorb t).w1c = (l.foldl Target.absorb u).w1c := by
  induction l generalizing t u with
  | nil => exact ⟨hr, hw⟩
  | cons e rest ih => exact ih (absorb_same e hr hw).1 (absorb_same e hr hw).2

theorem foldl_observeEntry_target (l : List WEntry) (s : State) :
    (l.foldl State.observeEntry s).target.regs = (l.foldl Target.absorb s.target).regs ∧
      (l.foldl State.observeEntry s).target.w1c = (l.foldl Target.absorb s.target).w1c := by
  induction l generalizing s with
  | nil => exact ⟨rfl, rfl⟩
  | cons e rest ih =>
    obtain ⟨h1, h2⟩ := ih (s.observeEntry e)
    have h3 := foldl_absorb_same rest (t := (s.observeEntry e).target) (u := s.target.absorb e) rfl rfl
    exact ⟨h1.trans h3.1, h2.trans h3.2⟩

/-- What the block's next read finds. -/
theorem readsAs_eq (s : State) (port : Port) (a : Addr) : s.readsAs port a = settled s (regKey port a) := by
  unfold State.readsAs settled Target.get
  rw [show s.drain.target.regs = _ from (foldl_observeEntry_target s.wq { s with wq := [] }).1]

theorem settled_drain (s : State) (k : Nat) : settled s.drain k = settled s k := by
  unfold settled
  rw [drain_wq]
  exact congrArg (regsGet k) (foldl_observeEntry_target s.wq { s with wq := [] }).1

/-! ### The block's writes, queued and observed (R69, R73) -/

/-- The target observes queued writes in the order they stand in. -/
theorem foldl_observeEntry_seen (l : List WEntry) (s : State) :
    (l.foldl State.observeEntry s).target.seen = l.reverse ++ s.target.seen := by
  induction l generalizing s with
  | nil => rfl
  | cons e rest ih => simp [ih, State.observeEntry]

/-- A drain observes the whole queue (R70). -/
theorem drain_seen (s : State) : s.drain.target.seen = s.wq.reverse ++ s.target.seen :=
  foldl_observeEntry_seen _ _

/-- Observing loses no write. -/
theorem drain_issued (s : State) : s.drain.issued = s.issued := by simp [State.issued, drain_wq, drain_seen]

theorem envMove_issued (s : State) (m : EnvMove) : (s.envMove m).issued = s.issued := by
  cases m with
  | observe =>
    simp only [State.envMove, State.observeOldest]
    split
    · rfl
    · rename_i e rest h
      simp [State.issued, State.observeEntry, h]
  | poke p a v => rfl
  | txdone id b => rfl

/-- At a reset the target observes the kept entries, in order, and the others are lost (R242). -/
theorem settleQueue_seen (s : State) (keep : List Bool) : ∃ l : List WEntry, l.Sublist s.wq ∧
    (s.settleQueue keep).target.seen = l.reverse ++ s.target.seen := by
  refine ⟨((s.wq.zip keep).filter (fun p => p.2)).map (fun p => p.1), ?_, ?_⟩
  · refine ((List.filter_sublist (l := s.wq.zip keep)).map _).trans ?_
    generalize s.wq = w
    induction w generalizing keep with
    | nil => simp
    | cons e rest ih =>
      cases keep with
      | nil => simp
      | cons b keep => simpa using ih keep
  · unfold State.settleQueue
    rw [← List.foldl_map]
    exact foldl_observeEntry_seen _ _

end Sys2Proof.Machine
end

