-- ==== Sys2Proof/Laws/Kept.lean ====
section
/-! SUPPORT. What a command can do, said once: if `P` survives every single thing an action of a command does, a
command that starts in `P` ends in `Q`, whether it answers, faults or is cut by a reset. Each law names the extra
effects its command has (BASE, VPEN, VPSTATE, the counters), and only those. -/

namespace Sys2Proof.Machine

/-- `P` holds throughout a command and `Q` at its end; `F` are the partitions the command may go through. -/
structure Kept (F : PartId → Prop) (P Q : State → Prop) : Prop where
  phase : ∀ s p, P s → P { s with phase := p }
  work : ∀ s w, P s → P { s with work := w }
  tick : ∀ s n, P s → P { s with tick := n }
  host : ∀ s x, P s → P { s with host := x }
  txdone : ∀ s id b, P s → P { s with target := s.target.setTxdone id b }
  /-- an event that issues no write and is neither a response nor a reset; a read answers what is known. -/
  emit : ∀ s e, e.written = none → e.isResponse = false → e.isReset = false → e.wordAligned = true →
    (∀ k v w, e.readOf = some (k, v) → settled s k = some w → v = w) → P s →
    P { s with hist := (s.phase, e) :: s.hist }
  /-- an event that issues a write, which enters WQ. -/
  write : ∀ s e w, e.written = some w → e.wordAligned = true → P s →
    P { s with wq := s.wq ++ [s.entry w.port w.addr w.value], hist := (s.phase, e) :: s.hist }
  drain : ∀ s, P s → P s.drain
  turn : ∀ s, P s → wp turn (fun _ t => P t) (fun _ t => Q t) s
  fatal : ∀ s p, F p → s.partitionOk p = false → P s → Q { s with mode := .fatal }
  finish : ∀ s st v, P s → Q { s with
    hist := (s.phase, .respond st v) :: s.hist
    res := st.code
    rval := v
    mode := .ready
    phase := none }

variable {α β : Type} {F : PartId → Prop} {P Q : State → Prop}

/-- The action goes on in `P`, or is cut in `Q`. -/
def Keeps (P Q : State → Prop) (m : Act α) : Prop :=
  ∀ s, P s → wp m (fun _ t => P t) (fun e t => e = .cut → Q t) s

/-- The action ends, or is cut, in `Q`. -/
def Ends (P Q : State → Prop) (m : Act α) : Prop :=
  ∀ s, P s → wp m (fun _ t => Q t) (fun e t => e = .cut → Q t) s

theorem Keeps.bind {m : Act α} {f : α → Act β} (hm : Keeps P Q m) (hf : ∀ a, Keeps P Q (f a)) :
    Keeps P Q (m >>= f) := fun s hs =>
  (wp_bind m f _ _ s).mpr (wp_mono (hm s hs) (fun a t ht => hf a t ht) (fun _ _ h => h))

theorem Keeps.ends {m : Act α} {f : α → Act β} (hm : Keeps P Q m) (hf : ∀ a, Ends P Q (f a)) :
    Ends P Q (m >>= f) := fun s hs =>
  (wp_bind m f _ _ s).mpr (wp_mono (hm s hs) (fun a t ht => hf a t ht) (fun _ _ h => h))

theorem Keeps.pure (a : α) : Keeps P Q (Pure.pure a : Act α) := fun _ hs => hs

theorem Keeps.get : Keeps P Q (MonadState.get : Act State) := fun _ hs => hs

theorem Keeps.modify {f : State → State} (h : ∀ s, P s → P (f s)) : Keeps P Q (modify f : Act Unit) :=
  fun s hs => h s hs

theorem Keeps.ite {c : Prop} [Decidable c] {m n : Act α} (hm : Keeps P Q m) (hn : Keeps P Q n) :
    Keeps P Q (if c then m else n) := by
  split
  · exact hm
  · exact hn

theorem Ends.ite {c : Prop} [Decidable c] {m n : Act α} (hm : Ends P Q m) (hn : Ends P Q n) :
    Ends P Q (if c then m else n) := by
  split
  · exact hm
  · exact hn

theorem Keeps.refuse (r : Refusal) : Keeps P Q (refuse r : Act α) := fun _ _ h => by cases h

theorem Ends.refuse (r : Refusal) : Ends P Q (Machine.refuse r : Act α) := fun _ _ h => by cases h

namespace Kept

theorem line (h : Kept F P Q) (l : Label) : Keeps P Q (line l) := fun s hs => h.phase s _ hs

theorem subLine (h : Kept F P Q) (l : SubLabel) : Keeps P Q (subLine l) := fun s hs => h.phase s _ hs

theorem endSub (h : Kept F P Q) : Keeps P Q endSub := fun s hs => h.phase s _ hs

theorem setWork (h : Kept F P Q) (f : Work → Work) : Keeps P Q (setWork f) := fun s hs => h.work s _ hs

theorem turns (h : Kept F P Q) : Keeps P Q Machine.turn := fun s hs =>
  wp_mono (h.turn s hs) (fun _ _ k => k) (fun _ _ k _ => k)

theorem requireAligned (a : Addr) : Keeps P Q (requireAligned a) :=
  .ite (.pure _) (.refuse _)

theorem draw (h : Kept F P Q) (f : Nat → α) : Keeps P Q (draw f) := fun s hs => h.tick s _ hs

theorem emits (h : Kept F P Q) (e : Event) (hw : e.written = none) (hr : e.isResponse = false)
    (hz : e.isReset = false) (ha : e.wordAligned = true) (hn : e.readOf = none) : Keeps P Q (Machine.emit e) :=
  fun s hs => h.emit s e hw hr hz ha (by simp [hn]) hs

/-- A read is answered after the queue is drained, with the register's contents where they are known (R70). -/
theorem targetRead (h : Kept F P Q) (p : Port) (a : Addr) (s : State) (hs : P s) :
    wp (targetRead p a)
      (fun v t => P t ∧ t.wq = [] ∧ aligned a = true ∧ ∀ w, t.target.get p a = some w → v = w)
      (fun e t => e = .cut → Q t) s := by
  by_cases ha : aligned a = true
  · simp only [Machine.targetRead, Machine.requireAligned, ha, if_true, wp_bind, wp_pure, wp_modify]
    refine wp_mono (h.turns s hs) (fun _ t ht => ?_) (fun _ _ k => k)
    simp only [targetAnswer, wp_bind, wp_get]
    split
    · rename_i v hv
      refine ⟨h.drain t ht, drain_wq t, trivial, fun w hw => ?_⟩
      rw [hv] at hw
      exact Option.some.inj hw
    · rename_i hv
      refine ⟨h.tick _ _ (h.drain t ht), drain_wq t, trivial, fun w hw => ?_⟩
      have hw' : t.drain.target.get p a = some w := hw
      rw [hv] at hw'
      cases hw'
  · simp [Machine.targetRead, Machine.requireAligned, ha, wp_bind, wp_refuse]

theorem memRead (h : Kept F P Q) (a : Addr) : Keeps P Q (memRead a) := by
  intro s hs
  simp only [Machine.memRead, wp_bind]
  refine wp_mono (h.targetRead .mmio a s hs) (fun v t ht => ?_) (fun _ _ k => k)
  obtain ⟨ht, hq, ha, hv⟩ := ht
  refine h.emit t (.mmioRead a v) rfl rfl rfl ha (fun k x w hx hw => ?_) ht
  simp only [Event.readOf, Option.some.injEq, Prod.mk.injEq] at hx
  obtain ⟨rfl, rfl⟩ := hx
  exact hv w (by simpa [settled, hq, Target.get] using hw)

theorem domRead (h : Kept F P Q) (d : DomId) (a : Addr) : Keeps P Q (domRead d a) := by
  intro s hs
  simp only [Machine.domRead, wp_bind]
  refine wp_mono (h.targetRead (.dom d) a s hs) (fun v t ht => ?_) (fun _ _ k => k)
  obtain ⟨ht, hq, ha, hv⟩ := ht
  refine h.emit t (.domRead d a v) rfl rfl rfl ha (fun k x w hx hw => ?_) ht
  simp only [Event.readOf, Option.some.injEq, Prod.mk.injEq] at hx
  obtain ⟨rfl, rfl⟩ := hx
  exact hv w (by simpa [settled, hq, Target.get] using hw)

theorem memWrite (h : Kept F P Q) (a : Addr) (v : Word) : Keeps P Q (memWrite a v) := by
  intro s hs
  by_cases ha : aligned a = true
  · simp only [Machine.memWrite, targetWrite, Machine.requireAligned, ha, if_true, wp_bind, wp_pure]
    exact wp_mono (h.turns s hs) (fun _ u hu => h.write u (.mmioWrite a v) ⟨.mmio, a, v⟩ rfl ha hu) (fun _ _ k => k)
  · simp [Machine.memWrite, targetWrite, Machine.requireAligned, ha, wp_bind, wp_refuse]

theorem domWrite (h : Kept F P Q) (d : DomId) (a : Addr) (v : Word) : Keeps P Q (domWrite d a v) := by
  intro s hs
  by_cases ha : aligned a = true
  · simp only [Machine.domWrite, targetWrite, Machine.requireAligned, ha, if_true, wp_bind, wp_pure]
    exact wp_mono (h.turns s hs) (fun _ u hu => h.write u (.domWrite d a v) ⟨.dom d, a, v⟩ rfl ha hu) (fun _ _ k => k)
  · simp [Machine.domWrite, targetWrite, Machine.requireAligned, ha, wp_bind, wp_refuse]

theorem domRmw (h : Kept F P Q) (d : DomId) (mask bits : Word) (a : Addr) : Keeps P Q (domRmw d mask bits a) := by
  intro s hs
  simp only [Machine.domRmw, wp_bind]
  refine wp_mono (h.targetRead (.dom d) a s hs) (fun old t ht => ?_) (fun _ _ k => k)
  exact h.write t (.domRmw d a mask bits (merge old mask bits)) ⟨.dom d, a, merge old mask bits⟩ rfl ht.2.2.1 ht.1

theorem callCheckTxdone (h : Kept F P Q) (id : Nat) : Keeps P Q (callCheckTxdone id) := by
  refine h.turns.bind fun _ => Keeps.bind ?_ fun _ => (h.emits _ rfl rfl rfl rfl rfl).bind fun _ => .pure _
  refine Keeps.get.bind fun s => ?_
  split
  · exact .pure _
  · exact h.draw _

theorem callClearTxdone (h : Kept F P Q) (id : Nat) : Keeps P Q (callClearTxdone id) :=
  h.turns.bind fun _ => (Keeps.modify fun s hs => h.txdone s id false hs).bind fun _ => h.emits _ rfl rfl rfl rfl rfl

theorem callRecover (h : Kept F P Q) (id : Nat) : Keeps P Q (callRecover id) :=
  h.turns.bind fun _ => h.emits _ rfl rfl rfl rfl rfl

theorem callPreScale (h : Kept F P Q) (d : DomId) (x : Word) (td : TD) : Keeps P Q (callPreScale d x td) := by
  refine h.turns.bind fun _ => Keeps.bind ?_ fun _ => (h.emits _ rfl rfl rfl rfl rfl).bind fun _ => .pure _
  intro s hs
  simp only [preScaleAnswer, wp_bind, wp_get]
  split
  · exact h.host s _ hs
  · exact h.tick s _ hs

theorem callPostScale (h : Kept F P Q) (d : DomId) (x : Word) (td : TD) (a c : Word) :
    Keeps P Q (callPostScale d x td a c) :=
  h.turns.bind fun _ => h.emits _ rfl rfl rfl rfl rfl

theorem callLookup (h : Kept F P Q) (d : DomId) : Keeps P Q (callLookup d) := by
  refine h.turns.bind fun _ => Keeps.bind ?_ fun _ => (h.emits _ rfl rfl rfl rfl rfl).bind fun _ => .pure _
  intro s hs
  simp only [lookupAnswer, wp_bind, wp_get]
  split
  · exact h.host s _ hs
  · exact h.tick s _ hs

theorem log (h : Kept F P Q) (k : LogKind) (d : DomId) : Keeps P Q (log k d) :=
  h.turns.bind fun _ => h.emits _ rfl rfl rfl rfl rfl

theorem delay (h : Kept F P Q) (n : Nat) : Keeps P Q (delay n) :=
  h.turns.bind fun _ => h.emits _ rfl rfl rfl rfl rfl

theorem respond (h : Kept F P Q) (st : Status) (v : Word) : Ends P Q (respond st v) := by
  intro s hs
  simp only [Machine.respond, wp_bind]
  exact wp_mono (h.turns s hs) (fun _ t ht => by simpa only [wp_emit, wp_modify] using h.finish t st v ht)
    (fun _ _ k => k)

theorem partCheck (h : Kept F P Q) (p : PartId) (hp : F p) : Keeps P Q (partCheck p) := by
  intro s hs
  simp only [Machine.partCheck, wp_bind, wp_get, wp_ite, wp_pure, wp_raiseFatal]
  exact ⟨fun _ => hs, fun hn _ => h.fatal s p hp (by simpa using hn) hs⟩

theorem resolve (h : Kept F P Q) (p : PartId) (inst idx : Addr) : Keeps P Q (resolve p inst idx) :=
  Keeps.get.bind fun _ => (h.setWork _).bind fun _ => .pure _

theorem instRead (h : Kept F P Q) (p : PartId) (hp : F p) (inst idx : Addr) : Keeps P Q (instRead p inst idx) :=
  (h.partCheck p hp).bind fun _ => (h.resolve p inst idx).bind fun _ => h.memRead _

theorem instWrite (h : Kept F P Q) (v : Word) (p : PartId) (hp : F p) (inst idx : Addr) :
    Keeps P Q (instWrite v p inst idx) :=
  (h.partCheck p hp).bind fun _ => (h.resolve p inst idx).bind fun _ => h.memWrite _ _

theorem instRmw (h : Kept F P Q) (mask bits : Word) (p : PartId) (hp : F p) (inst idx : Addr) :
    Keeps P Q (instRmw mask bits p inst idx) :=
  (h.instRead p hp inst idx).bind fun _ => (h.setWork _).bind fun _ => (h.setWork _).bind fun _ =>
    (h.instWrite _ p hp inst idx).bind fun _ => .pure _

theorem backEdge (h : Kept F P Q) (n : Nat) (l : SubLabel) : Keeps P Q (backEdge n l) := .ite (.pure _) (h.subLine l)

theorem pollLoop (h : Kept F P Q) {cond : Act Bool} (hc : Keeps P Q cond) (n left : Nat) (cnt : Word) :
    Keeps P Q (pollLoop cond n left cnt) := by
  induction left generalizing cnt with
  | zero => exact (h.setWork _).bind fun _ => .pure _
  | succ left ih =>
    refine (h.subLine _).bind fun _ => hc.bind fun _ => .ite ((h.setWork _).bind fun _ => .pure _) ?_
    exact (h.subLine _).bind fun _ => (h.setWork _).bind fun _ => (h.subLine _).bind fun _ => (h.delay n).bind fun _ =>
      (h.subLine _).bind fun _ => (h.backEdge _ _).bind fun _ => ih _

theorem pollUntil (h : Kept F P Q) {cond : Act Bool} (hc : Keeps P Q cond) (budget : Word) (n : Nat) :
    Keeps P Q (pollUntil cond budget n) :=
  (h.subLine _).bind fun _ => (h.setWork _).bind fun _ => (h.pollLoop hc n _ _).bind fun _ =>
    h.endSub.bind fun _ => .pure _

theorem isAsserted (h : Kept F P Q) (shift : Shift) (p : PartId) (hp : F p) (inst off : Addr) :
    Keeps P Q (isAsserted shift p inst off) :=
  (h.instRead p hp inst off).bind fun _ => (h.setWork _).bind fun _ => .pure _

theorem clearLoop (h : Kept F P Q) (id n left : Nat) (cnt : Word) : Keeps P Q (clearLoop id n left cnt) := by
  induction left generalizing cnt with
  | zero => exact (h.setWork _).bind fun _ => .pure _
  | succ left ih =>
    refine (h.subLine _).bind fun _ => (h.callClearTxdone id).bind fun _ => (h.subLine _).bind fun _ =>
      (h.callCheckTxdone id).bind fun _ => .ite ?_ ((h.setWork _).bind fun _ => .pure _)
    exact (h.subLine _).bind fun _ => (h.setWork _).bind fun _ => (h.subLine _).bind fun _ => (h.delay n).bind fun _ =>
      (h.subLine _).bind fun _ => (h.backEdge _ _).bind fun _ => ih _

theorem clearTxDone (h : Kept F P Q) (vp : Vp) : Keeps P Q (clearTxDone vp) :=
  (h.subLine _).bind fun _ => (h.setWork _).bind fun _ => Keeps.get.bind fun _ => (h.clearLoop _ _ _ _).bind fun _ =>
    h.endSub.bind fun _ => .pure _

theorem waitIdle (h : Kept F P Q) (d : DomId) (vp : Vp) : Keeps P Q (waitIdle d vp) :=
  Keeps.get.bind fun _ => h.pollUntil ((h.domRead _ _).bind fun _ => .pure _) _ _

theorem placeIn (x : Nat) (m : Word) : Keeps P Q (placeIn x m) := by
  unfold Machine.placeIn
  split
  · exact .pure _
  · exact .refuse _

theorem setInitVoltage (h : Kept F P Q) (d : DomId) (vp : Vp) (f : PmicFn) (volt : Word) :
    Keeps P Q (setInitVoltage d vp f volt) :=
  (h.subLine _).bind fun _ => (h.setWork _).bind fun _ => (h.subLine _).bind fun _ => (h.domRead _ _).bind fun _ =>
    (h.setWork _).bind fun _ => (h.subLine _).bind fun _ => (placeIn _ _).bind fun _ => (h.setWork _).bind fun _ =>
    (h.subLine _).bind fun _ => (h.domWrite _ _ _).bind fun _ => (h.subLine _).bind fun _ =>
    (h.domWrite _ _ _).bind fun _ => (h.subLine _).bind fun _ => (h.domWrite _ _ _).bind fun _ =>
    h.endSub.bind fun _ => .pure _

/-! ### The commands -/

variable {s t : State}

theorem execInitBases (h : Kept F P Q) {bases : List Addr} (hb : ∀ s, P s → P (s.withBases bases))
    (hs : P (s.accept (.initBases bases))) (hx : execInitBases bases s = .next t) : Q t :=
  command_post hx <| ((h.line _).ends fun _ => (Keeps.modify hb).ends fun _ => (h.line _).ends fun _ =>
    h.respond _ _) _ hs

theorem execRead (h : Kept F P Q) {p : PartId} {inst idx : Addr} (hp : F p) (hs : P (s.accept (.read p inst idx)))
    (hx : execRead p inst idx s = .next t) : Q t :=
  command_post hx <| ((h.line _).ends fun _ => (h.instRead _ hp _ _).ends fun _ => (h.setWork _).ends fun _ =>
    (h.line _).ends fun _ => h.respond _ _) _ hs

theorem execWrite (h : Kept F P Q) {v : Word} {p : PartId} {inst idx : Addr}
    (hp : F p) (hs : P (s.accept (.write v p inst idx))) (hx : execWrite v p inst idx s = .next t) : Q t :=
  command_post hx <| ((h.line _).ends fun _ => (h.instWrite _ _ hp _ _).ends fun _ => (h.line _).ends fun _ =>
    h.respond _ _) _ hs

theorem execRmw (h : Kept F P Q) {mask bits : Word} {p : PartId} {inst idx : Addr}
    (hp : F p) (hs : P (s.accept (.rmw mask bits p inst idx))) (hx : execRmw mask bits p inst idx s = .next t) : Q t :=
  command_post hx <| ((h.line _).ends fun _ => (h.instRmw _ _ _ hp _ _).ends fun _ => (h.line _).ends fun _ =>
    h.respond _ _) _ hs

theorem execRstIsAsserted (h : Kept F P Q) {shift : Shift} {p : PartId} {inst off : Addr}
    (hp : F p) (hs : P (s.accept (.rstIsAsserted shift p inst off))) (hx : execRstIsAsserted shift p inst off s = .next t) :
    Q t :=
  command_post hx <| ((h.line _).ends fun _ => (h.isAsserted _ _ hp _ _).ends fun _ => (h.setWork _).ends fun _ =>
    (h.line _).ends fun _ => h.respond _ _) _ hs

theorem execRstAssert (h : Kept F P Q) {shift : Shift} {p : PartId} {inst off : Addr}
    (hp : F p) (hs : P (s.accept (.rstAssert shift p inst off))) (hx : execRstAssert shift p inst off s = .next t) : Q t :=
  command_post hx <| ((h.line _).ends fun _ => (h.setWork _).ends fun _ => (h.line _).ends fun _ =>
    (h.instRmw _ _ _ hp _ _).ends fun _ => (h.line _).ends fun _ => h.respond _ _) _ hs

theorem execRstDeassert (h : Kept F P Q) {shift : Shift} {p : PartId} {inst off : Addr}
    (hp : F p) (hs : P (s.accept (.rstDeassert shift p inst off))) (hx : execRstDeassert shift p inst off s = .next t) : Q t :=
  command_post hx <| ((h.line _).ends fun _ => (h.isAsserted _ _ hp _ _).ends fun _ => Ends.ite
    ((h.line _).ends fun _ => (h.setWork _).ends fun _ => (h.line _).ends fun _ => Keeps.get.ends fun _ =>
      (h.instRmw _ _ _ hp _ _).ends fun _ =>
      (h.line _).ends fun _ => (h.instRmw _ _ _ hp _ _).ends fun _ => (h.line _).ends fun _ =>
      (h.pollUntil (h.isAsserted _ _ hp _ _) _ _).ends fun _ => (h.line _).ends fun _ =>
      Ends.ite (h.respond _ _) (h.respond _ _))
    (h.respond _ _)) _ hs

theorem execWarmReset (h : Kept F P Q) (hp : F s.cfg.partPrm) (hs : P (s.accept .warmReset)) (hx : execWarmReset s = .next t) : Q t :=
  command_post hx <| ((h.line _).ends fun _ => (h.instRead _ hp _ _).ends fun _ => (h.setWork _).ends fun _ =>
    (h.line _).ends fun _ => (h.instWrite _ _ hp _ _).ends fun _ => (h.line _).ends fun _ => (h.instRead _ hp _ _).ends fun _ =>
    (h.setWork _).ends fun _ => (h.line _).ends fun _ => h.respond _ _) _ hs

theorem execColdReset (h : Kept F P Q) (hp : F s.cfg.partPrm) (hs : P (s.accept .coldReset)) (hx : execColdReset s = .next t) : Q t :=
  command_post hx <| ((h.line _).ends fun _ => (h.instWrite _ _ hp _ _).ends fun _ => (h.line _).ends fun _ =>
    (h.instRead _ hp _ _).ends fun _ => (h.setWork _).ends fun _ =>
    (h.line _).ends fun _ => (h.instWrite _ _ hp _ _).ends fun _ => (h.line _).ends fun _ => (h.instRead _ hp _ _).ends fun _ =>
    (h.setWork _).ends fun _ => (h.line _).ends fun _ => (h.delay _).ends fun _ => (h.line _).ends fun _ =>
    h.respond _ _) _ hs

theorem configError (h : Kept F P Q) (d : DomId) :
    Ends P Q (do Machine.log .configError d; Machine.respond .ok 0) :=
  (h.log _ _).ends fun _ => h.respond _ _

theorem execVpReadVolt (h : Kept F P Q) {d : DomId} (hs : P (s.accept (.vpReadVolt d)))
    (hx : execVpReadVolt d s = .next t) : Q t := by
  refine command_post hx (Keeps.ends (h.line _) (fun _ => ?_) _ hs)
  split
  · exact h.configError d
  · exact (h.line _).ends fun _ => (h.domRead _ _).ends fun _ => (h.setWork _).ends fun _ => (h.line _).ends fun _ =>
      (h.setWork _).ends fun _ => (h.line _).ends fun _ => h.respond _ _

theorem execVpInit (h : Kept F P Q) {d : DomId} (hv : ∀ s, P s → P (s.withVpen d false))
    (hs : P (s.accept (.vpInit d))) (hx : execVpInit d s = .next t) : Q t := by
  refine command_post hx (Keeps.ends (h.line _) (fun _ => ?_) _ hs)
  split
  · exact h.configError d
  · exact (h.line _).ends fun _ => (Keeps.modify hv).ends fun _ => (h.line _).ends fun _ => (h.setWork _).ends fun _ =>
      (h.line _).ends fun _ => (placeIn _ _).ends fun _ => (h.domWrite _ _ _).ends fun _ => (h.line _).ends fun _ =>
      (placeIn _ _).ends fun _ => (placeIn _ _).ends fun _ => (h.domWrite _ _ _).ends fun _ => (h.line _).ends fun _ =>
      (placeIn _ _).ends fun _ => (placeIn _ _).ends fun _ => (h.domWrite _ _ _).ends fun _ => (h.line _).ends fun _ =>
      (placeIn _ _).ends fun _ => (placeIn _ _).ends fun _ => (placeIn _ _).ends fun _ =>
      (h.domWrite _ _ _).ends fun _ => (h.line _).ends fun _ => h.respond _ _

theorem execVpTxdone (h : Kept F P Q) {d : DomId} (hs : P (s.accept (.vpTxdone d)))
    (hx : execVpTxdone d s = .next t) : Q t := by
  refine command_post hx (Keeps.ends (h.line _) (fun _ => ?_) _ hs)
  split
  · exact .refuse _
  · exact (h.callCheckTxdone _).ends fun _ => (h.setWork _).ends fun _ => (h.line _).ends fun _ => h.respond _ _

theorem execVpTxclr (h : Kept F P Q) {d : DomId} (hs : P (s.accept (.vpTxclr d)))
    (hx : execVpTxclr d s = .next t) : Q t := by
  refine command_post hx (Keeps.ends (h.line _) (fun _ => ?_) _ hs)
  split
  · exact .refuse _
  · exact (h.callClearTxdone _).ends fun _ => (h.line _).ends fun _ => h.respond _ _

theorem execVpErrgain (h : Kept F P Q) {d : DomId} {td : Option TD} (hs : P (s.accept (.vpErrgain d td)))
    (hx : execVpErrgain d td s = .next t) : Q t := by
  refine command_post hx (Keeps.ends (h.line _) (fun _ => ?_) _ hs)
  split
  · exact (h.line _).ends fun _ => (placeIn _ _).ends fun _ => (h.domRmw _ _ _ _).ends fun _ => (h.line _).ends fun _ =>
      h.respond _ _
  · exact h.respond _ _

theorem reportUnless (hr : ∀ d dom vp, Keeps P Q (reportError d dom vp)) (ok : Bool) (d : DomId) (dom : Dom)
    (vp : Vp) : Keeps P Q (reportUnless ok d dom vp) := .ite (.pure _) (hr d dom vp)

theorem setVpstate (hv : ∀ s x, P s → P { s with vpstate := x }) (x : VpState) : Keeps P Q (setVpstate x) :=
  fun s hs => hv s x hs

theorem execVpScale (h : Kept F P Q) {d : DomId} {td : Option TD} (hv : ∀ s x, P s → P { s with vpstate := x })
    (hr : ∀ d dom vp, Keeps P Q (reportError d dom vp)) (hs : P (s.accept (.vpScale d td)))
    (hx : execVpScale d td s = .next t) : Q t := by
  have timeout : ∀ dom vp, Ends P Q (scaleTimeout d dom vp) := fun dom vp =>
    (hr _ _ _).ends fun _ => (setVpstate hv _).ends fun _ => h.respond _ _
  have ramp : ∀ dom vp f td a b c, Ends P Q (scaleRamp d dom vp f td a b c) := fun dom vp f td a b c =>
    (h.line _).ends fun _ => (setVpstate hv _).ends fun _ => (h.setInitVoltage _ _ _ _).ends fun _ =>
    (h.line _).ends fun _ => (h.domWrite _ _ _).ends fun _ => (setVpstate hv _).ends fun _ => (h.line _).ends fun _ =>
    Keeps.get.ends fun _ => (h.pollUntil (h.callCheckTxdone _) _ _).ends fun _ => (reportUnless hr _ _ _ _).ends fun _ =>
    (h.line _).ends fun _ => (h.callPostScale _ _ _ _ _).ends fun _ => (h.line _).ends fun _ =>
    (h.clearTxDone _).ends fun _ => (reportUnless hr _ _ _ _).ends fun _ => (h.line _).ends fun _ =>
    (h.domWrite _ _ _).ends fun _ => (h.line _).ends fun _ => (setVpstate hv _).ends fun _ => h.respond _ _
  have idle : ∀ dom vp f td, Ends P Q (scaleIdle d dom vp f td) := fun dom vp f td => by
    refine (h.line _).ends fun _ => Keeps.get.ends fun _ => (h.setWork _).ends fun _ =>
      (h.callPreScale _ _ _).ends fun r => ?_
    cases r with
    | err e => exact (setVpstate hv _).ends fun _ => h.respond _ _
    | ok a b =>
      exact (h.setWork _).ends fun _ => (h.line _).ends fun _ => (h.clearTxDone _).ends fun _ =>
        .ite (ramp _ _ _ _ _ _ _) (timeout _ _)
  refine command_post hx (Keeps.ends (h.line _) (fun _ => (setVpstate hv _).ends fun _ => (h.line _).ends fun _ => ?_)
    _ hs)
  split
  · split
    · exact .refuse _
    · exact (h.line _).ends fun _ => (h.waitIdle _ _).ends fun _ => .ite (idle _ _ _ _) (timeout _ _)
  · exact (setVpstate hv _).ends fun _ => h.respond _ _

theorem execVpEnable (h : Kept F P Q) {d : DomId} (hv : ∀ s, P s → P (s.withVpen d true))
    (hs : P (s.accept (.vpEnable d))) (hx : execVpEnable d s = .next t) : Q t := by
  refine command_post hx (Keeps.ends (h.line _) (fun _ => ?_) _ hs)
  split
  · exact h.configError d
  · refine (h.line _).ends fun _ => .ite (h.respond _ _) ?_
    refine (h.line _).ends fun _ => (h.callLookup _).ends fun r => ?_
    cases r with
    | none => exact h.configError d
    | some td =>
      exact (h.line _).ends fun _ => Keeps.get.ends fun _ => (h.setInitVoltage _ _ _ _).ends fun _ =>
        (h.line _).ends fun _ => (h.domWrite _ _ _).ends fun _ => (h.line _).ends fun _ =>
        (Keeps.modify hv).ends fun _ => (h.line _).ends fun _ => h.respond _ _

theorem execVpDisable (h : Kept F P Q) {d : DomId} (hv : ∀ s, P s → P (s.withVpen d false))
    (hr : ∀ d dom vp, Keeps P Q (reportError d dom vp)) (hs : P (s.accept (.vpDisable d)))
    (hx : execVpDisable d s = .next t) : Q t := by
  refine command_post hx (Keeps.ends (h.line _) (fun _ => ?_) _ hs)
  split
  · exact h.configError d
  · refine (h.line _).ends fun _ => .ite ?_ ((h.log _ _).ends fun _ => h.respond _ _)
    exact (h.line _).ends fun _ => (h.waitIdle _ _).ends fun _ => (reportUnless hr _ _ _ _).ends fun _ =>
      (h.line _).ends fun _ => (h.domRead _ _).ends fun _ => (h.setWork _).ends fun _ => (h.domWrite _ _ _).ends fun _ =>
      (h.line _).ends fun _ => (h.waitIdle _ _).ends fun _ => (reportUnless hr _ _ _ _).ends fun _ =>
      (h.line _).ends fun _ => (Keeps.modify hv).ends fun _ => (h.line _).ends fun _ => h.respond _ _

/-- `ReportError`, when `P` also survives changes of MSG and REC. -/
theorem reportError (h : Kept F P Q) (hm : ∀ s x, P s → P { s with msgCnt := x })
    (hc : ∀ s x, P s → P { s with recCnt := x }) (d : DomId) (dom : Dom) (vp : Vp) :
    Keeps P Q (reportError d dom vp) := by
  refine Keeps.bind ?_ fun _ => Keeps.bind (Keeps.ite ?_ (.pure _)) fun _ => h.endSub
  · exact (h.subLine _).bind fun _ => Keeps.get.bind fun _ => (h.log _ _).bind fun _ =>
      Keeps.modify fun s hs => hm s _ hs
  · exact (h.subLine _).bind fun _ => Keeps.get.bind fun _ => (Keeps.modify fun s hs => hc s _ hs).bind fun _ =>
      Keeps.ite ((h.callRecover _).bind fun _ => Keeps.modify fun s hs => hc s _ hs) (.pure _)

end Kept

end Sys2Proof.Machine
end

