-- ==== Sys2Proof/Laws/Frame.lean ====
section
/-! SUPPORT. What a turn can do, said once (`Keeps.turnOf`); the canonical form of ENV's registers and the frame of the
target are kept throughout every command. -/

namespace Sys2Proof.Machine

/-- What survives every move of the other agents survives a turn, and what a reset establishes holds where it cuts. -/
structure MovesKeep (P Q : State → Prop) : Prop where
  script : ∀ s sc, P s → P { s with script := sc }
  tick : ∀ s n, P s → P { s with tick := n }
  env : ∀ s m, P s → P (s.envMove m)
  block : ∀ s keep, P s → Q (s.blockReset keep)
  soc : ∀ s keep, P s → s.target.armed = true → Q (s.socReset keep)
  envAfter : ∀ s m, Q s → Q (s.envMove m)
  blockAfter : ∀ s keep, Q s → Q (s.blockReset keep)
  socAfter : ∀ s keep, Q s → s.target.armed = true → Q (s.socReset keep)

variable {P Q : State → Prop}

theorem MovesKeep.after (h : MovesKeep P Q) (ms : List Move) (s : State) (hs : Q s) : Q (runMoves ms s).1 := by
  induction ms generalizing s with
  | nil => exact hs
  | cons m rest ih =>
    cases m with
    | env e => exact ih _ (h.envAfter s e hs)
    | blockReset keep => exact ih _ (h.blockAfter s keep hs)
    | socReset keep =>
      unfold runMoves
      split
      · exact ih _ (h.socAfter s keep hs ‹_›)
      · exact ih _ hs

theorem MovesKeep.moves (h : MovesKeep P Q) (ms : List Move) (s : State) (hs : P s) :
    ((runMoves ms s).2 = true → Q (runMoves ms s).1) ∧ ((runMoves ms s).2 = false → P (runMoves ms s).1) := by
  induction ms generalizing s with
  | nil => exact ⟨fun k => by simp [runMoves] at k, fun _ => hs⟩
  | cons m rest ih =>
    cases m with
    | env e => exact ih _ (h.env s e hs)
    | blockReset keep => exact ⟨fun _ => h.after rest _ (h.block s keep hs), fun k => by simp [runMoves] at k⟩
    | socReset keep =>
      unfold runMoves
      split
      · exact ⟨fun _ => h.after rest _ (h.soc s keep hs ‹_›), fun k => by simp at k⟩
      · exact ih _ hs

theorem MovesKeep.freeMoves (h : MovesKeep P Q) (s : State) (hs : P s) : P s.freeMoves := by
  rw [freeMoves_eq]
  have hf : ∀ (l : List EnvMove) (u : State), P u → P (l.foldl State.envMove u) := by
    intro l
    induction l with
    | nil => exact fun _ hu => hu
    | cons m rest ih => exact fun u hu => ih _ (h.env u m hu)
  exact h.tick _ (s.tick + 1) (hf (Config.freeMoves s.tick) s hs)

theorem MovesKeep.freeTurn (h : MovesKeep P Q) (s : State) (hs : P s) :
    (s.freeTurn.2 = true → Q s.freeTurn.1) ∧ (s.freeTurn.2 = false → P s.freeTurn.1) := by
  have hf := h.freeMoves s hs
  obtain hc | ⟨keep, -, ha, hc⟩ := freeTurn_cases s
  · rw [hc]
    exact ⟨nofun, fun _ => hf⟩
  · rw [hc]
    exact ⟨fun _ => h.soc _ keep hf ha, nofun⟩

/-- A turn either goes on in `P` or has a reset in it and ends in `Q`. -/
theorem MovesKeep.takeTurn (h : MovesKeep P Q) (s : State) (hs : P s) :
    (s.takeTurn.2 = true → Q s.takeTurn.1) ∧ (s.takeTurn.2 = false → P s.takeTurn.1) := by
  unfold State.takeTurn
  cases s.script with
  | nil => exact h.freeTurn s hs
  | cons ms rest => exact h.moves ms { s with script := rest } (h.script s rest hs)

theorem MovesKeep.turn (h : MovesKeep P Q) (s : State) (hs : P s) :
    wp turn (fun _ t => P t) (fun _ t => Q t) s := by
  obtain ⟨h1, h2⟩ := h.takeTurn s hs
  unfold wp Machine.turn
  cases hr : s.takeTurn.2 with
  | true => exact h1 hr
  | false => exact h2 hr

/-- The reset that ends FATAL (R212, R243). -/
theorem MovesKeep.awaitReset (h : MovesKeep P Q) (script : List (List Move)) (s : State) (hs : P s) :
    (Machine.awaitReset script s).2 = true → Q (Machine.awaitReset script s).1 := by
  induction script generalizing s with
  | nil => exact (h.freeTurn s hs).1
  | cons ms rest ih =>
    obtain ⟨h1, h2⟩ := h.moves ms { s with script := rest } (h.script s rest hs)
    simp only [Machine.awaitReset]
    split
    · exact h1
    · rename_i hr
      exact ih _ (h2 (by simpa using hr))

/-- The moves of a turn, for what depends on the block's own state only. -/
theorem MovesKeep.of (env : ∀ s t, EnvOnly s t → P s → P t) (envAfter : ∀ s t, EnvOnly s t → Q s → Q t)
    (reset : ∀ s t, WasReset s t → P s → Q t) (resetAfter : ∀ s t, WasReset s t → Q s → Q t) : MovesKeep P Q where
  script s sc := env s _ (.of_fields s List.suffix_rfl sc s.target s.tick)
  tick s n := env s _ (.of_fields s List.suffix_rfl s.script s.target n)
  env s m := env s _ (envMove_envOnly s m)
  block s k := reset s _ (blockReset_wasReset s k)
  soc s k h _ := reset s _ (socReset_wasReset s k) h
  envAfter s m := envAfter s _ (envMove_envOnly s m)
  blockAfter s k := resetAfter s _ (blockReset_wasReset s k)
  socAfter s k h _ := resetAfter s _ (socReset_wasReset s k) h

/-- A command, for what depends on the block's own state only; `R` is what a reset that cuts it leaves. -/
theorem Kept.of {F : PartId → Prop} {R : State → Prop} (cut : ∀ s, R s → Q s)
    (env : ∀ s t, EnvOnly s t → P s → P t) (envAfter : ∀ s t, EnvOnly s t → R s → R t)
    (reset : ∀ s t, WasReset s t → P s → R t) (resetAfter : ∀ s t, WasReset s t → R s → R t)
    (inner : ∀ s p w x, P s → P { s with phase := p, work := w, host := x })
    (emit : ∀ s e, e.isResponse = false → e.isReset = false → e.wordAligned = true → P s →
      P { s with hist := (s.phase, e) :: s.hist })
    (wq : ∀ s q, P s → P { s with wq := q })
    (fatal : ∀ s p, F p → s.partitionOk p = false → P s → Q { s with mode := .fatal })
    (finish : ∀ s st v, P s → Q { s with
      hist := (s.phase, .respond st v) :: s.hist
      res := st.code
      rval := v
      mode := .ready
      phase := none }) : Kept F P Q where
  phase s p := inner s p s.work s.host
  work s w := inner s s.phase w s.host
  host s x := inner s s.phase s.work x
  tick s n := env s _ (.of_fields s List.suffix_rfl s.script s.target n)
  txdone s id b := env s _ (.of_fields s List.suffix_rfl s.script _ s.tick)
  emit s e _ h1 h2 h3 _ := emit s e h1 h2 h3
  write s e w hw ha h := emit { s with wq := s.wq ++ [s.entry w.port w.addr w.value] } e (by cases e <;> first | rfl | cases hw)
    (by cases e <;> first | rfl | cases hw) ha (wq s _ h)
  drain s := env s _ (drain_envOnly s)
  turn s h := wp_mono ((MovesKeep.of env envAfter reset resetAfter).turn s h) (fun _ _ k => k) (fun _ t k => cut t k)
  fatal := fatal
  finish := finish

/-- The turns ahead of `t` are among those ahead of `s`: no reset where none was, and none where none is left. -/
structure Onward (s t : State) : Prop where
  calm : s.noResets = true → t.noResets = true
  script : s.script = [] → t.script = []

/-- Where no turn of the script is left, a turn leaves none. -/
theorem takeTurn_script {s : State} (h : s.script = []) (hc : s.takeTurn.2 = false) : s.takeTurn.1.script = [] := by
  simp only [State.takeTurn, h] at hc ⊢
  obtain hf | ⟨keep, -, -, hf⟩ := freeTurn_cases s
  · rw [hf]
    exact h
  · rw [hf] at hc
    cases hc

/-- What a turn does, said once: ENV's moves, or a reset. -/
theorem takeTurn_cases (s : State) :
    (s.takeTurn.2 = false ∧ EnvOnly s s.takeTurn.1 ∧ Onward s s.takeTurn.1) ∨
      (s.takeTurn.2 = true ∧ s.noResets = false ∧ ResetSince s s.takeTurn.1) := by
  have hm : MovesKeep (EnvOnly s) (ResetSince s) := by
    refine .of (fun u t h k => k.trans h) (fun u t h k => ?_) (fun u t h k => ?_) (fun u t h k => ?_)
    · obtain ⟨es, e, h1, h2⟩ := k
      exact ⟨es, e, h.events.trans h1, h2⟩
    · obtain ⟨e, h1, h2⟩ := h.events
      exact ⟨[e], e, by rw [h2, k.events]; rfl, List.mem_singleton_self e, h1⟩
    · obtain ⟨es, e, h1, h2, h3⟩ := k
      obtain ⟨x, -, hx⟩ := h.events
      exact ⟨x :: es, e, by rw [hx, h1]; rfl, List.mem_cons_of_mem x h2, h3⟩
  obtain ⟨h1, h2⟩ := hm.takeTurn s (EnvOnly.refl s)
  cases hr : s.takeTurn.2 with
  | false => exact .inl ⟨rfl, h2 hr, fun hs => (takeTurn_calm hs).2.2, fun hs => takeTurn_script hs hr⟩
  | true =>
    refine .inr ⟨rfl, ?_, h1 hr⟩
    cases hs : s.noResets with
    | false => rfl
    | true =>
      rw [(takeTurn_calm hs).1] at hr
      cases hr

/-- A turn goes on after ENV's moves, or a reset cuts the command. -/
theorem wp_turn {R : Unit → State → Prop} {E : Stop → State → Prop} {s : State}
    (k : ∀ t, EnvOnly s t → Onward s t → R () t)
    (c : ∀ t, s.noResets = false → ResetSince s t → E .cut t) : wp Machine.turn R E s := by
  obtain ⟨h1, h2, h3⟩ | ⟨h1, h2, h3⟩ := takeTurn_cases s
  · simp only [wp, Machine.turn, h1, Bool.false_eq_true, if_false]
    exact k _ h2 h3
  · simp only [wp, Machine.turn, h1, if_true]
    exact c _ h2 h3

theorem State.RequestsAmong.append {xs : List Event} {s : State} (ys : List Event) (h : s.RequestsAmong xs) :
    s.RequestsAmong (ys ++ xs) := by
  obtain ⟨a, v, h1, h2⟩ := h
  exact ⟨a, v, List.mem_append_right _ h1, h2⟩

/-- A write that asks for no global reset brings no reset ahead (R243). -/
theorem issue_noResets {s : State} {e : Event} {w : Write} {h : List (Option Phase × Event)} (hw : e.written = some w)
    (hr : e = .mmioWrite w.addr w.value → s.requestsGlobalReset w.addr w.value = false) (hs : s.noResets = true) :
    { s with wq := s.wq ++ [s.entry w.port w.addr w.value], hist := h }.noResets = true := by
  have hq : (s.entry w.port w.addr w.value).request = false := by
    cases e <;> simp only [Event.written, Option.some.injEq, reduceCtorEq] at hw <;> subst hw
    · exact hr rfl
    · rfl
    · rfl
  rw [← hs]
  simp only [State.noResets, State.requestPending, List.any_append, List.any_cons, List.any_nil, hq, Bool.or_false]

/-- The response, whatever the command did before it. -/
theorem wp_respond {st : Status} {v : Word} {R : Unit → State → Prop} {E : Stop → State → Prop} {s : State}
    (k : ∀ t, EnvOnly s t → R () { t with
      hist := (t.phase, .respond st v) :: t.hist
      res := st.code
      rval := v
      mode := .ready
      phase := none })
    (c : ∀ t, s.noResets = false → ResetSince s t → E .cut t) : wp (Machine.respond st v) R E s := by
  simp only [Machine.respond, wp_bind]
  exact wp_turn (fun t ht _ => k t ht) c

/-! ### The canonical form of ENV's registers -/

theorem foldl_observeEntry_wf (l : List WEntry) (s : State) (h : s.target.wf = true) :
    (l.foldl State.observeEntry s).target.wf = true := by
  induction l generalizing s with
  | nil => exact h
  | cons e rest ih => exact ih _ (observeEntry_wf s e h)

theorem drain_wf (s : State) (h : s.target.wf = true) : s.drain.target.wf = true := foldl_observeEntry_wf _ _ h

theorem envMove_wf (s : State) (m : EnvMove) (h : s.target.wf = true) : (s.envMove m).target.wf = true := by
  cases m with
  | observe =>
    simp only [State.envMove, State.observeOldest]
    split
    · exact h
    · exact observeEntry_wf _ _ h
  | poke p a v => exact put_wf _ _ _ _ h
  | txdone id b => exact h

theorem settleQueue_wf (s : State) (keep : List Bool) (h : s.target.wf = true) :
    (s.settleQueue keep).target.wf = true := by
  unfold State.settleQueue
  rw [← List.foldl_map]
  exact foldl_observeEntry_wf _ _ h

theorem blockReset_wf (s : State) (keep : List Bool) (h : s.target.wf = true) :
    (s.blockReset keep).target.wf = true := settleQueue_wf s keep h

theorem socReset_wf (s : State) (keep : List Bool) : (s.socReset keep).target.wf = true := rfl

theorem wf_movesKeep : MovesKeep (fun s => s.target.wf = true) (fun s => s.target.wf = true) :=
  ⟨fun _ _ h => h, fun _ _ h => h, envMove_wf, blockReset_wf, fun s k _ _ => socReset_wf s k, envMove_wf, blockReset_wf,
    fun s k _ _ => socReset_wf s k⟩

/-- Every operation of a command keeps the canonical form. -/
theorem wf_kept : Kept (fun _ => True) (fun s => s.target.wf = true) (fun s => s.target.wf = true) where
  phase _ _ h := h
  work _ _ h := h
  tick _ _ h := h
  host _ _ h := h
  txdone _ _ _ h := h
  emit _ _ _ _ _ _ _ h := h
  write _ _ _ _ _ h := h
  drain := drain_wf
  turn := wf_movesKeep.turn
  fatal _ _ _ _ h := h
  finish _ _ _ h := h

/-! ### The frame of the target -/

/-- A queued write changes no register but its own. -/
theorem settled_write (s : State) (w : WEntry) (h : List (Option Phase × Event)) (k : Nat)
    (hk : k ≠ regKey w.port w.addr) : settled { s with wq := s.wq ++ [w], hist := h } k = settled s k := by
  simp only [settled, List.foldl_append, List.foldl_cons, List.foldl_nil]
  exact absorb_get_other _ w k hk

/-- The register `k` keeps its value while no other agent moves and no event of the command writes it. -/
def Framed (s₀ t : State) : Prop :=
  t.undisturbed ∧ ∃ es, t.events = es ++ s₀.events ∧
    (t.script ≠ [] → ∀ k, (∀ w ∈ writesOf es, k ≠ regKey w.port w.addr) → settled t k = settled s₀ k)

theorem Framed.refl {s : State} (h : s.undisturbed) : Framed s s := ⟨h, [], rfl, fun _ _ _ => rfl⟩

theorem Framed.event {s₀ t : State} (h : Framed s₀ t) (p : Option Phase) (e : Event) (he : e.written = none) :
    Framed s₀ { t with hist := (p, e) :: t.hist } := by
  obtain ⟨hu, es, h1, h2⟩ := h
  refine ⟨hu, e :: es, congrArg (List.cons e) h1, fun hs k hk => h2 hs k ?_⟩
  simpa [writesOf, he] using hk

theorem Framed.turn {s₀ t : State} (h : Framed s₀ t) :
    wp turn (fun _ u => Framed s₀ u) (fun _ u => Framed s₀ u) t := by
  obtain ⟨hu, es, h1, h2⟩ := h
  cases hs : t.script with
  | nil =>
    have hf := freeMoves_script t
    have hq : Framed s₀ t.freeMoves :=
      ⟨fun ms hm => by simp [hf, hs] at hm, es, (freeMoves_envOnly t).events.trans h1, fun hn => absurd (hf.trans hs) hn⟩
    simp only [wp, Machine.turn, State.takeTurn, hs]
    obtain hc | ⟨keep, h3, -, hc⟩ := freeTurn_cases t
    · simpa [hc] using hq
    · obtain ⟨e, -, he⟩ := (socReset_wasReset t.freeMoves keep).events
      have hsc : (t.freeMoves.socReset keep).script = [] := ((settleQueue_script _ _).trans hf).trans hs
      simp only [hc, if_true]
      refine ⟨fun ms hm => by simp [hsc] at hm, e :: es, ?_, fun hn => absurd hsc hn⟩
      rw [he, (freeMoves_envOnly t).events, h1]
      rfl
  | cons ms rest =>
    have hm : ms = [] := hu ms (by simp [hs])
    subst hm
    simp only [wp, turn_quiet t rest hs]
    refine ⟨fun ms hm => hu ms (by simp [hs, hm]), es, h1, fun _ k hk => h2 (by simp [hs]) k hk⟩

/-- The frame is kept throughout a command. -/
theorem framed_kept (s₀ : State) : Kept (fun _ => True) (Framed s₀) (Framed s₀) where
  phase _ _ h := h
  work _ _ h := h
  tick _ _ h := h
  host _ _ h := h
  txdone s id b h := by
    obtain ⟨hu, es, h1, h2⟩ := h
    refine ⟨hu, es, h1, fun hs k hk => Eq.trans ?_ (h2 hs k hk)⟩
    exact congrArg (regsGet k) (foldl_absorb_same s.wq (t := s.target.setTxdone id b) (u := s.target) rfl rfl).1
  emit s e hw _ _ _ _ h := h.event _ e hw
  write s e w hw _ h := by
    obtain ⟨hu, es, h1, h2⟩ := h
    refine ⟨hu, e :: es, congrArg (List.cons e) h1, fun hs k hk => ?_⟩
    have hk' : k ≠ regKey w.port w.addr ∧ ∀ x ∈ writesOf es, k ≠ regKey x.port x.addr := by
      simpa [writesOf, hw] using hk
    rw [settled_write _ _ _ _ hk'.1]
    exact h2 hs k hk'.2
  drain s h := by
    obtain ⟨hu, es, h1, h2⟩ := h
    have hd := drain_envOnly s
    refine ⟨?_, es, (congrArg (List.map _) hd.hist).trans h1, ?_⟩
    · intro ms hm
      exact hu ms (by rwa [drain_script] at hm)
    · intro hs k hk
      rw [drain_script] at hs
      exact (settled_drain s k).trans (h2 hs k hk)
  turn s h := h.turn
  fatal _ _ _ _ h := h
  finish _ _ _ h := h.event _ _ rfl

/-- The port and address of a register, from its key. -/
theorem regKey_injective {p q : Port} {a b : Addr} (h : regKey p a = regKey q b) : p = q ∧ a = b := by
  have hp : portNumber p = portNumber q ∧ @Eq Nat a b := by
    have h1 : portNumber p < 512 := by
      cases p <;> simp only [portNumber]
      · omega
      · rename_i d
        have := d.isLt
        omega
    have h2 : portNumber q < 512 := by
      cases q <;> simp only [portNumber]
      · omega
      · rename_i d
        have := d.isLt
        omega
    simp only [regKey] at h
    omega
  refine ⟨?_, hp.2⟩
  cases p <;> cases q <;> simp only [portNumber] at hp
  · rfl
  · omega
  · omega
  · exact congrArg Port.dom (BitVec.eq_of_toNat_eq (by omega))

/-- From the frame of a command and its events, what it stores to. -/
theorem Framed.onlyStores {s₀ t : State} {es : List Event} {l : List (Port × Addr)}
    (h : s₀.undisturbed → Framed s₀ t) (he : t.events = es ++ s₀.events)
    (hl : ∀ w ∈ writesOf es, (w.port, w.addr) ∈ l) : OnlyStores s₀ t l := by
  intro hu hs port a ha
  obtain ⟨_, es', h1, h2⟩ := h hu
  have : es' = es := List.append_cancel_right (h1.symm.trans he)
  subst this
  rw [readsAs_eq, readsAs_eq]
  refine h2 hs _ fun w hw hk => ha ?_
  obtain ⟨h3, h4⟩ := regKey_injective hk
  rw [h3, h4]
  exact hl w hw

end Sys2Proof.Machine
end

