-- ==== Sys2Proof/Laws/Trace.lean ====
section
/-! SUPPORT. One law per operation of a command. `Did E b s es` says that the state `s`, reached inside a command, is
the block state `b` with the events `es` (newest first) added, and that a reset cuts the command as `E` says; each law
takes `Did` from before an operation to after it, for whatever the rest of the command needs. -/

namespace Sys2Proof.Machine

/-- `s` agrees with `b` on every register but the working registers, PHASE and WQ, its events are those of `b` after
`es`, no reset is ahead where none was and none was asked for, and a reset may cut the command here. -/
structure Did (E : Stop → State → Prop) (b s : State) (es : List Event) : Prop where
  base : s.base = b.base
  vpen : s.vpen = b.vpen
  msgCnt : s.msgCnt = b.msgCnt
  recCnt : s.recCnt = b.recCnt
  mode : s.mode = b.mode
  vpstate : s.vpstate = b.vpstate
  latch : s.latch = b.latch
  res : s.res = b.res
  rval : s.rval = b.rval
  cfg : s.cfg = b.cfg
  cmd : s.cmd = b.cmd
  resetPin : s.resetPin = b.resetPin
  host : s.host = b.host
  events : s.events = es ++ b.events
  calm : b.noResets = true → ¬b.RequestsAmong es → s.noResets = true
  script : b.script = [] → s.script = []
  cut : ∀ t, CutShort b t → E .cut t

variable {b s : State} {es : List Event} {E : Stop → State → Prop}

theorem Did.start (b : State) (h : ∀ t, CutShort b t → E .cut t) : Did E b b [] :=
  ⟨rfl, rfl, rfl, rfl, rfl, rfl, rfl, rfl, rfl, rfl, rfl, rfl, rfl, rfl, fun c _ => c, id, h⟩

/-- Only where a reset cuts the command depends on `E`. -/
theorem Did.stops {E' : Stop → State → Prop} (h : Did E b s es) (k : ∀ t, CutShort b t → E' .cut t) : Did E' b s es :=
  ⟨h.base, h.vpen, h.msgCnt, h.recCnt, h.mode, h.vpstate, h.latch, h.res, h.rval, h.cfg, h.cmd, h.resetPin, h.host,
    h.events, h.calm, h.script, k⟩

theorem Did.env {t : State} (h : Did E b s es) (k : EnvOnly s t) (c : Onward s t) :
    Did E b t es :=
  ⟨k.base.trans h.base, k.vpen.trans h.vpen, k.msgCnt.trans h.msgCnt, k.recCnt.trans h.recCnt, k.mode.trans h.mode,
    k.vpstate.trans h.vpstate, k.latch.trans h.latch, k.res.trans h.res, k.rval.trans h.rval, k.cfg.trans h.cfg,
    k.cmd.trans h.cmd, k.resetPin.trans h.resetPin, k.host.trans h.host,
    (congrArg (List.map _) k.hist).trans h.events, fun hb hr => c.calm (h.calm hb hr),
    fun hb => c.script (h.script hb), h.cut⟩

/-- A reset here cuts the command. -/
theorem Did.cutShort {t : State} (h : Did E b s es) (hn : s.noResets = false) (hr : ResetSince s t) : CutShort b t := by
  obtain ⟨xs, e, h1, h2, h3⟩ := hr
  have he : t.events = (xs ++ es) ++ b.events := by rw [h1, h.events, List.append_assoc]
  refine ⟨⟨xs ++ es, e, he, List.mem_append_left _ h2, h3⟩, fun hb => ⟨xs ++ es, he, .append xs ?_⟩⟩
  refine Classical.byContradiction fun hq => ?_
  rw [h.calm hb hq] at hn
  cases hn

theorem Did.phase (h : Did E b s es) (p : Option Phase) : Did E b { s with phase := p } es :=
  ⟨h.base, h.vpen, h.msgCnt, h.recCnt, h.mode, h.vpstate, h.latch, h.res, h.rval, h.cfg, h.cmd, h.resetPin, h.host,
    h.events, h.calm, h.script, h.cut⟩

theorem Did.work (h : Did E b s es) (w : Work) : Did E b { s with work := w } es :=
  ⟨h.base, h.vpen, h.msgCnt, h.recCnt, h.mode, h.vpstate, h.latch, h.res, h.rval, h.cfg, h.cmd, h.resetPin, h.host,
    h.events, h.calm, h.script, h.cut⟩

theorem Did.setTxdone (h : Did E b s es) (id : Nat) (x : Bool) :
    Did E b { s with target := s.target.setTxdone id x } es :=
  ⟨h.base, h.vpen, h.msgCnt, h.recCnt, h.mode, h.vpstate, h.latch, h.res, h.rval, h.cfg, h.cmd, h.resetPin, h.host,
    h.events, h.calm, h.script, h.cut⟩

theorem Did.tick (h : Did E b s es) (n : Nat) : Did E b { s with tick := n } es :=
  ⟨h.base, h.vpen, h.msgCnt, h.recCnt, h.mode, h.vpstate, h.latch, h.res, h.rval, h.cfg, h.cmd, h.resetPin, h.host,
    h.events, h.calm, h.script, h.cut⟩

theorem Did.emit (h : Did E b s es) (e : Event) : Did E b { s with hist := (s.phase, e) :: s.hist } (e :: es) :=
  ⟨h.base, h.vpen, h.msgCnt, h.recCnt, h.mode, h.vpstate, h.latch, h.res, h.rval, h.cfg, h.cmd, h.resetPin, h.host,
    congrArg (List.cons e) h.events, fun hb hr => h.calm hb fun hq => hr (.append [e] hq), h.script, h.cut⟩

theorem Did.setHost (h : Did E b s es) (x : HostAnswers) : Did E { b with host := x } { s with host := x } es :=
  ⟨h.base, h.vpen, h.msgCnt, h.recCnt, h.mode, h.vpstate, h.latch, h.res, h.rval, h.cfg, h.cmd, h.resetPin, rfl,
    h.events, h.calm, h.script, h.cut⟩

theorem Did.setVpstate (h : Did E b s es) (x : VpState) : Did E { b with vpstate := x } { s with vpstate := x } es :=
  ⟨h.base, h.vpen, h.msgCnt, h.recCnt, h.mode, rfl, h.latch, h.res, h.rval, h.cfg, h.cmd, h.resetPin, h.host,
    h.events, h.calm, h.script, h.cut⟩

theorem Did.setMsg (h : Did E b s es) (x : Counter) : Did E { b with msgCnt := x } { s with msgCnt := x } es :=
  ⟨h.base, h.vpen, rfl, h.recCnt, h.mode, h.vpstate, h.latch, h.res, h.rval, h.cfg, h.cmd, h.resetPin, h.host,
    h.events, h.calm, h.script, h.cut⟩

theorem Did.setRec (h : Did E b s es) (x : Counter) : Did E { b with recCnt := x } { s with recCnt := x } es :=
  ⟨h.base, h.vpen, h.msgCnt, rfl, h.mode, h.vpstate, h.latch, h.res, h.rval, h.cfg, h.cmd, h.resetPin, h.host,
    h.events, h.calm, h.script, h.cut⟩

theorem Did.setVpen (h : Did E b s es) (d : DomId) (x : Bool) : Did E (b.withVpen d x) (s.withVpen d x) es :=
  ⟨h.base, by simp [h.vpen], h.msgCnt, h.recCnt, h.mode, h.vpstate, h.latch, h.res, h.rval, h.cfg, h.cmd, h.resetPin,
    h.host, h.events, h.calm, h.script, h.cut⟩

theorem Did.baseOf (h : Did E b s es) (p : PartId) : s.baseOf p = b.baseOf p := by simp [State.baseOf, h.base]

theorem Did.partitionOk (h : Did E b s es) (p : PartId) : s.partitionOk p = b.partitionOk p := by
  simp [State.partitionOk, State.baseOf, h.base, h.cfg]

theorem Did.effAddr (h : Did E b s es) (p : PartId) (inst idx : Addr) : s.effAddr p inst idx = b.effAddr p inst idx := by
  simp [State.effAddr, h.baseOf, h.cfg]

theorem Did.requests (h : Did E b s es) (a : Addr) (v : Word) :
    s.requestsGlobalReset a v = b.requestsGlobalReset a v := by
  simp [State.requestsGlobalReset, State.globalCtrl, h.baseOf, h.effAddr, h.cfg]

/-- A write enters WQ; only one that asks for a global reset brings a reset ahead (R243). -/
theorem Did.write (h : Did E b s es) (e : Event) (w : Write) (hw : e.written = some w) : Did E b
    { s with wq := s.wq ++ [s.entry w.port w.addr w.value], hist := (s.phase, e) :: s.hist } (e :: es) := by
  refine ⟨h.base, h.vpen, h.msgCnt, h.recCnt, h.mode, h.vpstate, h.latch, h.res, h.rval, h.cfg, h.cmd, h.resetPin,
    h.host, congrArg (List.cons e) h.events, fun hb hr => ?_, h.script, h.cut⟩
  refine issue_noResets hw (fun he => ?_) (h.calm hb fun hq => hr (.append [e] hq))
  cases hx : s.requestsGlobalReset w.addr w.value with
  | false => rfl
  | true => exact absurd ⟨w.addr, w.value, he ▸ List.mem_cons_self, h.requests _ _ ▸ hx⟩ hr

/-! ### Lines and working registers -/

theorem Did.line {l : Label} {Q : Unit → State → Prop} (h : Did E b s es) (k : ∀ t, Did E b t es → Q () t) :
    wp (line l) Q E s := k _ (h.phase _)

theorem Did.subLine {l : SubLabel} {Q : Unit → State → Prop} (h : Did E b s es) (k : ∀ t, Did E b t es → Q () t) :
    wp (subLine l) Q E s := k _ (h.phase _)

theorem Did.endSub {Q : Unit → State → Prop} (h : Did E b s es) (k : ∀ t, Did E b t es → Q () t) : wp endSub Q E s :=
  k _ (h.phase _)

theorem Did.setWork {f : Work → Work} {Q : Unit → State → Prop} (h : Did E b s es) (k : ∀ t, Did E b t es → Q () t) :
    wp (setWork f) Q E s := k _ (h.work _)

theorem Did.backEdge {left : Nat} {l : SubLabel} {Q : Unit → State → Prop} (h : Did E b s es)
    (k : ∀ t, Did E b t es → Q () t) : wp (backEdge left l) Q E s := by
  simp only [Machine.backEdge, wp_ite, wp_pure]
  exact ⟨fun _ => k _ h, fun _ => h.subLine k⟩

/-! ### Events -/

theorem Did.turn {Q : Unit → State → Prop} (h : Did E b s es) (k : ∀ t, Did E b t es → Q () t) : wp turn Q E s :=
  wp_turn (fun t ht hc => k t (h.env ht hc)) fun t hn hr => h.cut t (h.cutShort hn hr)

theorem Did.requireAligned {a : Addr} {Q : Unit → State → Prop} (ha : aligned a = true) (k : Q () s) :
    wp (requireAligned a) Q E s := by
  simp only [Machine.requireAligned, ha, if_true]
  exact k

/-- What a read of the register tells (R70; log 9): the queue is drained, and the value is what the register held once
the queue was observed, where that was known and the script covered the turn and had nobody move in it. -/
structure ReadBy (s t : State) (p : Port) (a : Addr) (v : Word) : Prop where
  drained : t.wq = []
  known : s.undisturbed → s.script ≠ [] → ∀ w, settled s (regKey p a) = some w → v = w

theorem Did.targetRead {p : Port} {a : Addr} {Q : Word → State → Prop} (h : Did E b s es) (ha : aligned a = true)
    (k : ∀ v t, Did E b t es → ReadBy s t p a v → Q v t) : wp (targetRead p a) Q E s := by
  have hk : wp Machine.turn (fun _ t => s.undisturbed → s.script ≠ [] → settled t = settled s) (fun _ _ => True) s := by
    unfold wp
    split
    · rename_i u t hx
      intro hu hs
      obtain ⟨rest, hc⟩ : ∃ rest, s.script = [] :: rest := by
        cases hc : s.script with
        | nil => exact absurd hc hs
        | cons ms rest => exact ⟨rest, by rw [hu ms (by simp [hc])]⟩
      rw [turn_quiet s rest hc] at hx
      cases hx
      rfl
    · trivial
  have ht : wp Machine.turn (fun _ t => Did E b t es) E s := h.turn fun t ht => ht
  simp only [Machine.targetRead, wp_bind]
  refine Did.requireAligned ha (wp_mono (wp_and ht hk) (fun _ t ht => ?_) fun _ _ he => he.1)
  simp only [wp_modify, targetAnswer, wp_bind, wp_get]
  have hd : Did E b t.drain es := ht.1.env (drain_envOnly t) ⟨(drain_noResets t).trans, (drain_script t).trans⟩
  have hv : ∀ w, s.undisturbed → s.script ≠ [] → settled s (regKey p a) = some w → t.drain.target.get p a = some w := by
    intro w hu hs hw
    rw [show t.drain.target.get p a = _ from readsAs_eq t p a, ht.2 hu hs]
    exact hw
  split
  · rename_i v hg
    refine k _ _ hd ⟨drain_wq t, fun hu hs w hw => ?_⟩
    rw [hv w hu hs hw] at hg
    cases hg
    rfl
  · rename_i hg
    refine k _ _ (hd.tick _) ⟨drain_wq t, fun hu hs w hw => ?_⟩
    rw [hv w hu hs hw] at hg
    cases hg

theorem Did.memRead {a : Addr} {Q : Word → State → Prop} (h : Did E b s es) (ha : aligned a = true)
    (k : ∀ v t, Did E b t (.mmioRead a v :: es) → ReadBy s t .mmio a v → Q v t) : wp (memRead a) Q E s := by
  simp only [Machine.memRead, wp_bind]
  refine h.targetRead ha fun v t ht hq => ?_
  simp only [wp_emit, wp_pure]
  exact k _ _ (ht.emit _) ⟨hq.drained, hq.known⟩

theorem Did.memWrite {a : Addr} {v : Word} {Q : Unit → State → Prop} (h : Did E b s es) (ha : aligned a = true)
    (k : ∀ t, Did E b t (.mmioWrite a v :: es) → Q () t) : wp (memWrite a v) Q E s := by
  simp only [Machine.memWrite, Machine.targetWrite, wp_bind]
  exact Did.requireAligned ha (h.turn fun t ht => k _ (ht.write (.mmioWrite a v) ⟨.mmio, a, v⟩ rfl))

theorem Did.domRead {d : DomId} {a : Addr} {Q : Word → State → Prop} (h : Did E b s es) (ha : aligned a = true)
    (k : ∀ v t, Did E b t (.domRead d a v :: es) → ReadBy s t (.dom d) a v → Q v t) : wp (domRead d a) Q E s := by
  simp only [Machine.domRead, wp_bind]
  refine h.targetRead ha fun v t ht hq => ?_
  simp only [wp_emit, wp_pure]
  exact k _ _ (ht.emit _) ⟨hq.drained, hq.known⟩

theorem Did.domWrite {d : DomId} {a : Addr} {v : Word} {Q : Unit → State → Prop} (h : Did E b s es)
    (ha : aligned a = true) (k : ∀ t, Did E b t (.domWrite d a v :: es) → Q () t) : wp (domWrite d a v) Q E s := by
  simp only [Machine.domWrite, Machine.targetWrite, wp_bind]
  exact Did.requireAligned ha (h.turn fun t ht => k _ (ht.write (.domWrite d a v) ⟨.dom d, a, v⟩ rfl))

theorem Did.domRmw {d : DomId} {mask bits : Word} {a : Addr} {Q : Unit → State → Prop} (h : Did E b s es)
    (ha : aligned a = true)
    (k : ∀ old t, Did E b t (.domRmw d a mask bits (merge old mask bits) :: es) →
      t.wq.map WEntry.toWrite = [⟨.dom d, a, merge old mask bits⟩] →
      (s.undisturbed → s.script ≠ [] → ∀ w, settled s (regKey (.dom d) a) = some w → old = w) → Q () t) :
    wp (domRmw d mask bits a) Q E s := by
  simp only [Machine.domRmw, wp_bind]
  refine h.targetRead ha fun v t ht hq => ?_
  simp only [wp_modify]
  exact k v _ (ht.write (.domRmw d a mask bits (merge v mask bits)) ⟨.dom d, a, merge v mask bits⟩ rfl)
    (by simp [hq.drained, State.entry]) hq.known

theorem Did.callCheckTxdone {id : Nat} {Q : Bool → State → Prop} (h : Did E b s es)
    (k : ∀ x t, Did E b t (.call (.checkTxdone id x) :: es) → Q x t) : wp (callCheckTxdone id) Q E s := by
  simp only [Machine.callCheckTxdone, wp_bind]
  refine h.turn fun t ht => ?_
  simp only [txdoneAnswer, wp_bind, wp_get]
  split
  · exact k _ _ (ht.emit _)
  · exact k _ _ ((ht.tick _).emit _)

theorem Did.callClearTxdone {id : Nat} {Q : Unit → State → Prop} (h : Did E b s es)
    (k : ∀ t, Did E b t (.call (.clearTxdone id) :: es) → Q () t) : wp (callClearTxdone id) Q E s := by
  simp only [Machine.callClearTxdone, wp_bind]
  refine h.turn fun t ht => ?_
  exact k _ ((ht.setTxdone _ _).emit _)

theorem Did.callRecover {id : Nat} {Q : Unit → State → Prop} (h : Did E b s es)
    (k : ∀ t, Did E b t (.call (.recover id) :: es) → Q () t) : wp (callRecover id) Q E s := by
  simp only [Machine.callRecover, wp_bind]
  exact h.turn fun t ht => k _ (ht.emit _)

/-- `pre_scale` is answered with HOST's next prepared answer, or with any answer when there is none. -/
theorem Did.callPreScale {d : DomId} {x : Word} {td : TD} {Q : PreScaleResult → State → Prop} (h : Did E b s es)
    (k : ∀ r host t, b.host.PreScaleGives r host →
      Did E { b with host := host } t (.call (.preScale d x td r) :: es) → Q r t) :
    wp (callPreScale d x td) Q E s := by
  simp only [Machine.callPreScale, wp_bind]
  refine h.turn fun t ht => ?_
  simp only [preScaleAnswer, wp_bind, wp_get]
  split
  · rename_i r' rest hr
    rw [ht.host] at hr
    refine k _ { t.host with preScale := rest } _ ⟨fun x rest' hx => ?_, fun hx => ?_⟩ ((ht.setHost _).emit _)
    · rw [hr] at hx
      cases hx
      exact ⟨rfl, by rw [ht.host]⟩
    · rw [hr] at hx
      cases hx
  · rename_i hr
    rw [ht.host] at hr
    refine k _ b.host _ ⟨fun x rest' hx => ?_, fun _ => rfl⟩ ((ht.tick (t.tick + 1)).emit _)
    rw [hr] at hx
    cases hx

theorem Did.callPostScale {d : DomId} {x : Word} {td : TD} {tsel csel : Word} {Q : Unit → State → Prop}
    (h : Did E b s es) (k : ∀ t, Did E b t (.call (.postScale d x td tsel csel) :: es) → Q () t) :
    wp (callPostScale d x td tsel csel) Q E s := by
  simp only [Machine.callPostScale, wp_bind]
  exact h.turn fun t ht => k _ (ht.emit _)

/-- The table lookup is answered with HOST's next prepared answer, or with any answer when there is none. -/
theorem Did.callLookup {d : DomId} {Q : Option TD → State → Prop} (h : Did E b s es)
    (k : ∀ r host t, b.host.LookupGives r host →
      Did E { b with host := host } t (.call (.getCurrentVoltageData d r) :: es) → Q r t) :
    wp (callLookup d) Q E s := by
  simp only [Machine.callLookup, wp_bind]
  refine h.turn fun t ht => ?_
  simp only [lookupAnswer, wp_bind, wp_get]
  split
  · rename_i r' rest hr
    rw [ht.host] at hr
    refine k _ { t.host with lookup := rest } _ ⟨fun x rest' hx => ?_, fun hx => ?_⟩ ((ht.setHost _).emit _)
    · rw [hr] at hx
      cases hx
      exact ⟨rfl, by rw [ht.host]⟩
    · rw [hr] at hx
      cases hx
  · rename_i hr
    rw [ht.host] at hr
    refine k _ b.host _ ⟨fun x rest' hx => ?_, fun _ => rfl⟩ ((ht.tick (t.tick + 1)).emit _)
    rw [hr] at hx
    cases hx

theorem Did.log {kind : LogKind} {d : DomId} {Q : Unit → State → Prop} (h : Did E b s es)
    (k : ∀ t, Did E b t (.log kind d :: es) → Q () t) : wp (log kind d) Q E s := by
  simp only [Machine.log, wp_bind]
  exact h.turn fun t ht => k _ (ht.emit _)

theorem Did.delay {us : Nat} {Q : Unit → State → Prop} (h : Did E b s es)
    (k : ∀ t, Did E b t (.delay us :: es) → Q () t) : wp (delay us) Q E s := by
  simp only [Machine.delay, wp_bind]
  exact h.turn fun t ht => k _ (ht.emit _)

/-- Giving the response: what it leaves (R27, R30). -/
theorem Did.responded (h : Did E b s es) (st : Status) (v : Word) :
    Did E { b with res := st.code, rval := v, mode := .ready }
      { s with hist := (s.phase, .respond st v) :: s.hist, res := st.code, rval := v, mode := .ready, phase := none }
      (.respond st v :: es) :=
  ⟨h.base, h.vpen, h.msgCnt, h.recCnt, rfl, h.vpstate, h.latch, rfl, rfl, h.cfg, h.cmd, h.resetPin, h.host,
    congrArg (List.cons _) h.events, fun hb hr => h.calm hb fun hq => hr (.append [_] hq), h.script, h.cut⟩

/-- The response ends a command. -/
theorem Did.respond {st : Status} {v : Word} {Q : Unit → State → Prop} (h : Did E b s es)
    (k : ∀ t, Did E { b with res := st.code, rval := v, mode := .ready } t (.respond st v :: es) → t.phase = none →
      Q () t) : wp (respond st v) Q E s := by
  simp only [Machine.respond, wp_bind]
  exact h.turn fun t ht => k _ (ht.responded st v) rfl

/-- Passing a line leaves WQ as it is. -/
theorem Did.lineQueue {l : Label} {q : List WEntry} {Q : Unit → State → Prop} (h : Did E b s es) (hq : s.wq = q)
    (k : ∀ t, Did E b t es → t.wq = q → Q () t) : wp (Machine.line l) Q E s := k _ (h.phase _) hq

/-- Setting a working register leaves WQ as it is. -/
theorem Did.setWorkQueue {f : Work → Work} {q : List WEntry} {Q : Unit → State → Prop} (h : Did E b s es)
    (hq : s.wq = q) (k : ∀ t, Did E b t es → t.wq = q → Q () t) : wp (Machine.setWork f) Q E s := k _ (h.work _) hq

/-- An empty queue stays empty during a turn. -/
theorem Did.turnDrained {Q : Unit → State → Prop} (h : Did E b s es) (hq : s.wq = [])
    (k : ∀ t, Did E b t es → t.wq = [] → Q () t) : wp Machine.turn Q E s :=
  wp_turn (fun t ht hc => k t (h.env ht hc) (List.suffix_nil.mp (hq ▸ ht.wq)))
    fun t hn hr => h.cut t (h.cutShort hn hr)

/-- An empty queue stays empty during a delay. -/
theorem Did.delayDrained {us : Nat} {Q : Unit → State → Prop} (h : Did E b s es) (hq : s.wq = [])
    (k : ∀ t, Did E b t (.delay us :: es) → t.wq = [] → Q () t) : wp (Machine.delay us) Q E s := by
  simp only [Machine.delay, wp_bind]
  exact h.turnDrained hq fun t ht hw => k _ (ht.emit _) hw

/-- An empty queue stays empty while the response is given. -/
theorem Did.respondDrained {st : Status} {v : Word} {Q : Unit → State → Prop} (h : Did E b s es) (hq : s.wq = [])
    (k : ∀ t, Did E { b with res := st.code, rval := v, mode := .ready } t (.respond st v :: es) → t.phase = none →
      t.wq = [] → Q () t) : wp (Machine.respond st v) Q E s := by
  simp only [Machine.respond, wp_bind]
  exact h.turnDrained hq fun t ht hw => k _ (ht.responded st v) rfl hw

/-! ### The register access layer (R121 to R123, R127) -/

theorem Did.instRead {p : PartId} {inst idx : Addr} {Q : Word → State → Prop} (h : Did E b s es)
    (hp : b.partitionOk p = true) (ha : aligned (b.effAddr p inst idx) = true)
    (k : ∀ v t, Did E b t (.mmioRead (b.effAddr p inst idx) v :: es) →
      ReadBy s t .mmio (b.effAddr p inst idx) v → Q v t) : wp (instRead p inst idx) Q E s := by
  simp only [Machine.instRead, partCheck, resolve, wp_bind, wp_get, h.partitionOk, hp, if_true, wp_pure, h.effAddr,
    wp_setWork]
  exact (h.work _).memRead ha fun v t ht hr => k v t ht ⟨hr.drained, hr.known⟩

theorem Did.instWrite {v : Word} {p : PartId} {inst idx : Addr} {Q : Unit → State → Prop} (h : Did E b s es)
    (hp : b.partitionOk p = true) (ha : aligned (b.effAddr p inst idx) = true)
    (k : ∀ t, Did E b t (.mmioWrite (b.effAddr p inst idx) v :: es) → Q () t) :
    wp (instWrite v p inst idx) Q E s := by
  simp only [Machine.instWrite, partCheck, resolve, wp_bind, wp_get, h.partitionOk, hp, if_true, wp_pure, h.effAddr]
  exact h.setWork fun t ht => ht.memWrite ha k

theorem Did.instRmw {mask bits : Word} {p : PartId} {inst idx : Addr} {Q : Word → State → Prop} (h : Did E b s es)
    (hp : b.partitionOk p = true) (ha : aligned (b.effAddr p inst idx) = true)
    (k : ∀ old t, Did E b t (.mmioWrite (b.effAddr p inst idx) (merge old mask bits) ::
      .mmioRead (b.effAddr p inst idx) old :: es) → Q (merge old mask bits) t) :
    wp (instRmw mask bits p inst idx) Q E s := by
  simp only [Machine.instRmw, wp_bind]
  refine h.instRead hp ha fun old t ht _ => ?_
  refine ht.setWork fun t ht => ht.setWork fun t ht => ?_
  exact ht.instWrite hp ha fun u hu => k old u hu

/-- A partitioned access through an invalid partition raises the fault before any event (R127, R212). -/
theorem wp_instRead_fatal {p : PartId} {inst idx : Addr} {Q : Word → State → Prop} (hp : s.partitionOk p = false)
    (k : E .cut { s with mode := .fatal }) : wp (Machine.instRead p inst idx) Q E s := by
  simp only [Machine.instRead, partCheck, wp_bind, wp_get, hp, wp_ite]
  exact ⟨by simp, fun _ => k⟩

theorem wp_instWrite_fatal {v : Word} {p : PartId} {inst idx : Addr} {Q : Unit → State → Prop}
    (hp : s.partitionOk p = false) (k : E .cut { s with mode := .fatal }) :
    wp (Machine.instWrite v p inst idx) Q E s := by
  simp only [Machine.instWrite, partCheck, wp_bind, wp_get, hp, wp_ite]
  exact ⟨by simp, fun _ => k⟩

/-- A misaligned access is refused before any event (R63). -/
theorem wp_targetRead_misaligned {p : Port} {a : Addr} {Q : Word → State → Prop} (ha : aligned a = false)
    (k : E (.refuse .misaligned) s) : wp (Machine.targetRead p a) Q E s := by
  simpa [Machine.targetRead, Machine.requireAligned, ha, wp_bind, wp_refuse] using k

theorem wp_targetWrite_misaligned {p : Port} {a : Addr} {v : Word} {Q : Unit → State → Prop} (ha : aligned a = false)
    (k : E (.refuse .misaligned) s) : wp (Machine.targetWrite p a v) Q E s := by
  simpa [Machine.targetWrite, Machine.requireAligned, ha, wp_bind, wp_refuse] using k

theorem wp_domRead_misaligned {d : DomId} {a : Addr} {Q : Word → State → Prop} (ha : aligned a = false)
    (k : E (.refuse .misaligned) s) : wp (Machine.domRead d a) Q E s := by
  simp only [Machine.domRead, wp_bind]
  exact wp_targetRead_misaligned ha k

theorem wp_domWrite_misaligned {d : DomId} {a : Addr} {v : Word} {Q : Unit → State → Prop} (ha : aligned a = false)
    (k : E (.refuse .misaligned) s) : wp (Machine.domWrite d a v) Q E s := by
  simp only [Machine.domWrite, wp_bind]
  exact wp_targetWrite_misaligned ha k

theorem wp_domRmw_misaligned {d : DomId} {mask bits : Word} {a : Addr} {Q : Unit → State → Prop}
    (ha : aligned a = false) (k : E (.refuse .misaligned) s) : wp (Machine.domRmw d mask bits a) Q E s := by
  simp only [Machine.domRmw, wp_bind]
  exact wp_targetRead_misaligned ha k

/-- A value that does not fit its field is refused (R13, R56). -/
theorem wp_placeIn_none {x : Nat} {m : Word} {Q : Word → State → Prop} (h : place x m = none)
    (k : E (.refuse .fieldOverflow) s) : wp (Machine.placeIn x m) Q E s := by
  simp only [Machine.placeIn, h, wp_refuse]
  exact k

/-- A poll whose condition is refused is refused at the first check, the budget being at least 1 (R56). -/
theorem wp_pollUntil_refused {cond : Act Bool} {budget : Word} {n : Nat} {Q : Bool → State → Prop}
    (hb : budget ≠ 0) (k : ∀ (R : Bool → State → Prop) u, wp cond R E u) : wp (Machine.pollUntil cond budget n) Q E s := by
  obtain ⟨left, hl⟩ : ∃ left, budget.toNat = left + 1 :=
    Nat.exists_eq_succ_of_ne_zero fun h => hb (BitVec.eq_of_toNat_eq h)
  simp only [Machine.pollUntil, hl, Machine.pollLoop, wp_bind, wp_subLine, wp_setWork]
  exact k _ _

/-- A misaligned status register is refused at the first idle check. -/
theorem wp_waitIdle_misaligned {d : DomId} {vp : Vp} {Q : Bool → State → Prop} (hb : s.cfg.vpIdleBudget ≠ 0)
    (ha : aligned vp.vstatus = false) (k : ∀ t, E (.refuse .misaligned) t) : wp (Machine.waitIdle d vp) Q E s := by
  simp only [Machine.waitIdle, wp_bind, wp_get]
  refine wp_pollUntil_refused hb fun R u => ?_
  simp only [idleCheck, wp_bind]
  exact wp_domRead_misaligned ha (k u)

/-- A misaligned configuration register is refused at line V2, before anything is placed (R163). -/
theorem wp_setInitVoltage_misaligned {d : DomId} {vp : Vp} {f : PmicFn} {volt : Word} {Q : Word → State → Prop}
    (ha : aligned vp.vpconfig = false) (k : ∀ t, E (.refuse .misaligned) t) :
    wp (Machine.setInitVoltage d vp f volt) Q E s := by
  simp only [Machine.setInitVoltage, wp_bind, wp_subLine, wp_setWork]
  exact wp_domRead_misaligned ha (k _)

/-- An access of a mapped partition at a misaligned address is refused. -/
theorem wp_instRead_misaligned {p : PartId} {inst idx : Addr} {Q : Word → State → Prop} (hp : s.partitionOk p = true)
    (ha : aligned (s.effAddr p inst idx) = false) (k : ∀ t, E (.refuse .misaligned) t) :
    wp (Machine.instRead p inst idx) Q E s := by
  simp only [Machine.instRead, partCheck, resolve, wp_bind, wp_get, hp, if_true, wp_pure, wp_setWork,
    Machine.memRead]
  exact wp_targetRead_misaligned ha (k _)

theorem wp_instWrite_misaligned {v : Word} {p : PartId} {inst idx : Addr} {Q : Unit → State → Prop}
    (hp : s.partitionOk p = true) (ha : aligned (s.effAddr p inst idx) = false) (k : ∀ t, E (.refuse .misaligned) t) :
    wp (Machine.instWrite v p inst idx) Q E s := by
  simp only [Machine.instWrite, partCheck, resolve, wp_bind, wp_get, hp, if_true, wp_pure, wp_setWork,
    Machine.memWrite]
  exact wp_targetWrite_misaligned ha (k _)

/-! ### PollUntil (R143) and ClearTxDone (R162) -/

theorem Did.pollLoop {α : Type} {cond : Act Bool} {delayUs left : Nat} {cnt : Word} {check : α → Event}
    {holds : α → Bool} {Q : Bool → State → Prop} (h : Did E b s es)
    (hc : ∀ u fs (R : Bool → State → Prop), Did E b u fs →
      (∀ v t, Did E b t (check v :: fs) → R (holds v) t) → wp cond R E u)
    (k : ∀ ok w t, PollTrace left delayUs check holds ok w → Did E b t (w ++ es) → Q ok t) :
    wp (pollLoop cond delayUs left cnt) Q E s := by
  induction left generalizing s es cnt with
  | zero =>
    simp only [Machine.pollLoop, wp_bind]
    exact h.setWork fun t ht => k false [] t ⟨[], by simp, .inl ⟨rfl, rfl, rfl⟩⟩ ht
  | succ left ih =>
    simp only [Machine.pollLoop, wp_bind]
    refine h.subLine fun s h => hc _ _ _ h fun v t ht => ?_
    cases hv : holds v with
    | true =>
      simp only [if_true, wp_bind]
      exact ht.setWork fun t ht => k true [check v] t ⟨[], by simp, .inr ⟨rfl, by simp, v, hv, rfl⟩⟩ ht
    | false =>
      simp only [Bool.false_eq_true, if_false, wp_bind]
      refine ht.subLine fun t ht => ht.setWork fun t ht => ht.subLine fun t ht => ht.delay fun t ht => ?_
      refine ht.subLine fun t ht => ht.backEdge fun t ht => ih ht fun ok w y hw hy => ?_
      obtain ⟨failed, hf, hw⟩ := hw
      have hall : ∀ x ∈ failed ++ [v], holds x = false := by
        intro x hx
        rcases List.mem_append.mp hx with hx | hx
        · exact hf x hx
        · rw [List.mem_singleton.mp hx]
          exact hv
      refine k ok (w ++ [.delay delayUs, check v]) y ⟨failed ++ [v], hall, ?_⟩ (by simpa using hy)
      rcases hw with ⟨h1, h2, rfl⟩ | ⟨h1, h2, x, h3, rfl⟩
      · exact .inl ⟨h1, by simp [h2], by simp [failedChecks]⟩
      · exact .inr ⟨h1, by simp [h2], x, h3, by simp [failedChecks]⟩

theorem Did.pollUntil {α : Type} {cond : Act Bool} {budget : Word} {delayUs : Nat} {check : α → Event}
    {holds : α → Bool} {Q : Bool → State → Prop} (h : Did E b s es)
    (hc : ∀ u fs (R : Bool → State → Prop), Did E b u fs →
      (∀ v t, Did E b t (check v :: fs) → R (holds v) t) → wp cond R E u)
    (k : ∀ ok w t, PollTrace budget.toNat delayUs check holds ok w → Did E b t (w ++ es) → Q ok t) :
    wp (pollUntil cond budget delayUs) Q E s := by
  simp only [Machine.pollUntil, wp_bind]
  refine h.subLine fun s h => h.setWork fun s h => h.pollLoop hc fun ok w t hw ht => ?_
  exact k ok w _ hw (ht.phase _)

theorem Did.clearLoop {id delayUs left : Nat} {cnt : Word} {Q : Bool → State → Prop} (h : Did E b s es)
    (k : ∀ ok n t, ((ok = false ∧ n = left ∧ Did E b t (failedClears id delayUs n ++ es)) ∨
        (ok = true ∧ n < left ∧ Did E b t (.call (.checkTxdone id false) :: .call (.clearTxdone id) ::
          failedClears id delayUs n ++ es))) → Q ok t) :
    wp (clearLoop id delayUs left cnt) Q E s := by
  induction left generalizing s es cnt with
  | zero =>
    simp only [Machine.clearLoop, wp_bind]
    exact h.setWork fun t ht => k false 0 t (.inl ⟨rfl, rfl, ht⟩)
  | succ left ih =>
    simp only [Machine.clearLoop, wp_bind]
    refine h.subLine fun t ht => ht.callClearTxdone fun t ht => ?_
    refine ht.subLine fun t ht => ht.callCheckTxdone fun x t ht => ?_
    cases x with
    | false =>
      simp only [Bool.false_eq_true, if_false, wp_bind]
      exact ht.setWork fun t ht => k true 0 t (.inr ⟨rfl, by simp, ht⟩)
    | true =>
      simp only [if_true, wp_bind]
      refine ht.subLine fun t ht => ht.setWork fun t ht => ht.subLine fun t ht => ht.delay fun t ht => ?_
      refine ht.subLine fun t ht => ht.backEdge fun t ht => ih ht fun ok n y hy => k ok (n + 1) y ?_
      rcases hy with ⟨h1, h2, h3⟩ | ⟨h1, h2, h3⟩
      · exact .inl ⟨h1, by omega, by simpa [failedClears] using h3⟩
      · exact .inr ⟨h1, by omega, by simpa [failedClears] using h3⟩

theorem Did.clearTxDone {vp : Vp} {Q : Bool → State → Prop} (h : Did E b s es)
    (k : ∀ ok w t, ClearTrace b.cfg vp ok w → Did E b t (w ++ es) → Q ok t) : wp (clearTxDone vp) Q E s := by
  simp only [Machine.clearTxDone, wp_bind, wp_get]
  refine h.subLine fun s h => h.setWork fun s h => ?_
  rw [h.cfg]
  refine h.clearLoop fun ok n t ht => ?_
  rcases ht with ⟨h1, h2, h3⟩ | ⟨h1, h2, h3⟩
  · exact k ok _ _ ⟨n, .inl ⟨h1, h2, rfl⟩⟩ (h3.phase _)
  · exact k ok _ _ ⟨n, .inr ⟨h1, h2, rfl⟩⟩ (h3.phase _)

/-! ### The Voltage Processor's subroutines (R161, R163) and ReportError (R200) -/

theorem Did.waitIdle {d : DomId} {vp : Vp} {Q : Bool → State → Prop} (h : Did E b s es)
    (ha : aligned vp.vstatus = true)
    (k : ∀ ok w t, IdleWait b.cfg d vp ok w → Did E b t (w ++ es) → Q ok t) : wp (waitIdle d vp) Q E s := by
  simp only [Machine.waitIdle, wp_bind, wp_get, h.cfg]
  refine Did.pollUntil h ?_ k
  intro u fs R hu hR
  simp only [idleCheck, wp_bind]
  exact hu.domRead ha fun v t ht _ => hR v _ ht

theorem Did.txWait {vp : Vp} {Q : Bool → State → Prop} (h : Did E b s es)
    (k : ∀ ok w t, TxWait b.cfg vp ok w → Did E b t (w ++ es) → Q ok t) :
    wp (Machine.pollUntil (Machine.callCheckTxdone vp.id) b.cfg.vpTxwaitBudget b.cfg.vpDelayUs) Q E s :=
  Did.pollUntil h (fun _ _ _ hu hR => hu.callCheckTxdone fun v t ht => hR v t ht) k

theorem Did.isAsserted {shift : Shift} {p : PartId} {inst off : Addr} {Q : Bool → State → Prop} (h : Did E b s es)
    (hp : b.partitionOk p = true) (ha : aligned (b.effAddr p inst off) = true)
    (k : ∀ v t, Did E b t (.mmioRead (b.effAddr p inst off) v :: es) → Q (bitSet v shift) t) :
    wp (isAsserted shift p inst off) Q E s := by
  simp only [Machine.isAsserted, wp_bind]
  exact h.instRead hp ha fun v t ht _ => ht.setWork fun t ht => k v t ht

theorem Did.statusPolls {shift : Shift} {p : PartId} {inst off : Addr} {Q : Bool → State → Prop} (h : Did E b s es)
    (hp : b.partitionOk p = true) (ha : aligned (b.effAddr p inst off) = true)
    (k : ∀ ok w t, StatusPolls b.cfg (b.effAddr p inst off) shift ok w → Did E b t (w ++ es) → Q ok t) :
    wp (Machine.pollUntil (Machine.isAsserted shift p inst off) b.cfg.hardresetBudget b.cfg.hardresetDelayUs) Q E s :=
  Did.pollUntil h (fun _ _ _ hu hR => hu.isAsserted hp ha fun v t ht => hR v t ht) k

theorem Did.placeIn {x : Nat} {m w : Word} {Q : Word → State → Prop} (hw : place x m = some w) (k : Q w s) :
    wp (placeIn x m) Q E s := by
  simp only [Machine.placeIn, hw]
  exact k

theorem pulse_eq (vp : Vp) (v sel : Word) : merge v (pulseMask vp) sel = pulseValue vp v sel := rfl

theorem Did.setInitVoltage {d : DomId} {vp : Vp} {f : PmicFn} {volt sel : Word} {Q : Word → State → Prop}
    (h : Did E b s es) (ha : aligned vp.vpconfig = true)
    (hs : place (f.apply volt).toNat vp.cfgInitvoltage = some sel)
    (k : ∀ v t, Did E b t (pulseTrace d vp v sel ++ es) → Q (pulseValue vp v sel) t) :
    wp (setInitVoltage d vp f volt) Q E s := by
  simp only [Machine.setInitVoltage, wp_bind]
  refine h.subLine fun t ht => ht.setWork fun t ht => ht.subLine fun t ht => ht.domRead ha fun v t ht _ => ?_
  refine ht.setWork fun t ht => ht.subLine fun t ht => Did.placeIn hs ?_
  refine ht.setWork fun t ht => ht.subLine fun t ht => ht.domWrite ha fun t ht => ?_
  refine ht.subLine fun t ht => ht.domWrite ha fun t ht => ht.subLine fun t ht => ht.domWrite ha fun t ht => ?_
  exact ht.endSub fun t ht => k v t ht

theorem Did.reportError {d : DomId} {dom : Dom} {vp : Vp} {Q : Unit → State → Prop} (h : Did E b s es)
    (k : ∀ t, Did E (b.reported dom) t (b.reportTrace d dom vp ++ es) → Q () t) :
    wp (reportError d dom vp) Q E s := by
  have hm : (Event.log (messageHalf b.msgCnt).1 d) = reportLog b.msgCnt d := by
    unfold messageHalf reportLog
    by_cases hz : b.msgCnt = 0 <;> simp [hz]
  have hm2 : (messageHalf b.msgCnt).2 = msgAfter b.msgCnt := by
    unfold messageHalf msgAfter
    by_cases hz : b.msgCnt = 0 <;> simp [hz]
  simp only [Machine.reportError, reportMessage, recoverIf, wp_bind, wp_get, wp_modify]
  refine h.subLine fun t ht => ?_
  rw [ht.msgCnt]
  refine ht.log fun t ht => ?_
  have h1 := ht.setMsg (messageHalf b.msgCnt).2
  rw [hm, hm2] at h1
  rw [ht.msgCnt, hm2]
  cases hr : dom.hasRecover with
  | false =>
    simp only [Bool.false_eq_true, if_false, wp_pure]
    refine h1.endSub fun t ht => k t ?_
    simpa [State.reported, State.reportTrace, hr] using ht
  | true =>
    simp only [if_true, reportRecovery, wp_bind, wp_get, wp_modify, recoveryHalf]
    refine h1.subLine fun t ht => ?_
    have h2 := ht.setRec (b.recCnt - 1)
    simp only [ht.recCnt, wp_ite, wp_pure, wp_bind]
    constructor
    · intro hz
      refine h2.callRecover fun u hu => ?_
      have h3 := hu.setRec u.cfg.n2
      rw [show u.cfg.n2 = b.cfg.n2 from congrArg Config.n2 hu.cfg] at h3
      rw [wp_modify, show u.cfg.n2 = b.cfg.n2 from congrArg Config.n2 hu.cfg]
      refine h3.endSub fun t ht => k t ?_
      have hz' : b.recCnt - 1 = 0 := by simpa using hz
      simpa [State.reported, State.reportTrace, recAfter, hr, hz'] using ht
    · intro hz
      have hz' : ¬b.recCnt - 1 = 0 := by simpa using hz
      refine h2.endSub fun t ht => k t ?_
      simpa [State.reported, State.reportTrace, recAfter, hr, hz'] using ht

/-- A selector that does not fit is refused at line V3 (R13). -/
theorem Did.setInitVoltage_overflow {d : DomId} {vp : Vp} {f : PmicFn} {volt : Word} {Q : Word → State → Prop}
    (h : Did E b s es) (ha : aligned vp.vpconfig = true) (hs : place (f.apply volt).toNat vp.cfgInitvoltage = none)
    (k : ∀ t, E (.refuse .fieldOverflow) t) : wp (Machine.setInitVoltage d vp f volt) Q E s := by
  simp only [Machine.setInitVoltage, wp_bind]
  refine h.subLine fun t ht => ht.setWork fun t ht => ht.subLine fun t ht => ht.domRead ha fun v t ht _ => ?_
  exact ht.setWork fun t ht => ht.subLine fun t ht => wp_placeIn_none hs (k _)

theorem Did.reportUnless {ok : Bool} {d : DomId} {dom : Dom} {vp : Vp} {Q : Unit → State → Prop} (h : Did E b s es)
    (k : ∀ t, Did E (b.reportedUnless ok dom) t (b.reportUnlessTrace ok d dom vp ++ es) → Q () t) :
    wp (reportUnless ok d dom vp) Q E s := by
  cases ok with
  | true => exact k s (by simpa [State.reportedUnless, State.reportUnlessTrace] using h)
  | false => exact h.reportError k

/-! ### The end of a command -/

/-- Accepting a command latches its operands (R28). -/
theorem latchOf_holds (i : Instr) : (latchOf i).Holds i := by
  refine ⟨rfl, rfl, rfl, ?_⟩
  cases i <;> simp [latchOf]

/-- What a command that answered leaves, from the trace of its body. -/
theorem Did.answered {b s t : State} {i : Instr} {st : Status} {v : Word} {es : List Event}
    (h : Did E { b with res := st.code, rval := v, mode := .ready } t (.respond st v :: es)) (hp : t.phase = none)
    (hl : b.latch = latchOf i) (he : b.events = s.events) : Answered i s t st v es :=
  ⟨h.res, h.rval, h.latch.trans hl ▸ latchOf_holds i, hp, by rw [h.events]; exact congrArg (_ ++ ·) he⟩

/-- What a command that answered leaves alone, from the trace of its body. -/
theorem Did.unchanged {b s t : State} {st : Status} {v : Word} {es : List Event}
    (h : Did E { b with res := st.code, rval := v, mode := .ready } t es)
    (hb : Unchanged s { b with mode := .ready }) : Unchanged s t :=
  ⟨h.base.trans hb.base, h.vpen.trans hb.vpen, h.msgCnt.trans hb.msgCnt, h.recCnt.trans hb.recCnt,
    h.mode.trans hb.mode, h.vpstate.trans hb.vpstate, h.cfg.trans hb.cfg, h.cmd.trans hb.cmd,
    h.resetPin.trans hb.resetPin, h.host.trans hb.host⟩

theorem partitionOk_iff (s : State) (p : PartId) : s.partitionOk p = true ↔ s.MappedPartition p := by
  simp [State.partitionOk, State.MappedPartition, and_assoc]

theorem framed_accept {s : State} (h : s.undisturbed) (i : Instr) : Framed s (s.accept i) :=
  ⟨h, [], rfl, fun _ _ _ => rfl⟩

end Sys2Proof.Machine
end

