-- ==== Sys2Proof/Laws/Command.lean ====
section
/-! SUPPORT. From the laws of a command's body to what `exec` answers: completion, the partition fault and the
refusals, said once. -/

namespace Sys2Proof.Machine

variable {i : Instr} {s : State} {body : Act Unit}

/-- How the body of a command stops that a reset may cut and nothing else: `E` of its laws. -/
abbrev CutOnly (s : State) (e : Stop) (t : State) : Prop := e = .cut ∧ CutShort s t

/-- An accepted command completes as its body does, or a reset comes first; the frame of the target comes along. -/
theorem command_completes {P : State → Prop} (hr : s.takesCommand)
    (hf : ∀ t, command i s body = .next t → s.undisturbed → Framed s t)
    (h : Did (CutOnly s) (s.accept i) (s.accept i) [] →
      wp body (fun _ t => (s.undisturbed → Framed s t) → P t) (CutOnly s) (s.accept i)) :
    ∃ t, command i s body = .next t ∧ (P t ∨ CutShort s t) := by
  obtain ⟨t, h1, h2⟩ := command_next (P := fun t => ((s.undisturbed → Framed s t) → P t) ∨ CutShort s t) hr.1 hr.2
    (wp_mono (h (Did.start _ fun t ht => ⟨rfl, ht⟩)) (fun _ _ h => .inl h) (fun _ _ h => ⟨h.1, .inr h.2⟩))
  exact ⟨t, h1, h2.imp (fun k => k (hf t h1)) id⟩

/-- An accepted command ends as its body does, in a next state or in a refusal of the body, or a reset comes first. -/
theorem command_ends {P : State → Prop} {R : Refusal → Prop} (hr : s.takesCommand)
    (hf : ∀ t, command i s body = .next t → s.undisturbed → Framed s t)
    (h : Did (fun e t => (∃ r, e = .refuse r ∧ R r) ∨ CutOnly s e t) (s.accept i) (s.accept i) [] →
      wp body (fun _ t => (s.undisturbed → Framed s t) → P t)
        (fun e t => (∃ r, e = .refuse r ∧ R r) ∨ CutOnly s e t) (s.accept i)) :
    (∃ t, command i s body = .next t ∧ (P t ∨ CutShort s t)) ∨ ∃ r, command i s body = .refused r ∧ R r := by
  have hw := h (Did.start _ fun t ht => .inr ⟨rfl, ht⟩)
  have hc : command i s body = outcomeOf (body (s.accept i)) := by
    simp only [command, guarded, hr.1, hr.2, if_true]
  unfold wp at hw
  cases hb : body (s.accept i) with
  | ok a t =>
    simp only [hb] at hw
    have hx : command i s body = .next t := by rw [hc, hb]; rfl
    exact .inl ⟨t, hx, .inl (hw (hf t hx))⟩
  | error e t =>
    simp only [hb] at hw
    obtain ⟨r, rfl, hR⟩ | ⟨rfl, ht⟩ := hw
    · exact .inr ⟨r, by rw [hc, hb]; rfl, hR⟩
    · exact .inl ⟨t, by rw [hc, hb]; rfl, .inr ht⟩

/-- An accepted command whose body can only be refused, or cut by a reset on the way. -/
theorem command_refuses {r : Refusal} (hr : s.takesCommand)
    (h : Did (fun e t => e = .refuse r ∨ CutOnly s e t) (s.accept i) (s.accept i) [] →
      wp body (fun _ _ => False) (fun e t => e = .refuse r ∨ CutOnly s e t) (s.accept i)) :
    command i s body = .refused r ∨ ∃ t, command i s body = .next t ∧ CutShort s t := by
  have hw := h (Did.start _ fun t ht => .inr ⟨rfl, ht⟩)
  have hc : command i s body = outcomeOf (body (s.accept i)) := by
    simp only [command, guarded, hr.1, hr.2, if_true]
  unfold wp at hw
  cases hb : body (s.accept i) with
  | ok a t => simp only [hb] at hw
  | error e t =>
    simp only [hb] at hw
    obtain rfl | ⟨rfl, ht⟩ := hw
    · exact .inl (by rw [hc, hb]; rfl)
    · exact .inr ⟨t, by rw [hc, hb]; rfl, ht⟩

/-- Accepting and answering a command leaves alone what no rule names. -/
theorem accept_unchanged (hr : s.takesCommand) : Unchanged s { s.accept i with mode := .ready } :=
  ⟨rfl, rfl, rfl, rfl, hr.1.symm, rfl, rfl, rfl, rfl, rfl⟩

/-- How a command of the partitioned layer ends, from its body. -/
theorem throughPartition {part : PartId} {ea : Addr} {good : State → Prop} (hb : exec i s = command i s body)
    (hf : ∀ t, command i s body = .next t → s.undisturbed → Framed s t)
    (h1 : s.partitionOk part = false →
      wp body (fun _ _ => False) (fun e t => e = .cut ∧ FatalEntry s t) (s.accept i))
    (h2 : s.partitionOk part = true → aligned ea = false →
      wp body (fun _ _ => False) (fun e _ => e = .refuse .misaligned) (s.accept i))
    (h3 : s.takesCommand → s.partitionOk part = true → aligned ea = true →
      Did (CutOnly s) (s.accept i) (s.accept i) [] →
      wp body (fun _ t => (s.undisturbed → Framed s t) → good t) (CutOnly s) (s.accept i)) :
    ThroughPartition i s part ea good := by
  intro hr
  rw [Completes, hb]
  refine ⟨fun h => ?_, fun h h' => ?_, fun h h' => ?_⟩
  · rw [← partitionOk_iff] at h
    exact command_next hr.1 hr.2 (wp_mono (h1 (by simpa using h)) (fun _ _ h => h.elim) (fun _ _ h => h))
  · exact command_refused hr.1 hr.2 (h2 ((partitionOk_iff _ _).mpr h) h')
  · exact command_completes hr hf (fun k => h3 hr ((partitionOk_iff _ _).mpr h) h' k)

/-- The state at `raise Fatal`, before any event of the command (R212, R213). -/
theorem fatalEntry {t : State} (i : Instr) (h : t = { s.accept i with
    mode := .fatal
    phase := t.phase
    work := t.work }) : FatalEntry s t := by
  rw [h]
  exact ⟨rfl, rfl, ⟨rfl, rfl, rfl, rfl, rfl, rfl, rfl, rfl, rfl, rfl⟩, rfl, rfl, rfl, rfl⟩

/-- What an answered command stores to, from its events. -/
theorem Answered.onlyStores {t : State} {st : Status} {v : Word} {es : List Event} {l : List (Port × Addr)}
    (h : Answered i s t st v es) (hf : s.undisturbed → Framed s t) (hl : ∀ w ∈ writesOf es, (w.port, w.addr) ∈ l) :
    OnlyStores s t l :=
  Framed.onlyStores (es := .respond st v :: es) hf h.events hl

/-! ### Which events of a trace write -/

theorem writesOf_append (xs ys : List Event) : writesOf (xs ++ ys) = writesOf xs ++ writesOf ys :=
  List.filterMap_append

theorem writesOf_cons (e : Event) (es : List Event) : writesOf (e :: es) = e.written.toList ++ writesOf es := by
  cases h : e.written <;> simp [writesOf, h]

theorem writesOf_failedChecks {α : Type} (n : Nat) (check : α → Event) (h : ∀ x, (check x).written = none)
    (l : List α) : writesOf (failedChecks n (l.map check)) = [] := by
  induction l with
  | nil => rfl
  | cons x l ih =>
    show writesOf ([.delay n, check x] ++ failedChecks n (l.map check)) = []
    rw [writesOf_append, ih, writesOf_cons, writesOf_cons, h x]
    rfl

/-- A polling loop writes nothing. -/
theorem PollTrace.noWrites {α : Type} {n delayUs : Nat} {check : α → Event} {holds : α → Bool} {ok : Bool}
    {es : List Event} (h : PollTrace n delayUs check holds ok es) (hc : ∀ x, (check x).written = none) :
    writesOf es = [] := by
  obtain ⟨f, _, ⟨_, _, rfl⟩ | ⟨_, _, v, _, rfl⟩⟩ := h
  · exact writesOf_failedChecks _ _ hc _
  · rw [writesOf_cons, hc v, writesOf_failedChecks _ _ hc]
    rfl

theorem writesOf_failedClears (id n k : Nat) : writesOf (failedClears id n k) = [] := by
  induction k with
  | zero => rfl
  | succ k ih =>
    rw [failedClears, writesOf_append, ih]
    rfl

/-- The clear loop writes nothing. -/
theorem ClearTrace.noWrites {c : Config} {vp : Vp} {ok : Bool} {es : List Event} (h : ClearTrace c vp ok es) :
    writesOf es = [] := by
  obtain ⟨n, ⟨_, _, rfl⟩ | ⟨_, _, rfl⟩⟩ := h
  · exact writesOf_failedClears _ _ _
  · exact writesOf_failedClears _ _ _

/-- `ReportError` writes nothing. -/
theorem reportUnlessTrace_noWrites (s : State) (ok : Bool) (d : DomId) (dom : Dom) (vp : Vp) :
    writesOf (s.reportUnlessTrace ok d dom vp) = [] := by
  unfold State.reportUnlessTrace State.reportTrace
  split
  · rfl
  · split <;> rfl

section ReportedUnless
variable (s : State) (ok ok' : Bool) (i : Instr) (d : DomId) (dom : Dom) (vp : Vp)
theorem reportedUnless_cfg : (s.reportedUnless ok dom).cfg = s.cfg := by cases ok <;> rfl
theorem reportedUnless_latch : (s.reportedUnless ok dom).latch = s.latch := by cases ok <;> rfl
theorem reportedUnless_events : (s.reportedUnless ok dom).events = s.events := by cases ok <;> rfl
theorem reportUnlessTrace_accept : (s.accept i).reportUnlessTrace ok d dom vp = s.reportUnlessTrace ok d dom vp := by
  cases ok <;> rfl
theorem reportUnlessTrace_accept_twice : ((s.accept i).reportedUnless ok dom).reportUnlessTrace ok' d dom vp =
    (s.reportedUnless ok dom).reportUnlessTrace ok' d dom vp := by
  cases ok <;> cases ok' <;> rfl
end ReportedUnless

/-! ### The domain operand (R40, R180) -/

/-- In a configuration that is not admitted no command's body runs (R56). -/
theorem command_configNotAdmitted (hm : s.mode = .ready) (ha : s.cfg.admitted = false) :
    command i s body = .refused .configNotAdmitted := by
  simp [command, guarded, hm, ha]

theorem dom_iff (c : Config) (d : DomId) (dom : Dom) : c.dom d = some dom ↔ HasDomain c d dom := by
  unfold Config.dom HasDomain
  cases h : c.doms[d.toNat]? with
  | none => simp
  | some x =>
    cases hp : x.present with
    | false =>
      simp only [hp, Option.some.injEq, Bool.false_eq_true, if_false, false_iff, not_and, reduceCtorEq]
      rintro rfl
      simp [hp]
    | true =>
      simp only [hp, Option.some.injEq, if_true]
      constructor
      · rintro rfl
        exact ⟨rfl, hp⟩
      · exact fun h => h.1

end Sys2Proof.Machine
end

