-- ==== Sys2Proof/Laws/Decode.lean ====
section
/-! SUPPORT. The fields of word 0 (R91): what each extractor reads from a word that was put together from its fields,
and that a word is the four of them; the addresses of a descriptor. -/

namespace Sys2Proof

variable (opc sel : BitVec 8) (shift : Shift)

/-- Word 0, bit by bit. -/
theorem getLsbD_word0 (i : Nat) : (word0 opc sel shift).getLsbD i =
    if i < 8 then opc.getLsbD i else if i < 16 then sel.getLsbD (i - 8)
    else if i < 21 then shift.getLsbD (i - 16) else false := by
  have h : (word0 opc sel shift).getLsbD i = (0#11 ++ shift ++ sel ++ opc : BitVec (11 + 5 + 8 + 8)).getLsbD i := rfl
  rw [h]
  simp only [BitVec.getLsbD_append, show i - 8 - 8 = i - 16 by omega]
  by_cases h1 : i < 8
  · simp [h1]
  · by_cases h2 : i < 16
    · simp [h1, h2, show i - 8 < 8 by omega]
    · by_cases h3 : i < 21
      · simp [h1, h2, h3, show ¬i - 8 < 8 by omega, show i - 16 < 5 by omega]
      · simp [h1, h2, h3, show ¬i - 8 < 8 by omega, show ¬i - 16 < 5 by omega]

@[simp] theorem opcOf_word0 : opcOf (word0 opc sel shift) = opc := by
  refine BitVec.eq_of_getLsbD_eq fun i h => ?_
  simp [opcOf, getLsbD_word0, h]

@[simp] theorem selOf_word0 : selOf (word0 opc sel shift) = sel := by
  refine BitVec.eq_of_getLsbD_eq fun i h => ?_
  simp [selOf, getLsbD_word0, h, show 8 + i < 16 by omega]

@[simp] theorem shiftOf_word0 : shiftOf (word0 opc sel shift) = shift := by
  refine BitVec.eq_of_getLsbD_eq fun i h => ?_
  simp [shiftOf, getLsbD_word0, h, show ¬16 + i < 8 by omega, show 16 + i < 21 by omega]

@[simp] theorem reservedOf_word0 : reservedOf (word0 opc sel shift) = 0#11 := by
  refine BitVec.eq_of_getLsbD_eq fun i h => ?_
  simp [reservedOf, getLsbD_word0, show ¬21 + i < 8 by omega, show ¬21 + i < 16 by omega]

/-- A word is its four fields. -/
theorem word0_of_fields (w : Word) (h : reservedOf w = 0#11) : word0 (opcOf w) (selOf w) (shiftOf w) = w := by
  refine BitVec.eq_of_getLsbD_eq fun i hi => ?_
  rw [getLsbD_word0]
  simp only [opcOf, selOf, shiftOf, BitVec.getLsbD_extractLsb']
  split
  · simp [*]
  · split
    · simp [show i - 8 < 8 by omega, show 8 + (i - 8) = i by omega]
    · split
      · simp [show i - 16 < 5 by omega, show 16 + (i - 16) = i by omega]
      · have := congrArg (fun x => x.getLsbD (i - 21)) h
        exact Eq.symm (by simpa [reservedOf, show i - 21 < 11 by omega, show 21 + (i - 21) = i by omega] using this)

/-! ### The addresses of a descriptor (R93, R94; log 6) -/

theorem addrWord_toNat {a : Addr} (h : inWord a = true) : (addrWord a).toNat = a := by
  rw [inWord, decide_eq_true_eq] at h
  rw [addrWord, BitVec.toNat_ofNat]
  exact Nat.mod_eq_of_lt h

theorem addrWord_of_toNat (w : Word) : addrWord w.toNat = w := by
  refine BitVec.eq_of_toNat_eq ?_
  rw [addrWord, BitVec.toNat_ofNat]
  exact Nat.mod_eq_of_lt w.isLt

theorem inWord_toNat (w : Word) : inWord w.toNat = true := by
  rw [inWord, decide_eq_true_eq]
  exact w.isLt

/-- The bases of an INIT_BASES that has a descriptor are read back from it. -/
theorem addrWords_toNat {l : List Addr} (h : l.all inWord = true) : (l.map addrWord).map BitVec.toNat = l := by
  rw [List.map_map]
  exact (List.map_congr_left fun a ha => addrWord_toNat (List.all_eq_true.mp h a ha)).trans (List.map_id l)

theorem addrWords_of_toNat (ws : List Word) : (ws.map BitVec.toNat).map addrWord = ws := by
  rw [List.map_map]
  exact (List.map_congr_left fun w _ => addrWord_of_toNat w).trans (List.map_id ws)

theorem inWord_all_toNat (ws : List Word) : (ws.map BitVec.toNat).all inWord = true := by
  simp [inWord_toNat]

/-- The optional target descriptor: what its four words decode to, and only those. -/
theorem decodeTd_ok (a b c d : Word) (td : Option TD) : decodeTd a b c d = .ok td ↔ encodeTd td = [a, b, c, d] := by
  unfold decodeTd
  cases td with
  | none =>
    simp only [encodeTd]
    split
    · rename_i h
      simp [h]
    · split
      · rename_i h
        simp [h.1, h.2.1, h.2.2.1, h.2.2.2]
      · rename_i h
        constructor
        · intro k
          cases k
        · intro k
          simp only [List.cons.injEq, and_true] at k
          exact absurd ⟨k.1.symm, k.2.1.symm, k.2.2.1.symm, k.2.2.2.symm⟩ h
  | some td =>
    obtain ⟨x, y, z⟩ := td
    simp only [encodeTd]
    split
    · rename_i h
      simp [h, eq_comm]
    · rename_i h
      split <;> simp [Ne.symm h]

end Sys2Proof
end

