-- ==== Sys2Proof/Laws/PerInstr.lean ====
section
/-! SUPPORT. Statements made once per command: the descriptor of a command has the length that its own first word
gives (R95), so that a descriptor can be taken from CMD by its first word alone. -/

namespace Sys2Proof.Laws.EncodeLength

/-- R95: the encoder's length is the one the first word gives. -/
def Statement (i : Instr) : Prop :=
  ∀ npart : Nat, i.wellFormed npart = true → (encode i).length = descriptorLength npart ((encode i).headD 0)

theorem initBases (bases : List Addr) : Statement (.initBases bases) := by
  intro npart h
  have h' : bases.length = npart := by
    simp only [Instr.wellFormed, Bool.and_eq_true, beq_iff_eq] at h
    exact h.1
  simp [encode, descriptorLength, h', Nat.add_comm]

theorem read (part : PartId) (inst idx : Addr) : Statement (.read part inst idx) := by
  intro npart _
  simp [encode, descriptorLength]

theorem write (value : Word) (part : PartId) (inst idx : Addr) : Statement (.write value part inst idx) := by
  intro npart _
  simp [encode, descriptorLength]

theorem rmw (mask bits : Word) (part : PartId) (inst idx : Addr) : Statement (.rmw mask bits part inst idx) := by
  intro npart _
  simp [encode, descriptorLength]

theorem rstIsAsserted (shift : Shift) (part : PartId) (inst off : Addr) : Statement (.rstIsAsserted shift part inst off) := by
  intro npart _
  simp [encode, descriptorLength]

theorem rstAssert (shift : Shift) (part : PartId) (inst off : Addr) : Statement (.rstAssert shift part inst off) := by
  intro npart _
  simp [encode, descriptorLength]

theorem rstDeassert (shift : Shift) (part : PartId) (inst off : Addr) : Statement (.rstDeassert shift part inst off) := by
  intro npart _
  simp [encode, descriptorLength]

theorem warmReset : Statement (.warmReset) := by
  intro npart _
  simp [encode, descriptorLength]

theorem coldReset : Statement (.coldReset) := by
  intro npart _
  simp [encode, descriptorLength]

theorem vpReadVolt (d : DomId) : Statement (.vpReadVolt d) := by
  intro npart _
  simp [encode, descriptorLength]

theorem vpInit (d : DomId) : Statement (.vpInit d) := by
  intro npart _
  simp [encode, descriptorLength]

theorem vpTxdone (d : DomId) : Statement (.vpTxdone d) := by
  intro npart _
  simp [encode, descriptorLength]

theorem vpTxclr (d : DomId) : Statement (.vpTxclr d) := by
  intro npart _
  simp [encode, descriptorLength]

theorem vpErrgain (d : DomId) (td : Option TD) : Statement (.vpErrgain d td) := by
  intro npart _
  cases td <;> simp [encode, encodeTd, descriptorLength]

theorem vpScale (d : DomId) (td : Option TD) : Statement (.vpScale d td) := by
  intro npart _
  cases td <;> simp [encode, encodeTd, descriptorLength]

theorem vpEnable (d : DomId) : Statement (.vpEnable d) := by
  intro npart _
  simp [encode, descriptorLength]

theorem vpDisable (d : DomId) : Statement (.vpDisable d) := by
  intro npart _
  simp [encode, descriptorLength]

end Sys2Proof.Laws.EncodeLength
end

