-- ==== Sys2Proof/Laws/Quiet.lean ====
section
/-! SUPPORT. Parts of a command in which no other agent moves: `Quiet b rest s` says that `s`, reached inside a command
from the state `b`, still has `b`'s configuration and bases, and the turns `rest` ahead; each law uses up the empty
turns of its operation. In quiet turns nothing cuts a command, so `command_quiet` takes the answered end of
`Completes`. -/

namespace Sys2Proof.Machine

/-- `s` has the configuration and the bases of `b`, and the turns `rest` are ahead. -/
structure Quiet (b : State) (rest : List (List Move)) (s : State) : Prop where
  script : s.script = rest
  cfg : s.cfg = b.cfg
  base : s.base = b.base

variable {b s : State} {rest : List (List Move)} {E : Stop → State → Prop}

theorem Quiet.line {l : Label} {Q : Unit → State → Prop} (h : Quiet b rest s) (k : ∀ t, Quiet b rest t → Q () t) :
    wp (line l) Q E s := k _ ⟨h.script, h.cfg, h.base⟩

theorem Quiet.setWork {f : Work → Work} {Q : Unit → State → Prop} (h : Quiet b rest s)
    (k : ∀ t, Quiet b rest t → Q () t) : wp (setWork f) Q E s := k _ ⟨h.script, h.cfg, h.base⟩

theorem Quiet.turn {Q : Unit → State → Prop} (h : Quiet b ([] :: rest) s) (k : ∀ t, Quiet b rest t → Q () t) :
    wp turn Q E s := by
  simp only [wp, turn_quiet s rest h.script]
  exact k _ ⟨rfl, h.cfg, h.base⟩

theorem Quiet.delay {us : Nat} {Q : Unit → State → Prop} (h : Quiet b ([] :: rest) s)
    (k : ∀ t, Quiet b rest t → Q () t) : wp (delay us) Q E s := by
  simp only [Machine.delay, wp_bind]
  exact h.turn fun t ht => k _ ⟨ht.script, ht.cfg, ht.base⟩

theorem Quiet.respond {st : Status} {v : Word} {Q : Unit → State → Prop} (h : Quiet b ([] :: rest) s)
    (k : ∀ t, Quiet b rest t → Q () t) : wp (respond st v) Q E s := by
  simp only [Machine.respond, wp_bind]
  exact h.turn fun t ht => k _ ⟨ht.script, ht.cfg, ht.base⟩

theorem Quiet.partitionOk (h : Quiet b rest s) (p : PartId) : s.partitionOk p = b.partitionOk p := by
  simp [State.partitionOk, State.baseOf, h.cfg, h.base]

theorem Quiet.effAddr (h : Quiet b rest s) (p : PartId) (inst idx : Addr) :
    s.effAddr p inst idx = b.effAddr p inst idx := by
  simp [State.effAddr, State.baseOf, h.cfg, h.base]

theorem Quiet.instRead {p : PartId} {inst idx : Addr} {Q : Word → State → Prop} (h : Quiet b ([] :: rest) s)
    (hp : b.partitionOk p = true) (ha : aligned (b.effAddr p inst idx) = true) (k : ∀ v t, Quiet b rest t → Q v t) :
    wp (instRead p inst idx) Q E s := by
  simp only [Machine.instRead, partCheck, resolve, wp_bind, wp_get, h.partitionOk, hp, if_true, wp_pure, h.effAddr,
    wp_setWork, memRead, targetRead, requireAligned, ha]
  refine Quiet.turn (b := b) (rest := rest) ⟨h.script, h.cfg, h.base⟩ fun t ht => ?_
  have hd : Quiet b rest t.drain :=
    ⟨(drain_script t).trans ht.script, (drain_envOnly t).cfg.trans ht.cfg, (drain_envOnly t).base.trans ht.base⟩
  simp only [wp_modify, targetAnswer, wp_bind, wp_get]
  split
  · exact k _ _ ⟨hd.script, hd.cfg, hd.base⟩
  · exact k _ _ ⟨hd.script, hd.cfg, hd.base⟩

theorem Quiet.instWrite {v : Word} {p : PartId} {inst idx : Addr} {Q : Unit → State → Prop}
    (h : Quiet b ([] :: rest) s) (hp : b.partitionOk p = true) (ha : aligned (b.effAddr p inst idx) = true)
    (k : ∀ t, Quiet b rest t → Q () t) : wp (instWrite v p inst idx) Q E s := by
  simp only [Machine.instWrite, partCheck, resolve, wp_bind, wp_get, h.partitionOk, hp, if_true, wp_pure, h.effAddr,
    wp_setWork, memWrite, targetWrite, requireAligned, ha]
  refine Quiet.turn (b := b) (rest := rest) ⟨h.script, h.cfg, h.base⟩ fun t ht => ?_
  exact k _ ⟨ht.script, ht.cfg, ht.base⟩

/-- A command that completes, or is cut short, and that nothing can cut because nobody moves in its turns: its good
end. The law of the body is used twice, once for the end and once for the quiet turns. -/
theorem command_quiet {i : Instr} {body : Act Unit} {P : State → Prop} (hr : s.takesCommand)
    (hf : ∀ t, command i s body = .next t → s.undisturbed → Framed s t)
    (hg : Did (CutOnly s) (s.accept i) (s.accept i) [] →
      wp body (fun _ t => (s.undisturbed → Framed s t) → P t) (CutOnly s) (s.accept i))
    (hq : Quiet s s.script (s.accept i) → wp body (fun _ _ => True) (fun _ _ => False) (s.accept i)) :
    ∃ t, command i s body = .next t ∧ P t := by
  have hw := wp_and (hg (Did.start _ fun t ht => ⟨rfl, ht⟩)) (hq ⟨rfl, rfl, rfl⟩)
  obtain ⟨t, h1, h2⟩ := command_next (P := fun t => (s.undisturbed → Framed s t) → P t) hr.1 hr.2
    (wp_mono hw (fun _ _ h => h.1) fun _ _ h => h.2.elim)
  exact ⟨t, h1, h2 (hf t h1)⟩

end Sys2Proof.Machine
end

