-- ==== Sys2Proof/Laws/Step.lean ====
section
/-! SUPPORT. What a command and a step can do, said once: `Kept.exec` gathers the laws of the commands into one, with
the extra effects named by the command that has them; `step_cases` says which of the five kinds of step it was;
`step_kept` is the induction-free core of every invariant. -/

namespace Sys2Proof.Machine

variable {F : PartId → Prop} {P Q : State → Prop} {i : Instr} {s t : State}

/-- A command that gives a next state was accepted in READY, with an admitted configuration. -/
theorem exec_ready (h : exec i s = .next t) : s.mode = .ready ∧ s.cfg.admitted = true := by
  have k : ∀ {body : Act Unit}, command i s body = .next t → s.mode = .ready ∧ s.cfg.admitted = true :=
    fun hb => ⟨(command_inv hb).1, (command_inv hb).2.1⟩
  cases i <;> exact k h

/-- What every single thing a command does keeps, the command keeps. -/
theorem Kept.exec (h : Kept F P Q) (hp : usesPartition i = true → F (s.partitionOf i))
    (base : ∀ bases, i = .initBases bases → ∀ u, P u → P (u.withBases bases))
    (clear : ∀ d, i = .vpInit d ∨ i = .vpDisable d → ∀ u, P u → P (u.withVpen d false))
    (arm : ∀ d, i = .vpEnable d → ∀ u, P u → P (u.withVpen d true))
    (vps : ∀ d td, i = .vpScale d td → ∀ u x, P u → P { u with vpstate := x })
    (report : (∃ d td, i = .vpScale d td) ∨ (∃ d, i = .vpDisable d) →
      ∀ d dom vp, Keeps P Q (Machine.reportError d dom vp))
    (hs : P (s.accept i)) (hx : Machine.exec i s = .next t) : Q t := by
  cases i with
  | initBases bases => exact h.execInitBases (base _ rfl) hs hx
  | read p inst idx => exact h.execRead (hp rfl) hs hx
  | write v p inst idx => exact h.execWrite (hp rfl) hs hx
  | rmw m b p inst idx => exact h.execRmw (hp rfl) hs hx
  | rstIsAsserted sh p inst off => exact h.execRstIsAsserted (hp rfl) hs hx
  | rstAssert sh p inst off => exact h.execRstAssert (hp rfl) hs hx
  | rstDeassert sh p inst off => exact h.execRstDeassert (hp rfl) hs hx
  | warmReset => exact h.execWarmReset (hp rfl) hs hx
  | coldReset => exact h.execColdReset (hp rfl) hs hx
  | vpReadVolt d => exact h.execVpReadVolt hs hx
  | vpInit d => exact h.execVpInit (clear d (.inl rfl)) hs hx
  | vpTxdone d => exact h.execVpTxdone hs hx
  | vpTxclr d => exact h.execVpTxclr hs hx
  | vpErrgain d td => exact h.execVpErrgain hs hx
  | vpScale d td => exact h.execVpScale (vps _ _ rfl) (report (.inl ⟨_, _, rfl⟩)) hs hx
  | vpEnable d => exact h.execVpEnable (arm d rfl) hs hx
  | vpDisable d => exact h.execVpDisable (clear d (.inr rfl)) (report (.inr ⟨_, rfl⟩)) hs hx

/-- A command in progress: BASE and the configuration are those of `s`, none of its events is a reset, and no reset is
ahead where none was and the command asked for none. -/
def Uncut (s u : State) : Prop :=
  u.base = s.base ∧ u.cfg = s.cfg ∧ ∃ es, u.events = es ++ s.events ∧ (∀ e ∈ es, e.isReset = false) ∧
    (s.noResets = true → ¬s.RequestsAmong es → u.noResets = true)

theorem not_resetSince {es : List Event} (he : t.events = es ++ s.events) (hr : ∀ e ∈ es, e.isReset = false) :
    ¬ResetSince s t := by
  rintro ⟨xs, e, h1, h2, h3⟩
  have : xs = es := List.append_cancel_right (h1.symm.trans he)
  subst this
  rw [hr e h2] at h3
  cases h3

theorem Uncut.event {e : Event} (he : e.isReset = false) (ht : t.events = e :: s.events)
    {u : State} (h : Uncut u s) (hb : t.base = s.base) (hc : t.cfg = s.cfg)
    (hn : u.noResets = true → ¬u.RequestsAmong [e] → s.noResets = true → t.noResets = true) : Uncut u t := by
  obtain ⟨h1, h2, es, h3, h4, h5⟩ := h
  refine ⟨hb.trans h1, hc.trans h2, e :: es, ht.trans (congrArg (List.cons e) h3), ?_, fun hs hr => ?_⟩
  · exact List.forall_mem_cons.mpr ⟨he, h4⟩
  · refine hn hs (fun hq => hr ?_) (h5 hs fun hq => hr (.append [e] hq))
    obtain ⟨a, v, k1, k2⟩ := hq
    rw [List.mem_singleton] at k1
    exact ⟨a, v, k1 ▸ List.mem_cons_self, k2⟩

theorem uncut_kept (s : State) : Kept (fun _ => True) (Uncut s) (fun u => ResetSince s u → CutShort s u) where
  phase _ _ h := h
  work _ _ h := h
  tick _ _ h := h
  host _ _ h := h
  txdone _ _ _ h := h
  emit u e _ _ he _ _ h := h.event he rfl rfl rfl fun _ _ k => k
  write u e w hw _ h := by
    refine h.event (by cases e <;> first | rfl | cases hw) rfl rfl rfl fun _ hr k => issue_noResets hw (fun he => ?_) k
    cases hx : u.requestsGlobalReset w.addr w.value with
    | false => rfl
    | true =>
      refine absurd ⟨w.addr, w.value, he ▸ List.mem_cons_self, ?_⟩ hr
      simpa [State.requestsGlobalReset, State.globalCtrl, State.effAddr, State.baseOf, h.1, h.2.1] using hx
  drain u h := by
    obtain ⟨h1, h2, es, h3, h4, h5⟩ := h
    have hd := drain_envOnly u
    exact ⟨hd.base.trans h1, hd.cfg.trans h2, es, hd.events.trans h3, h4, fun hs hr =>
      (drain_noResets u).trans (h5 hs hr)⟩
  turn u h := by
    obtain ⟨h1, h2, es, h3, h4, h5⟩ := h
    refine wp_turn (fun t ht hc => ?_) (fun t hn hr hx => ⟨hx, fun hs => ?_⟩)
    · exact ⟨ht.base.trans h1, ht.cfg.trans h2, es, ht.events.trans h3, h4, fun hs hr => hc.calm (h5 hs hr)⟩
    · obtain ⟨xs, e, k1, k2, k3⟩ := hr
      refine ⟨xs ++ es, by rw [k1, h3, List.append_assoc], .append xs ?_⟩
      refine Classical.byContradiction fun hq => ?_
      rw [h5 hs hq] at hn
      cases hn
  fatal u _ _ _ h hr := by
    obtain ⟨_, _, es, h3, h4, _⟩ := h
    exact absurd hr (not_resetSince h3 h4)
  finish u st v h hr := by
    obtain ⟨_, _, es, h3, h4, _⟩ := h
    exact absurd hr (not_resetSince (es := .respond st v :: es) (congrArg (List.cons _) h3)
      (List.forall_mem_cons.mpr ⟨rfl, h4⟩))

/-- Where a reset came and none was coming, the command asked for it (R243). -/
theorem exec_cutShort (hx : exec i s = .next t) (hr : ResetSince s t) : CutShort s t := by
  have hs : ∀ j, Uncut s (s.accept j) := fun j => ⟨rfl, rfl, [], rfl, nofun, fun h _ => h⟩
  have h := uncut_kept s
  by_cases hi : ∃ bases, i = .initBases bases
  · obtain ⟨bases, rfl⟩ := hi
    refine command_post (Q := fun u => ResetSince s u → CutShort s u) hx ?_ hr
    simp only [wp_bind, wp_modify, wp_line]
    refine wp_respond (fun u hu hc => ?_) fun u hn hc _ hk => ⟨hk, fun hm => ?_⟩
    · exact absurd hc (not_resetSince (es := [.respond .ok 0]) (congrArg (List.cons _) hu.events)
        (by simp [Event.isReset]))
    · exact absurd (show s.noResets = true from hm) (by rw [show s.noResets = false from hn]; simp)
  · refine h.exec (fun _ => trivial) (fun b hb => absurd ⟨b, hb⟩ hi) (fun _ _ _ k => k) (fun _ _ _ k => k)
      (fun _ _ _ _ _ k => k) (fun _ => h.reportError (fun _ _ k => k) fun _ _ k => k) (hs i) hx hr

/-- Every element of R39 has its reset value for the configuration `c`. -/
structure ResetValues (c : Config) (t : State) : Prop where
  cfg : t.cfg = c
  base : t.base = List.replicate c.npart 0
  vpen : t.vpen = List.replicate c.doms.length false
  msgCnt : t.msgCnt = c.n1
  recCnt : t.recCnt = c.n2
  mode : t.mode = .ready
  vpstate : t.vpstate = .idle
  phase : t.phase = none
  work : t.work = {}
  wq : t.wq = []

theorem WasReset.values (h : WasReset s t) : ResetValues s.cfg t :=
  ⟨h.cfg, h.base, h.vpen, h.msgCnt, h.recCnt, h.mode, h.vpstate, h.phase, h.work, h.wq⟩

theorem ResetValues.env {c : Config} (v : ResetValues c s) (h : EnvOnly s t) : ResetValues c t :=
  ⟨h.cfg.trans v.cfg, h.base.trans v.base, h.vpen.trans v.vpen, h.msgCnt.trans v.msgCnt, h.recCnt.trans v.recCnt,
    h.mode.trans v.mode, h.vpstate.trans v.vpstate, h.phase.trans v.phase, h.work.trans v.work,
    List.suffix_nil.mp (v.wq ▸ h.wq)⟩

/-- A command that a reset came into leaves the block at its reset values (R242). -/
theorem exec_resetValues (hx : exec i s = .next t) (hr : ResetSince s t) : ResetValues s.cfg t := by
  have h : Kept (fun _ => True)
      (fun u => u.cfg = s.cfg ∧ ∃ es, u.events = es ++ s.events ∧ ∀ e ∈ es, e.isReset = false)
      (fun u => ResetSince s u → ResetValues s.cfg u) := by
    refine .of (R := ResetValues s.cfg) (fun _ h _ => h) (fun u t h ⟨a, es, b⟩ => ?_) (fun _ _ h v => v.env h)
      (fun u t h ⟨a, _⟩ => a ▸ h.values) (fun u t h v => v.cfg ▸ h.values) (fun _ _ _ _ h => h)
      (fun u e _ he _ ⟨a, es, b, c⟩ => ?_) (fun _ _ h => h) (fun u p _ _ ⟨_, es, b, c⟩ hr => ?_)
      (fun u st v ⟨_, es, b, c⟩ hr => ?_)
    · exact ⟨h.cfg.trans a, es, h.events.trans b.1, b.2⟩
    · exact ⟨a, e :: es, congrArg (List.cons e) b, List.forall_mem_cons.mpr ⟨he, c⟩⟩
    · exact absurd hr (not_resetSince b c)
    · exact absurd hr (not_resetSince (es := .respond st v :: es) (congrArg (List.cons _) b)
        (List.forall_mem_cons.mpr ⟨rfl, c⟩))
  exact h.exec (fun _ => trivial) (fun _ _ _ k => k) (fun _ _ _ k => k) (fun _ _ _ k => k) (fun _ _ _ _ _ k => k)
    (fun _ => h.reportError (fun _ _ k => k) fun _ _ k => k) ⟨rfl, [], rfl, nofun⟩ hx hr
/-- A turn of the block while it waits gives the state the turn reaches, cut or not. -/
theorem MovesKeep.idleTurn (h : MovesKeep Q Q) (hs : Q s) : Q s.idleTurn := by
  obtain ⟨h1, h2⟩ := h.takeTurn s hs
  cases hr : s.takeTurn.2 with
  | true => exact h1 hr
  | false => exact h2 hr

/-- A step that goes on was a block reset, a reset that ended FATAL, a turn in which the block waited, a command or an
illegal descriptor. -/
theorem step_cases (h : step s = .next t) :
    (∃ keep, s.resetPin = some keep ∧ t = s.blockReset keep) ∨
    (s.resetPin = none ∧ s.mode = .fatal ∧ (awaitReset s.script s).2 = true ∧ t = (awaitReset s.script s).1) ∨
    (s.resetPin = none ∧ s.mode = .ready ∧ takeDescriptor s.cfg.npart s.cmd = none ∧ t = s.idleTurn) ∨
    (∃ ws rest i, s.resetPin = none ∧ s.mode = .ready ∧ takeDescriptor s.cfg.npart s.cmd = some (ws, rest) ∧
      decode s.cfg.npart ws = .ok i ∧ exec i { s with cmd := rest } = .next t) ∨
    (∃ ws rest r, s.resetPin = none ∧ s.mode = .ready ∧ takeDescriptor s.cfg.npart s.cmd = some (ws, rest) ∧
      decode s.cfg.npart ws = .error r ∧ answerIllegal { s with cmd := rest } = .next t) := by
  unfold step at h
  split at h
  · exact .inl ⟨_, ‹_›, by cases h; rfl⟩
  · split at h
    · split at h
      · cases h
        exact .inr (.inl ⟨‹_›, ‹_›, ‹_›, rfl⟩)
      · cases h
    · cases h
    · split at h
      · cases h
        exact .inr (.inr (.inl ⟨‹_›, ‹_›, ‹_›, rfl⟩))
      · split at h
        · exact .inr (.inr (.inr (.inl ⟨_, _, _, ‹_›, ‹_›, ‹_›, ‹_›, h⟩)))
        · exact .inr (.inr (.inr (.inr ⟨_, _, _, ‹_›, ‹_›, ‹_›, ‹_›, h⟩)))

/-- The answer to an illegal descriptor, by the law of the response. -/
theorem Kept.answerIllegal (h : Kept F P Q) (hs : P s) (hx : Machine.answerIllegal s = .next t) : Q t := by
  have hw := (h.respond .illegalCommand 0) s hs
  unfold wp at hw
  unfold Machine.answerIllegal guarded at hx
  split at hx
  · cases hx
  · cases hx
  · split at hx
    · cases hr : Machine.respond .illegalCommand 0 s with
      | ok a u =>
        rw [hr] at hw hx
        cases hx
        exact hw
      | error e u =>
        rw [hr] at hw hx
        cases e with
        | cut => cases hx; exact hw rfl
        | refuse r => cases hx
    · cases hx

/-- An invariant `Q` is kept by every step: `P` is what it says while a command runs. -/
theorem step_kept (h : Kept (fun _ => True) P Q) (m : MovesKeep Q Q)
    (start : ∀ u cmd (i : Instr), Q u → u.mode = .ready → P ({ u with cmd := cmd }.accept i))
    (illegal : ∀ u cmd, Q u → u.mode = .ready → P { u with cmd := cmd })
    (base : ∀ bases u, P u → P (u.withBases bases)) (vpen : ∀ d b u, P u → P (u.withVpen d b))
    (vps : ∀ u x, P u → P { u with vpstate := x }) (report : ∀ d dom vp, Keeps P Q (reportError d dom vp))
    (hs : Q s) (hx : step s = .next t) : Q t := by
  obtain ⟨keep, _, rfl⟩ | ⟨_, _, hr, rfl⟩ | ⟨_, _, _, rfl⟩ | ⟨ws, rest, i, _, hm, _, _, he⟩ |
    ⟨ws, rest, r, _, hm, _, _, he⟩ := step_cases hx
  · exact m.block s keep hs
  · exact m.awaitReset s.script s hs hr
  · exact m.idleTurn hs
  · exact h.exec (fun _ => trivial) (fun b _ => base b) (fun d _ => vpen d false) (fun d _ => vpen d true)
      (fun _ _ _ => vps) (fun _ => report) (start s rest i hs hm) he
  · exact h.answerIllegal (illegal s rest hs hm) he

end Sys2Proof.Machine
end

