-- ==== Sys2Proof/Laws/Work.lean ====
section
/-! SUPPORT. The working registers (10_state R29, R34), one law per operation: `Worked E b s es w` is `Did E b s es`
with the working registers at `w`. For the commands whose working registers a statement speaks of. -/

namespace Sys2Proof.Machine

/-- As `Did`, and the working registers hold `w`. -/
structure Worked (E : Stop → State → Prop) (b s : State) (es : List Event) (w : Work) : Prop extends Did E b s es where
  work : s.work = w

variable {b s : State} {es : List Event} {w : Work} {E : Stop → State → Prop}

theorem Worked.start (b : State) (h : ∀ t, CutShort b t → E .cut t) : Worked E b b [] b.work := ⟨Did.start b h, rfl⟩

theorem Worked.line {l : Label} {Q : Unit → State → Prop} (h : Worked E b s es w)
    (k : ∀ t, Worked E b t es w → Q () t) : wp (line l) Q E s := k _ ⟨h.toDid.phase _, h.work⟩

theorem Worked.subLine {l : SubLabel} {Q : Unit → State → Prop} (h : Worked E b s es w)
    (k : ∀ t, Worked E b t es w → Q () t) : wp (subLine l) Q E s := k _ ⟨h.toDid.phase _, h.work⟩

theorem Worked.endSub {Q : Unit → State → Prop} (h : Worked E b s es w) (k : ∀ t, Worked E b t es w → Q () t) :
    wp endSub Q E s := k _ ⟨h.toDid.phase _, h.work⟩

theorem Worked.setWork {f : Work → Work} {Q : Unit → State → Prop} (h : Worked E b s es w)
    (k : ∀ t, Worked E b t es (f w) → Q () t) : wp (setWork f) Q E s :=
  k _ ⟨h.toDid.work _, congrArg f h.work⟩

theorem Worked.backEdge {left : Nat} {l : SubLabel} {Q : Unit → State → Prop} (h : Worked E b s es w)
    (k : ∀ t, Worked E b t es w → Q () t) : wp (backEdge left l) Q E s := by
  simp only [Machine.backEdge, wp_ite, wp_pure]
  exact ⟨fun _ => k _ h, fun _ => h.subLine k⟩

theorem Worked.turn {Q : Unit → State → Prop} (h : Worked E b s es w) (k : ∀ t, Worked E b t es w → Q () t) :
    wp turn Q E s :=
  wp_turn (fun t ht hc => k t ⟨h.toDid.env ht hc, ht.work.trans h.work⟩)
    fun t hn hr => h.cut t (h.cutShort hn hr)

theorem Worked.memRead {a : Addr} {Q : Word → State → Prop} (h : Worked E b s es w) (ha : aligned a = true)
    (k : ∀ v t, Worked E b t (.mmioRead a v :: es) w → Q v t) : wp (memRead a) Q E s := by
  simp only [Machine.memRead, Machine.targetRead, wp_bind]
  refine Did.requireAligned ha (h.turn fun t ht => ?_)
  simp only [wp_modify, targetAnswer, wp_bind, wp_get, wp_emit, wp_pure]
  have hd : Worked E b t.drain es w :=
    ⟨ht.toDid.env (drain_envOnly t) ⟨(drain_noResets t).trans, (drain_script t).trans⟩,
      (drain_envOnly t).work.trans ht.work⟩
  split
  · exact k _ _ ⟨hd.toDid.emit _, hd.work⟩
  · exact k _ _ ⟨(hd.toDid.tick _).emit _, hd.work⟩

theorem Worked.memWrite {a : Addr} {v : Word} {Q : Unit → State → Prop} (h : Worked E b s es w)
    (ha : aligned a = true) (k : ∀ t, Worked E b t (.mmioWrite a v :: es) w → Q () t) : wp (memWrite a v) Q E s := by
  simp only [Machine.memWrite, Machine.targetWrite, wp_bind]
  refine Did.requireAligned ha (h.turn fun t ht => ?_)
  exact k _ ⟨ht.toDid.write (.mmioWrite a v) ⟨.mmio, a, v⟩ rfl, ht.work⟩

theorem Worked.delay {us : Nat} {Q : Unit → State → Prop} (h : Worked E b s es w)
    (k : ∀ t, Worked E b t (.delay us :: es) w → Q () t) : wp (delay us) Q E s := by
  simp only [Machine.delay, wp_bind]
  exact h.turn fun t ht => k _ ⟨ht.toDid.emit _, ht.work⟩

theorem Worked.respond {st : Status} {v : Word} {Q : Unit → State → Prop} (h : Worked E b s es w)
    (k : ∀ t, Worked E { b with res := st.code, rval := v, mode := .ready } t (.respond st v :: es) w →
      t.phase = none → Q () t) : wp (respond st v) Q E s := by
  simp only [Machine.respond, wp_bind]
  exact h.turn fun t ht => k _ ⟨ht.toDid.responded st v, ht.work⟩ rfl

theorem Worked.instRead {p : PartId} {inst idx : Addr} {Q : Word → State → Prop} (h : Worked E b s es w)
    (hp : b.partitionOk p = true) (ha : aligned (b.effAddr p inst idx) = true)
    (k : ∀ v t, Worked E b t (.mmioRead (b.effAddr p inst idx) v :: es) { w with ea := some (b.effAddr p inst idx) } →
      Q v t) : wp (instRead p inst idx) Q E s := by
  simp only [Machine.instRead, partCheck, resolve, wp_bind, wp_get, h.partitionOk, hp, if_true, wp_pure, h.effAddr]
  exact h.setWork fun t ht => ht.memRead ha k

theorem Worked.instWrite {v : Word} {p : PartId} {inst idx : Addr} {Q : Unit → State → Prop} (h : Worked E b s es w)
    (hp : b.partitionOk p = true) (ha : aligned (b.effAddr p inst idx) = true)
    (k : ∀ t, Worked E b t (.mmioWrite (b.effAddr p inst idx) v :: es) { w with ea := some (b.effAddr p inst idx) } →
      Q () t) : wp (instWrite v p inst idx) Q E s := by
  simp only [Machine.instWrite, partCheck, resolve, wp_bind, wp_get, h.partitionOk, hp, if_true, wp_pure, h.effAddr]
  exact h.setWork fun t ht => ht.memWrite ha k

theorem Worked.instRmw {mask bits : Word} {p : PartId} {inst idx : Addr} {Q : Word → State → Prop}
    (h : Worked E b s es w) (hp : b.partitionOk p = true) (ha : aligned (b.effAddr p inst idx) = true)
    (k : ∀ old t, Worked E b t (.mmioWrite (b.effAddr p inst idx) (merge old mask bits) ::
      .mmioRead (b.effAddr p inst idx) old :: es)
      { w with ea := some (b.effAddr p inst idx), v := some (merge old mask bits) } → Q (merge old mask bits) t) :
    wp (instRmw mask bits p inst idx) Q E s := by
  simp only [Machine.instRmw, wp_bind]
  refine h.instRead hp ha fun old t ht => ?_
  refine ht.setWork fun t ht => ht.setWork fun t ht => ?_
  exact ht.instWrite hp ha fun u hu => k old u hu

theorem Worked.isAsserted {shift : Shift} {p : PartId} {inst off : Addr} {Q : Bool → State → Prop}
    (h : Worked E b s es w) (hp : b.partitionOk p = true) (ha : aligned (b.effAddr p inst off) = true)
    (k : ∀ v t, Worked E b t (.mmioRead (b.effAddr p inst off) v :: es)
      { w with ea := some (b.effAddr p inst off), v := some v } → Q (bitSet v shift) t) :
    wp (isAsserted shift p inst off) Q E s := by
  simp only [Machine.isAsserted, wp_bind]
  exact h.instRead hp ha fun v t ht => ht.setWork fun t ht => k v t ht

/-- What `left` more polls leave: nothing but OKF when there is none, else EA, V of the last poll, and CNT counted up
by the delays. -/
theorem Worked.pollLoop {shift : Shift} {p : PartId} {inst off : Addr} {delayUs left : Nat} {cnt : Word}
    {Q : Bool → State → Prop} (hp : b.partitionOk p = true) (ha : aligned (b.effAddr p inst off) = true)
    (h : Worked E b s es { w with cnt := some cnt })
    (k : ∀ ok polls last t, PollTrace left delayUs (.mmioRead (b.effAddr p inst off)) (fun v => bitSet v shift) ok polls →
      (polls = [] ∧ Worked E b t es { w with cnt := some cnt, okf := some ok } ∨
        polls.find? Event.isMmioRead = some (.mmioRead (b.effAddr p inst off) last) ∧
          Worked E b t (polls ++ es) { w with
            ea := some (b.effAddr p inst off)
            v := some last
            cnt := some (cnt + BitVec.ofNat 32 (polls.countP Event.isDelay))
            okf := some ok }) → Q ok t) :
    wp (pollLoop (Machine.isAsserted shift p inst off) delayUs left cnt) Q E s := by
  induction left generalizing s es cnt w with
  | zero =>
    simp only [Machine.pollLoop, wp_bind]
    exact h.setWork fun t ht => k false [] 0 t ⟨[], by simp, .inl ⟨rfl, rfl, rfl⟩⟩ (.inl ⟨rfl, ht⟩)
  | succ left ih =>
    simp only [Machine.pollLoop, wp_bind]
    refine h.subLine fun s h => h.isAsserted hp ha fun v t ht => ?_
    cases hv : bitSet v shift with
    | true =>
      simp only [if_true, wp_bind]
      refine ht.setWork fun t ht => k true [.mmioRead (b.effAddr p inst off) v] v t
        ⟨[], by simp, .inr ⟨rfl, by simp, v, hv, rfl⟩⟩ (.inr ⟨rfl, ?_⟩)
      simpa [Event.isDelay] using ht
    | false =>
      simp only [Bool.false_eq_true, if_false, wp_bind]
      refine ht.subLine fun t ht => ht.setWork fun t ht => ht.subLine fun t ht => ht.delay fun t ht => ?_
      refine ht.subLine fun t ht => ht.backEdge fun t ht => ?_
      refine ih (w := { w with ea := some (b.effAddr p inst off), v := some v }) ht fun ok polls last y hw hy => ?_
      obtain ⟨failed, hf, hw⟩ := hw
      have hall : ∀ x ∈ failed ++ [v], bitSet x shift = false := by
        intro x hx
        rcases List.mem_append.mp hx with hx | hx
        · exact hf x hx
        · rw [List.mem_singleton.mp hx]
          exact hv
      refine k ok (polls ++ [.delay delayUs, .mmioRead (b.effAddr p inst off) v]) (if polls = [] then v else last) y
        ⟨failed ++ [v], hall, ?_⟩ (.inr ?_)
      · rcases hw with ⟨h1, h2, rfl⟩ | ⟨h1, h2, x, h3, rfl⟩
        · exact .inl ⟨h1, by simp [h2], by simp [failedChecks]⟩
        · exact .inr ⟨h1, by simp [h2], x, h3, by simp [failedChecks]⟩
      · rcases hy with ⟨rfl, hy⟩ | ⟨h1, hy⟩
        · refine ⟨by simp [Event.isMmioRead], ?_⟩
          simpa [Event.isDelay, List.countP_cons] using hy
        · have hne : polls ≠ [] := by rintro rfl; simp at h1
          refine ⟨by simp [h1, hne, List.find?_append], ?_⟩
          have hc : cnt + 1 + BitVec.ofNat 32 (polls.countP Event.isDelay) =
              cnt + BitVec.ofNat 32 ((polls ++ [Event.delay delayUs, Event.mmioRead (b.effAddr p inst off) v]).countP
                Event.isDelay) := by
            rw [List.countP_append, show [Event.delay delayUs, Event.mmioRead (b.effAddr p inst off) v].countP
              Event.isDelay = 1 from rfl, BitVec.ofNat_add, BitVec.add_assoc, BitVec.add_comm 1]
            rfl
          rw [hc] at hy
          simpa [hne] using hy

/-- Line DA5 of RST_DEASSERT: what the polls leave in the working registers, where the budget is at least 1 (R56). -/
theorem Worked.statusPolls {shift : Shift} {p : PartId} {inst off : Addr} {Q : Bool → State → Prop}
    (hp : b.partitionOk p = true) (ha : aligned (b.effAddr p inst off) = true) (hb : b.cfg.hardresetBudget ≠ 0)
    (h : Worked E b s es w)
    (k : ∀ ok polls last t, StatusPolls b.cfg (b.effAddr p inst off) shift ok polls →
      polls.find? Event.isMmioRead = some (.mmioRead (b.effAddr p inst off) last) →
      Worked E b t (polls ++ es) { w with
        ea := some (b.effAddr p inst off)
        v := some last
        cnt := some (BitVec.ofNat 32 (polls.countP Event.isDelay))
        okf := some ok } → Q ok t) :
    wp (Machine.pollUntil (Machine.isAsserted shift p inst off) b.cfg.hardresetBudget b.cfg.hardresetDelayUs) Q E s := by
  simp only [Machine.pollUntil, wp_bind]
  refine h.subLine fun s h => h.setWork fun s h => Worked.pollLoop hp ha h fun ok polls last t hw ht => ?_
  rcases ht with ⟨rfl, -⟩ | ⟨h1, ht⟩
  · obtain ⟨failed, -, ⟨-, h2, h3⟩ | ⟨-, -, x, -, h3⟩⟩ := hw
    · have hl : failed = [] := by
        cases failed with
        | nil => rfl
        | cons x l => simp [failedChecks] at h3
      rw [hl] at h2
      exact absurd (BitVec.eq_of_toNat_eq h2.symm) hb
    · cases h3
  · refine k ok polls last _ hw h1 ⟨ht.toDid.phase _, ?_⟩
    have := ht.work
    simpa using this

end Sys2Proof.Machine
end

