-- ==== Sys2Proof/Tests/Slice0.lean ====
section
/-! SUPPORT. Tests: the words and the event sequences of 95_test_vectors (each test names its vector), and for every
statement with hypotheses a concrete state and operands that meet them all. -/

namespace Sys2Proof.Tests

open Sys2Proof.Machine

/-! ### Small states and what to look at -/

/-- EX1 after INIT_BASES (95_test_vectors, section 0), with enough turns in which no other agent moves. -/
def start : State :=
  { State.reset with
    base := [0, 0x4A306000, 0x4A004000, 0x4A008000, 0x4A30A000, 0x48243000]
    script := List.replicate 40 [] }

/-- The registers hold the values. -/
def holding (regs : List (Port × Addr × Word)) (s : State) : State :=
  { s with target := regs.foldl (fun t e => t.put e.1 e.2.1 e.2.2) s.target }

/-- The transaction-done indication of VP 7 is known. -/
def pending (b : Bool) (s : State) : State := { s with target := s.target.setTxdone 7 b }

/-- The register is of the write-1-to-clear kind. -/
def w1c (a : Addr) (s : State) : State := { s with target := { s.target with w1c := [regKey .mmio a] } }

/-- The moves come at the `n`-th turn from now. -/
def at' (n : Nat) (m : List Move) (s : State) : State := { s with script := s.script.set n m }

/-- HOST's next answers. -/
def answering (preScale : List PreScaleResult) (lookup : List (Option TD)) (s : State) : State :=
  { s with host := ⟨preScale, lookup⟩ }

/-- VP 2 is enabled. -/
def enabled (s : State) : State := { s with vpen := [false, false, true] }

/-- EX1 with another VP of domain 2. -/
def withVp (vp : Vp) : State :=
  { start with cfg := { start.cfg with doms := [Config.ex1Dom, Config.ex1Dom, { Config.ex1Dom with vp := some vp }] } }

/-- EX1's VP with every register two bytes off, and with the configuration register alone. -/
def skewed : Vp := { Config.ex1Vp with vpconfig := 2, vstatus := 6, voltage := 0xE }
def skewedConfig : Vp := { Config.ex1Vp with vpconfig := 2 }

/-- The state reached; the reset state where there is none. -/
def after : Host.Outcome State Fault Refusal → State
  | .next t => t
  | .fault _ => State.reset
  | .refused _ => State.reset

/-- The outcome is a next state. -/
def ran : Host.Outcome State Fault Refusal → Bool
  | .next _ => true
  | .fault _ => false
  | .refused _ => false

theorem ran_next {o : Host.Outcome State Fault Refusal} (h : ran o = true) : o = .next (after o) := by
  cases o <;> first | rfl | simp [ran] at h

/-- The events of a command, in order, where it gives a next state. -/
def events (i : Instr) (s : State) : Option (List Event) :=
  match exec i s with
  | .next t => some t.events.reverse
  | .fault _ => none
  | .refused _ => none

/-- The command is refused for this reason. -/
def refuses (i : Instr) (s : State) (r : Refusal) : Bool :=
  match exec i s with
  | .next _ => false
  | .fault _ => false
  | .refused r' => r' = r

/-- Line RL of EX1: control and status register. -/
def ctrl : Addr := 0x4A306410
def st : Addr := 0x4A306414

/-- `td1` of 95_test_vectors. -/
def td1 : TD := ⟨1100000, 0x0C, 0⟩

/-! ### Well-formedness -/

theorem test_initBases_of_wrong_length_is_ill_formed : (Instr.initBases [0, 0x4A306000]).wellFormed 6 = false := by decide

theorem test_initBases_of_right_length_is_well_formed : (Instr.initBases [0, 1, 2, 3, 4, 5]).wellFormed 6 = true := by
  decide

/-! ### Decoding: R105's words for every command, and the illegal ones (T-ENC) -/

/-- P1, command 1. -/
theorem test_decode_initBases :
    decode 6 [0x00000001, 0, 0x4A306000, 0x4A004000, 0x4A008000, 0x4A30A000, 0x48243000] =
      .ok (.initBases [0, 0x4A306000, 0x4A004000, 0x4A008000, 0x4A30A000, 0x48243000]) := by decide
/-- T-ENC-1. -/
theorem test_decode_read : decode 6 [0x00000102, 0x400, 0x10, 0, 0] = .ok (.read 1 0x400 0x10) := by decide
theorem test_decode_write :
    decode 6 [0b00000000000_00000_00000101_00000011, 0x400, 0x10, 0x1234, 0] = .ok (.write 0x1234 5 0x400 0x10) := by
  decide
theorem test_decode_rmw :
    decode 6 [0b00000000000_00000_00000001_00000100, 0x400, 0x10, 0xFF00, 0x1200] =
      .ok (.rmw 0xFF00 0x1200 1 0x400 0x10) := by decide
/-- P1, command 3. -/
theorem test_decode_rstIsAsserted :
    decode 6 [0x00010108, 0x400, 0x10, 0, 0] = .ok (.rstIsAsserted 1 1 0x400 0x10) := by decide
/-- T-ENC-3. -/
theorem test_decode_rstAssert : decode 6 [0x001F0509, 0, 0x20, 0, 0] = .ok (.rstAssert 31 5 0 0x20) := by decide
/-- T-ENC-2. -/
theorem test_decode_rstDeassert :
    decode 6 [0x0001010A, 0x400, 0x10, 0, 0] = .ok (.rstDeassert 1 1 0x400 0x10) := by decide
theorem test_decode_warmReset :
    decode 6 [0b00000000000_00000_00000000_00001100, 0, 0, 0, 0] = .ok .warmReset := by decide
theorem test_decode_coldReset :
    decode 6 [0b00000000000_00000_00000000_00001101, 0, 0, 0, 0] = .ok .coldReset := by decide
/-- P3, commands 1 to 6. -/
theorem test_decode_vpReadVolt : decode 6 [0x00000210, 0, 0, 0, 0] = .ok (.vpReadVolt 2) := by decide
theorem test_decode_vpInit : decode 6 [0x00000211, 0, 0, 0, 0] = .ok (.vpInit 2) := by decide
theorem test_decode_vpTxdone :
    decode 6 [0b00000000000_00000_00000010_00010010, 0, 0, 0, 0] = .ok (.vpTxdone 2) := by decide
theorem test_decode_vpTxclr :
    decode 6 [0b00000000000_00000_00000010_00010011, 0, 0, 0, 0] = .ok (.vpTxclr 2) := by decide
theorem test_decode_vpErrgain :
    decode 6 [0x00000214, 1, 0x0010C8E0, 0x0000000C, 0] = .ok (.vpErrgain 2 (some td1)) := by decide
theorem test_decode_vpScale :
    decode 6 [0x00000215, 1, 0x0010C8E0, 0x0000000C, 0] = .ok (.vpScale 2 (some td1)) := by decide
theorem test_decode_vpEnable : decode 6 [0x00000216, 0, 0, 0, 0] = .ok (.vpEnable 2) := by decide
theorem test_decode_vpDisable : decode 6 [0x00000217, 0, 0, 0, 0] = .ok (.vpDisable 2) := by decide

/-- T-ENC-6, 7, 8, 9. -/
theorem test_illegal_word0 :
    decode 6 [0, 0, 0, 0, 0] = .error .reservedOpcode ∧ decode 6 [0x00000105, 0, 0, 0, 0] = .error .reservedOpcode ∧
      decode 6 [0x00200102, 0x400, 0x10, 0, 0] = .error .reservedBits ∧
      decode 6 [0x00010102, 0x400, 0x10, 0, 0] = .error .shiftNotZero := by decide

/-- T-ENC-10, 11, 12, 13. -/
theorem test_illegal_words :
    decode 6 [0x00000102, 0x400, 0x10, 1, 0] = .error .wordNotZero ∧
      decode 6 [0x0000010C, 0, 0, 0, 0] = .error .selNotZero ∧
      decode 6 [0x00000215, 0, 0x0010C8E0, 0, 0] = .error .wordNotZero ∧
      decode 6 [0x00000215, 3, 0, 0, 0] = .error .wordNotZero := by decide

/-- The table's row of RST_ASSERT, as one number: word 1 counts on from bit 32. -/
theorem test_decodeTableWord :
    decodeTableWord 160 (0x001F0509 + 0x20 * 2 ^ 64) = some (.rstAssert 31 5 0 0x20) ∧
      decodeTableWord 32 0x00000105 = none := by decide

/-! ### The register access family (T-REG) -/

/-- T-REG-12: rebinding. -/
theorem test_initBases :
    (after (exec (.initBases [0, 0x50000000, 0, 0, 0, 0]) start)).base = [0, 0x50000000, 0, 0, 0, 0] ∧
      events (.initBases [0, 0x50000000, 0, 0, 0, 0]) start = some [.respond .ok 0] := by decide

/-- T-REG-6: the address wraps. -/
theorem test_read_wraps :
    events (.read 1 0xFFFFFF00 0x200) (holding [(.mmio, 0x4A306100, 7)] start) =
      some [.mmioRead 0x4A306100 7, .respond .ok 7] := by decide

/-- T-REG-7: misaligned. -/
theorem test_read_misaligned : refuses (.read 1 0x400 0x11) start .misaligned = true := by decide

/-- T-REG-1. -/
theorem test_write :
    events (.write 0xDEADBEEF 1 0x400 0x10) start = some [.mmioWrite ctrl 0xDEADBEEF, .respond .ok 0] := by decide

/-- T-REG-13: a write-1-to-clear register. -/
theorem test_write_w1c :
    (after (exec (.write 2 1 0x400 0x14) (w1c st (holding [(.mmio, st, 6)] start)))).readsAs .mmio st = some 4 := by
  decide

/-- T-REG-3: bits outside the mask. -/
theorem test_rmw :
    events (.rmw 3 0x30 1 0x400 0x10) (holding [(.mmio, ctrl, 0xF)] start) =
      some [.mmioRead ctrl 0xF, .mmioWrite ctrl 0x3C, .respond .ok 0x3C] := by decide

/-- T-REG-9. -/
theorem test_fatal_partition :
    (after (exec (.read 6 0 0) start)).mode = .fatal ∧ events (.read 6 0 0) start = some [] := by decide

/-! ### The reset-line family (T-RST) -/

/-- T-RST-1. -/
theorem test_rstIsAsserted :
    events (.rstIsAsserted 1 1 0x400 0x10) (holding [(.mmio, ctrl, 3)] start) =
      some [.mmioRead ctrl 3, .respond .ok 1] := by decide
theorem test_rstIsAsserted_not :
    events (.rstIsAsserted 2 1 0x400 0x10) (holding [(.mmio, ctrl, 3)] start) =
      some [.mmioRead ctrl 3, .respond .ok 0] := by decide

/-- T-RST-2. -/
theorem test_rstAssert :
    events (.rstAssert 1 1 0x400 0x10) (holding [(.mmio, ctrl, 1)] start) =
      some [.mmioRead ctrl 1, .mmioWrite ctrl 3, .respond .ok 0] := by decide

/-- T-RST-5: the status bit is found set at the third poll. -/
theorem test_rstDeassert :
    events (.rstDeassert 1 1 0x400 0x10)
        (at' 9 [.env (.poke .mmio st 2)] (w1c st (holding [(.mmio, ctrl, 3), (.mmio, st, 2)] start))) =
      some [.mmioRead ctrl 3, .mmioRead st 2, .mmioWrite st 2, .mmioRead ctrl 3, .mmioWrite ctrl 1, .mmioRead st 0,
        .delay 1, .mmioRead st 0, .delay 1, .mmioRead st 2, .respond .ok 0] := by decide +kernel

/-- T-RST-7: the budget is used up. -/
theorem test_rstDeassert_busy :
    let s := w1c st (holding [(.mmio, ctrl, 3), (.mmio, st, 2)] start)
    events (.rstDeassert 1 1 0x400 0x10) { s with cfg := { s.cfg with hardresetBudget := 4 } } =
      some [.mmioRead ctrl 3, .mmioRead st 2, .mmioWrite st 2, .mmioRead ctrl 3, .mmioWrite ctrl 1, .mmioRead st 0,
        .delay 1, .mmioRead st 0, .delay 1, .mmioRead st 0, .delay 1, .mmioRead st 0, .delay 1, .respond .busy 0] := by
  decide +kernel

/-- T-RST-11. -/
theorem test_warmReset :
    events .warmReset (holding [(.mmio, 0x4A307B00, 0)] start) =
      some [.mmioRead 0x4A307B00 0, .mmioWrite 0x4A307B00 1, .mmioRead 0x4A307B00 1, .respond .ok 0] := by decide

/-- T-RST-11: the SoC reset comes first. -/
theorem test_warmReset_cut :
    let s := at' 2 [.env .observe, .socReset []] (holding [(.mmio, 0x4A307B00, 0)] start)
    events .warmReset s = some [.mmioRead 0x4A307B00 0, .mmioWrite 0x4A307B00 1, .socReset] ∧
      (after (exec .warmReset s)).base = [0, 0, 0, 0, 0, 0] := by decide

/-- T-RST-12. -/
theorem test_coldReset :
    events .coldReset (holding [(.mmio, 0x4A307B00, 0)] start) =
      some [.mmioWrite 0x4A307B04 1, .mmioRead 0x4A307B00 0, .mmioWrite 0x4A307B00 2, .mmioRead 0x4A307B00 2,
        .delay 184, .respond .ok 0] := by decide

/-! ### The Voltage Processor family (T-VP) -/

/-- T-VP-4, T-VP-5. -/
theorem test_vpReadVolt :
    events (.vpReadVolt 2) (holding [(.dom 2, 0x0C, 0x28)] start) =
      some [.domRead 2 0x0C 0x28, .respond .ok 0x0010C8E0] := by decide
theorem test_vpReadVolt_sentinel :
    events (.vpReadVolt 0) start = some [.log .configError 0, .respond .ok 0] := by decide

/-- T-VP-1, T-VP-3. -/
theorem test_vpInit :
    events (.vpInit 2) start =
      some [.domWrite 2 0x00 0x00000008, .domWrite 2 0x14 0x00007801, .domWrite 2 0x10 0x00007804,
        .domWrite 2 0x08 0x41121E00, .respond .ok 0] := by decide
theorem test_vpInit_absent : events (.vpInit 9) start = some [.log .configError 9, .respond .ok 0] := by decide

/-- T-VP-25. -/
theorem test_vpTxdone :
    events (.vpTxdone 2) (pending true start) = some [.call (.checkTxdone 7 true), .respond .ok 1] := by decide
theorem test_vpTxclr :
    (after (exec (.vpTxclr 2) (pending true start))).target.txdoneOf 7 = some false ∧
      events (.vpTxclr 2) (pending true start) = some [.call (.clearTxdone 7), .respond .ok 0] := by decide

/-- T-VP-8, T-VP-9. -/
theorem test_vpErrgain :
    (after (exec (.vpErrgain 2 (some td1)) (holding [(.dom 2, 0, 0x2009)] start))).readsAs (.dom 2) 0 =
      some 0x000C2009 := by decide
theorem test_vpErrgain_invalid : events (.vpErrgain 0 (some td1)) start = some [.respond .invalidArgument 0] := by decide

/-- T-VP-10. The indication is raised at the turn before the check of step 7. -/
theorem test_vpScale :
    events (.vpScale 2 (some td1))
        (at' 9 [.env (.txdone 7 true)] (pending false (answering [.ok 0x10 0x20] []
          (holding [(.dom 2, 0x04, 1), (.dom 2, 0, 0x000C2009)] start)))) =
      some [.domRead 2 0x04 1, .call (.preScale 2 1100000 td1 (.ok 0x10 0x20)), .call (.clearTxdone 7),
        .call (.checkTxdone 7 false), .domRead 2 0 0x000C2009, .domWrite 2 0 0x000C2809, .domWrite 2 0 0x000C280D,
        .domWrite 2 0 0x000C2809, .domWrite 2 0 0x000C280B, .call (.checkTxdone 7 true),
        .call (.postScale 2 1100000 td1 0x10 0x20), .call (.clearTxdone 7), .call (.checkTxdone 7 false),
        .domWrite 2 0 0x000C2809, .respond .ok 0] := by decide +kernel

/-- T-VP-17. -/
theorem test_vpScale_hook_error :
    events (.vpScale 2 (some td1)) (answering [.err 0xFFFFFFEA] [] (holding [(.dom 2, 0x04, 1)] start)) =
      some [.domRead 2 0x04 1, .call (.preScale 2 1100000 td1 (.err 0xFFFFFFEA)), .respond .hookError 0xFFFFFFEA] := by
  decide

/-- T-VP-27, T-VP-7. -/
theorem test_vpEnable :
    let td : TD := ⟨1000000, 0x0C, 0⟩
    events (.vpEnable 2) (answering [] [some td] (holding [(.dom 2, 0, 0x000C280F)] start)) =
      some [.call (.getCurrentVoltageData 2 (some td)), .domRead 2 0 0x000C280F, .domWrite 2 0 0x000C2009,
        .domWrite 2 0 0x000C200D, .domWrite 2 0 0x000C2009, .domWrite 2 0 0x000C2009, .respond .ok 0] := by decide
theorem test_vpEnable_no_data :
    events (.vpEnable 2) (answering [] [none] start) =
      some [.call (.getCurrentVoltageData 2 none), .log .configError 2, .respond .ok 0] := by decide

/-- T-VP-22, T-VP-23. -/
theorem test_vpDisable :
    events (.vpDisable 2) (enabled (holding [(.dom 2, 0x04, 1), (.dom 2, 0, 0x000C2809)] start)) =
      some [.domRead 2 0x04 1, .domRead 2 0 0x000C2809, .domWrite 2 0 0x000C2808, .domRead 2 0x04 1,
        .respond .ok 0] := by decide
theorem test_vpDisable_not_enabled :
    events (.vpDisable 2) start = some [.log .warnAlreadyDisabled 2, .respond .ok 0] := by decide

/-- P4, command 4: the third routed error with N1 = 2, N2 = 3, where MSG is 0 and REC is 1. -/
theorem test_reportError :
    let s := holding [(.dom 2, 0x04, 0)] start
    let s := { s with msgCnt := 0, recCnt := 1, cfg := { s.cfg with n1 := 2, n2 := 3, vpIdleBudget := 2 } }
    events (.vpScale 2 (some td1)) s =
        some [.domRead 2 0x04 0, .delay 1, .domRead 2 0x04 0, .delay 1, .log .errRateLimited 2, .call (.recover 7),
          .respond .timeout 0] ∧
      (after (exec (.vpScale 2 (some td1)) s)).recCnt = 3 := by decide +kernel

/-! ### The configuration (R7, R13, R56), the SoC's reset (R79, R243) -/

/-- The parameters at their limits. -/
theorem test_admitted :
    Config.ex1.admitted = true ∧ { Config.ex1 with aw := 64 }.admitted = true ∧
      { Config.ex1 with n1 := 255 }.admitted = true ∧ { Config.ex1 with n1 := 256 }.admitted = false ∧
      { Config.ex1 with n2 := 0 }.admitted = false ∧ { Config.ex1 with nctx := 2 }.admitted = false := by decide

/-- A domain that is not present is tested for its masks and `slew_rate`, not for what VP_INIT would place. -/
theorem test_admitted_domains :
    let absent := { Config.ex1Dom with present := false }
    { Config.ex1 with doms := [{ absent with vp := some { Config.ex1Vp with stIdle := 3 } }] }.admitted = false ∧
      { Config.ex1 with doms := [{ absent with pmic := some { Config.ex1Pmic with slewRate := 0 } }] }.admitted = false ∧
      { Config.ex1 with doms := [{ absent with pmic := some { Config.ex1Pmic with erroroffset := 256 } }] }.admitted = true ∧
      { Config.ex1 with
        doms := [{ Config.ex1Dom with pmic := some { Config.ex1Pmic with erroroffset := 256 } }] }.admitted = false := by
  decide

/-- R62 with AW = 16: the sum wraps at 2^16. -/
theorem test_address_width :
    let s := { start with cfg := { start.cfg with aw := 16 }, base := [0, 0x8000, 0, 0, 0, 0] }
    s.cfg.admitted = true ∧ s.effAddr 1 0x7FFF 0x11 = 0x10 ∧
      (after (exec (.initBases [0, 0x18000, 0, 0, 0, 0]) s)).base = [0, 0x8000, 0, 0, 0, 0] := by decide

/-- R62 with AW = 40: nothing wraps at 2^32, and the register is found there. -/
theorem test_wide_addresses :
    let s := { start with cfg := { start.cfg with aw := 40 }, base := [0, 0xFF00000000, 0, 0, 0, 0] }
    s.cfg.admitted = true ∧ s.effAddr 1 0xFFFFFFFF 5 = 0x4 ∧ s.effAddr 1 0xFFFFFFF0 0 = 0xFFFFFFFFF0 ∧
      events (.read 1 0x10 0) (holding [(.mmio, 0xFF00000010, 7), (.mmio, 0x10, 9)] s) =
        some [.mmioRead 0xFF00000010 7, .respond .ok 7] := by decide

/-- A global reset is requested by a posted write, and PART_PRM is unmapped before the target observes it: the request
stands. -/
def requested : State :=
  let t := after (exec (.write 2 1 0x1B00 0) { start with script := List.replicate 2 [] ++
    [[.env .observe], [.socReset [true]]] })
  after (exec (.initBases [0, 0, 0, 0, 0, 0]) t)

theorem test_request_survives_rebinding :
    requested.baseOf requested.cfg.partPrm = 0 ∧ requested.target.armed = true ∧
      (after (step { requested with mode := .fatal })).events.head? = some .socReset ∧
      (after (step { requested with mode := .fatal })).mode = .ready := by decide

/-! ### Witnesses: for every statement with hypotheses, a state and operands that meet all of them, one for each
clause, at the boundaries of the ranges -/

theorem start_takesCommand : start.takesCommand := ⟨by decide, by decide⟩

/-- So does the machine right after reset, and no reset is ahead of it; one is once the block has asked for it. -/
theorem reset_takesCommand : State.reset.takesCommand ∧ State.reset.noResets = true ∧
    requested.noResets = false := ⟨⟨by decide, by decide⟩, by decide, by decide⟩

theorem start_undisturbed : start.undisturbed := by
  intro ms h
  exact List.eq_of_mem_replicate h

/-- Partition 1 is mapped; partition 0 is in PART_INVALID, partitions 6 and 255 are out of range. -/
theorem start_partitions : start.MappedPartition 1 ∧ start.MappedPartition 5 ∧ ¬start.MappedPartition 0 ∧
    ¬start.MappedPartition 6 ∧ ¬start.MappedPartition 255 ∧ ¬State.reset.MappedPartition 1 := by
  unfold State.MappedPartition
  decide

/-- `ctrl` is aligned; one, two and three bytes above it is not. -/
theorem start_addresses : aligned (start.effAddr 1 0x400 0x10) = true ∧ aligned (start.effAddr 1 0x400 0x11) = false ∧
    aligned (start.effAddr 1 0x400 0x12) = false ∧ aligned (start.effAddr 1 0x400 0x13) = false := by decide

/-- The states that the statements about the partitioned layer speak of (ReadAnswersTheRegister, WriteIsPosted,
RmwMergesTheRegister, IsAssertedTestsTheBit, AssertSetsTheBit, DeassertProtocol): a fatal, a refused and a completing
one. -/
theorem witness_throughPartition : start.takesCommand ∧ ¬start.MappedPartition 0 ∧ start.MappedPartition 1 ∧
    aligned (start.effAddr 1 0x400 0x11) = false ∧ aligned (start.effAddr 1 0x400 0x10) = true :=
  ⟨start_takesCommand, start_partitions.2.2.1, start_partitions.1, start_addresses.2.1, start_addresses.1⟩

theorem dom2 : HasDomain start.cfg 2 Config.ex1Dom := ⟨by decide, rfl⟩

/-- Domain 0 has no VP, domain 1 is not present, domain 3 does not exist. -/
theorem no_vp (d : DomId) (h : d = 0 ∨ d = 1 ∨ d = 3) (dom : Dom) (k : HasDomain start.cfg d dom) : dom.vp = none := by
  obtain ⟨k1, k2⟩ := k
  rcases h with rfl | rfl | rfl
  · simp only [start, State.reset, State.atReset, Config.ex1] at k1
    cases k1
    rfl
  · simp only [start, State.reset, State.atReset, Config.ex1] at k1
    cases k1
    cases k2
  · cases k1

/-- The clauses about misaligned DOM addresses (R63), of ReadVoltConvertsTheSelector, InitWritesFourRegisters,
ErrgainUpdatesTheField, EnableArmsTheVp, DisableDisarmsTheVp and ScaleRunsTheProtocol: the other hypotheses are those of
the statement's own witness. -/
theorem witness_misaligned :
    ((withVp skewed).takesCommand ∧ HasDomain (withVp skewed).cfg 2 { Config.ex1Dom with vp := some skewed } ∧
      aligned skewed.voltage = false ∧ aligned skewed.vstatus = false ∧ aligned skewed.vpconfig = false ∧
      (enabled (withVp skewed)).takesCommand ∧ (enabled (withVp skewed)).vpenOf 2 = true) ∧
    ((withVp skewedConfig).takesCommand ∧
      HasDomain (withVp skewedConfig).cfg 2 { Config.ex1Dom with vp := some skewedConfig } ∧
      aligned skewedConfig.vstatus = true ∧ aligned skewedConfig.vpconfig = false) :=
  ⟨⟨⟨by decide, by decide⟩, ⟨by decide, rfl⟩, by decide, by decide, by decide,
      ⟨by decide, by decide⟩, by decide⟩,
    ⟨by decide, by decide⟩, ⟨by decide, rfl⟩, by decide, by decide⟩

theorem witness_DecodeEncodeRoundTrip :
    (Instr.initBases [0, 1, 2, 3, 4, 5]).wellFormed 6 = true ∧ (Instr.initBases []).wellFormed 0 = true ∧
      (Instr.rstAssert 31 255 0xFFFFFFFF 0).wellFormed 6 = true ∧ (Instr.vpScale 255 none).wellFormed 6 = true := by decide

theorem witness_DecodedWordsAreTheEncoding :
    decode 6 [0x0000FF02, 0, 0, 0, 0] = .ok (.read 255 0 0) ∧ decode 1 [1, 7] = .ok (.initBases [7]) := by decide

theorem witness_ReservedOpcodesIllegal :
    ∀ opc ∈ [0x00, 0x05, 0x07, 0x0B, 0x0E, 0x0F, 0x18, 0xFF],
      (opc = 0x00 ∨ (0x05 ≤ opc ∧ opc ≤ 0x07) ∨ opc = 0x0B ∨ opc = 0x0E ∨ opc = 0x0F ∨ 0x18 ≤ opc) ∧
        decode 6 [BitVec.ofNat 32 opc, 0, 0, 0, 0] = .error .reservedOpcode := by decide

/-- A state with the words on CMD. -/
def presenting (ws : List Word) : State := { start with cmd := ws }

/-- T-ENC-6 and an INIT_BASES with SEL not zero. -/
theorem witness_IllegalDescriptorAnswered :
    (presenting [0, 0, 0, 0, 0, 9]).takesCommand ∧ (presenting [0, 0, 0, 0, 0, 9]).resetPin = none ∧
      takeDescriptor start.cfg.npart [0, 0, 0, 0, 0, 9] = some ([0, 0, 0, 0, 0], [9]) ∧
      decode start.cfg.npart [0, 0, 0, 0, 0] = .error .reservedOpcode ∧
      takeDescriptor start.cfg.npart [0x101, 0, 0, 0, 0, 0, 0] = some ([0x101, 0, 0, 0, 0, 0, 0], []) ∧
      decode start.cfg.npart [0x101, 0, 0, 0, 0, 0, 0] = .error .selNotZero :=
  ⟨⟨by decide, by decide⟩, by decide, by decide, by decide, by decide, by decide⟩

theorem witness_StepRunsDecodedCommand :
    (presenting [0x102, 0, 0, 0, 0, 9]).resetPin = none ∧ (presenting [0x102, 0, 0, 0, 0, 9]).mode = .ready ∧
      takeDescriptor start.cfg.npart [0x102, 0, 0, 0, 0, 9] = some ([0x102, 0, 0, 0, 0], [9]) ∧
      decode start.cfg.npart [0x102, 0, 0, 0, 0] = .ok (.read 1 0 0) := by decide

theorem witness_StepRunsEncodedCommand :
    (presenting [0x102, 0, 0, 0, 0, 9]).resetPin = none ∧ (presenting [0x102, 0, 0, 0, 0, 9]).mode = .ready ∧
      (Instr.read 1 0 0).wellFormed start.cfg.npart = true ∧
      (presenting [0x102, 0, 0, 0, 0, 9]).cmd = encode (.read 1 0 0) ++ [9] := by decide

/-- Whole and not yet whole, of each length. -/
theorem witness_StepTakesWholeDescriptor :
    ∀ ws ∈ [[0x102, 0, 0, 0, 0], [0x102, 0, 0, 0], [1, 0, 0, 0, 0, 0, 0], [1, 0, 0, 0, 0, 0]],
      (presenting ws).resetPin = none ∧ (∃ w0 rest, (presenting ws).cmd = w0 :: rest) ∧
        ∃ t, step (presenting ws) = .next t := by
  intro ws h
  simp only [List.mem_cons, List.not_mem_nil, or_false] at h
  rcases h with rfl | rfl | rfl | rfl <;> exact ⟨rfl, ⟨_, _, rfl⟩, _, ran_next (by decide)⟩

/-- The clause about other modes: in FATAL, a block reset at the first turn. -/
theorem witness_StepTakesWholeDescriptor_fatal :
    let s := { presenting [0x102, 0, 0, 0, 0] with mode := .fatal, script := [[.blockReset []]] }
    s.resetPin = none ∧ s.cmd = [0x102, 0, 0, 0, 0] ∧ s.mode ≠ .ready ∧ ∃ t, step s = .next t :=
  ⟨rfl, rfl, by decide, _, ran_next (by decide)⟩

/-- Nothing on CMD, and four words of five; a run that has ended, and one whose write is still queued. -/
theorem witness_WaitsForACommand : (∀ ws ∈ [[], [0x102, 0, 0, 0]],
    (presenting ws).mode = .ready ∧ (presenting ws).resetPin = none ∧
      takeDescriptor (presenting ws).cfg.npart (presenting ws).cmd = none) ∧ (presenting []).runEnded ∧
    ¬({ presenting [] with wq := [⟨⟨.mmio, ctrl, 1⟩, false⟩] } : State).runEnded := by
  unfold State.runEnded
  decide

theorem witness_BlockResetState : ({ start with mode := .fatal, resetPin := some [true] } : State).resetPin = some [true] := rfl

/-- Out of range (the first and the last number), in PART_INVALID, unmapped; a state in FATAL, without a
reset, with a block reset, and with a SoC reset that was requested. -/
theorem witness_InvalidPartitionIsFatal :
    (∀ p : PartId, p = 6 ∨ p = 255 ∨ p = 0 → usesPartition (.read p 0 0) = true ∧ start.mode = .ready ∧
      start.cfg.admitted = true ∧
      (start.cfg.npart ≤ p.toNat ∨ p ∈ start.cfg.partInvalid ∨ start.base.getD p.toNat 0 = 0)) ∧
    State.reset.base.getD 1 0 = 0 ∧ State.reset.mode = .ready ∧
    ({ start with mode := .fatal } : State).mode = .fatal ∧ ({ start with mode := .fatal } : State).resetPin = none ∧
    ({ start with mode := .fatal } : State).noResets = true ∧
    ({ start with mode := .fatal, resetPin := some [] } : State).resetPin = some [] ∧
    (let s := { requested with mode := .fatal }
     s.resetPin = none ∧ s.target.armed = true ∧ s.script = [.socReset [true]] :: []) := by
  refine ⟨?_, by decide, by decide, rfl, rfl, by decide, rfl, by decide⟩
  rintro p (rfl | rfl | rfl) <;> decide

/-- A fatal command and one that is not. -/
theorem witness_OnlyInvalidPartitionIsFatal :
    (∃ t, exec (.read 6 0 0) start = .next t ∧ t.mode = .fatal) ∧
      ∃ t, exec (.read 5 0 0) (holding [(.mmio, 0x48243000, 1)] start) = .next t ∧ t.mode = .ready :=
  ⟨⟨_, ran_next (by decide), by decide⟩, _, ran_next (by decide), by decide⟩

theorem witness_AccessesAreWordAligned : ∃ t, exec (.write 1 1 0x400 0x10) start = .next t := ⟨_, ran_next (by decide)⟩

/-- The largest value of a field fits, the next does not; a field of one bit, and the whole word. -/
theorem witness_PlacedFieldReadsBack : (0x0000FF00 : Word) ≠ 0 ∧ place 0xFF 0x0000FF00 = some 0x0000FF00 ∧
    place 0x100 0x0000FF00 = none ∧ place 1 0x80000000 = some 0x80000000 ∧ place 2 0x80000000 = none ∧
    place 0xFFFFFFFF 0xFFFFFFFF = some 0xFFFFFFFF ∧ place 0x100000000 0xFFFFFFFF = none := by decide

theorem witness_InitBasesBindsEveryPartition :
    start.takesCommand ∧ ([0, 0x50000000, 0, 0, 0, 0] : List Addr).length = start.cfg.npart := ⟨start_takesCommand, by decide⟩

/-- The clause about known contents. -/
theorem witness_ReadAnswersTheRegister :
    let s := holding [(.mmio, ctrl, 7)] start
    s.undisturbed ∧ s.readsAs .mmio (s.effAddr 1 0x400 0x10) = some 7 ∧
      ∃ t, exec (.read 1 0x400 0x10) s = .next t ∧ t.script ≠ [] :=
  ⟨start_undisturbed, by decide, _, ran_next (by decide), by decide⟩

/-- The clause about the queue. -/
theorem witness_WriteIsPosted : start.undisturbed ∧ ∃ t, exec (.write 1 1 0x400 0x10) start = .next t ∧ t.script ≠ [] :=
  ⟨start_undisturbed, _, ran_next (by decide), by decide⟩

/-- The clause about known contents. -/
theorem witness_RmwMergesTheRegister :
    let s := holding [(.mmio, ctrl, 7)] start
    s.undisturbed ∧ s.readsAs .mmio (s.effAddr 1 0x400 0x10) = some 7 ∧
      ∃ t, exec (.rmw 1 0 1 0x400 0x10) s = .next t ∧ t.script ≠ [] :=
  ⟨start_undisturbed, by decide, _, ran_next (by decide), by decide⟩

/-- What the other master writes between the read and the write has every bit of the old value flipped. -/
theorem witness_RmwIsNotAtomic :
    let s := at' 1 [.env (.poke .mmio ctrl 0xFFFFFFF0)] (holding [(.mmio, ctrl, 0xF)] start)
    s.mode = .ready ∧ s.cfg.admitted = true ∧ s.MappedPartition 1 ∧ aligned (s.effAddr 1 0x400 0x10) = true ∧
      s.readsAs .mmio (s.effAddr 1 0x400 0x10) = some 0xF ∧
      s.target.w1c.contains (regKey .mmio (s.effAddr 1 0x400 0x10)) = false ∧
      s.script = [] :: [.env (.poke .mmio (s.effAddr 1 0x400 0x10) 0xFFFFFFF0)] :: [] :: List.replicate 37 [] :=
  ⟨by decide, by decide, start_partitions.1, by decide, by decide, by decide, by decide⟩

/-- A plain register, and a write-1-to-clear register with known and with unknown contents. -/
theorem witness_StoreIsReadBack :
    (∃ t, exec (.write 2 1 0x400 0x14) start = .next t ∧ t.mode = .ready ∧ t.script ≠ []) ∧
    (∃ t, exec (.write 2 1 0x400 0x14) (w1c st start) = .next t ∧ t.mode = .ready ∧ t.script ≠ []) ∧
    (∃ t, exec (.write 2 1 0x400 0x14) (w1c st (holding [(.mmio, st, 6)] start)) = .next t ∧ t.mode = .ready ∧
      t.script ≠ []) ∧ start.undisturbed ∧ (w1c st start).target.w1c.contains (regKey .mmio st) = true :=
  ⟨⟨_, ran_next (by decide), by decide, by decide⟩, ⟨_, ran_next (by decide), by decide, by decide⟩,
    ⟨_, ran_next (by decide), by decide, by decide⟩, start_undisturbed, by decide⟩

theorem witness_WriteThenReadReturnsTheValue :
    let t := after (exec (.write 5 1 0x400 0x10) start)
    let u := after (exec (.read 1 0x400 0x10) t)
    start.takesCommand ∧ start.MappedPartition 1 ∧ exec (.write 5 1 0x400 0x10) start = .next t ∧
      exec (.read 1 0x400 0x10) t = .next u ∧ holdsLastWritten (regKey .mmio (start.effAddr 1 0x400 0x10)) u.events := by
  refine ⟨start_takesCommand, start_partitions.1, ran_next (by decide), ran_next (by decide), ?_⟩
  have h : (after (exec (.read 1 0x400 0x10) (after (exec (.write 5 1 0x400 0x10) start)))).events =
      [.respond .ok 5, .mmioRead ctrl 5, .respond .ok 0, .mmioWrite ctrl 5] := by decide
  have k : regKey .mmio (start.effAddr 1 0x400 0x10) = regKey .mmio ctrl := by decide
  rw [h, k]
  simp [holdsLastWritten, lastWritten, Event.readOf, Event.written]

/-- Two writes are queued, none has been observed; each of the three clauses, and the contents they leave known. -/
theorem witness_ReadObservesQueuedWrites :
    let s := { holding [(.mmio, ctrl, 7), (.dom 2, 0x0C, 0x28)] start with
      wq := [⟨⟨.mmio, ctrl, 1⟩, false⟩, ⟨⟨.dom 2, 0x0C, 2⟩, false⟩] }
    s.takesCommand ∧ aligned ctrl = true ∧ s.MappedPartition 1 ∧ s.undisturbed ∧
    (∃ t, exec (.read 1 0x400 0x10) s = .next t ∧ t.script ≠ []) ∧
      s.readsAs .mmio (s.effAddr 1 0x400 0x10) = some 1 ∧
    s.cfg.readVoltCaps 2 = some (Config.ex1Vp, .linear 600000 12500) ∧
    (∃ t, exec (.vpReadVolt 2) s = .next t ∧ t.script ≠ []) ∧ s.readsAs (.dom 2) Config.ex1Vp.voltage = some 2 :=
  ⟨⟨by decide, by decide⟩, by decide, start_partitions.1, start_undisturbed,
    ⟨_, ran_next (by decide), by decide⟩, by decide, by decide, ⟨_, ran_next (by decide), by decide⟩, by decide⟩

/-- Line RL at rest and asserted (T-RST-3, T-RST-4, T-RST-7): each of the three answers. -/
theorem witness_DeassertEventCounts :
    let s := { start with cfg := { start.cfg with hardresetBudget := 1 } }
    s.takesCommand ∧ s.MappedPartition 1 ∧
    (∃ t, exec (.rstDeassert 1 1 0x400 0x10) (holding [(.mmio, ctrl, 1)] s) = .next t ∧
      t.res = Status.alreadyDeasserted.code) ∧
    (∃ t, exec (.rstDeassert 1 1 0x400 0x10) (holding [(.mmio, ctrl, 3), (.mmio, st, 2)] s) = .next t ∧
      t.res = Status.ok.code) ∧
    (∃ t, exec (.rstDeassert 1 1 0x400 0x10) (w1c st (holding [(.mmio, ctrl, 3), (.mmio, st, 2)] s)) = .next t ∧
      t.res = Status.busy.code) :=
  ⟨⟨by decide, by decide⟩, start_partitions.1, ⟨_, ran_next (by decide +kernel), by decide +kernel⟩,
    ⟨_, ran_next (by decide +kernel), by decide +kernel⟩, _, ran_next (by decide +kernel), by decide +kernel⟩

/-- The two cases of the control bit that DeassertProtocol tells apart. -/
theorem witness_DeassertProtocol : ((2 : Word) >>> (1 : Shift).toNat) &&& 1#32 = 1#32 ∧
    ((1 : Word) >>> (1 : Shift).toNat) &&& 1#32 = 0#32 ∧ ((0x80000000 : Word) >>> (31 : Shift).toNat) &&& 1#32 = 1#32 := by
  decide

/-- EX1 with the control register of the global reset two bytes off. -/
def skewedGlobal : State := { start with cfg := { start.cfg with grst := { start.cfg.grst with ctrl := 2 } } }

/-- WarmResetSequence and ColdResetSequence: PART_PRM is mapped after INIT_BASES and not before (T-RST-13); a
misaligned control register beside an aligned status register; the turns at which the SoC resets, and turns in which
nobody moves. -/
theorem witness_globalSequences : start.takesCommand ∧ start.MappedPartition start.cfg.partPrm ∧
    aligned start.globalCtrl = true ∧ aligned start.globalStatus = true ∧
    ¬State.reset.MappedPartition State.reset.cfg.partPrm ∧
    skewedGlobal.takesCommand ∧ skewedGlobal.MappedPartition skewedGlobal.cfg.partPrm ∧
    aligned skewedGlobal.globalCtrl = false ∧ aligned skewedGlobal.globalStatus = true ∧
    (at' 2 [.env .observe, .socReset []] start).script =
      [] :: [] :: [.env .observe, .socReset []] :: List.replicate 37 [] ∧
    (at' 3 [.env .observe, .socReset []] start).script =
      [] :: [] :: [] :: [.env .observe, .socReset []] :: List.replicate 36 [] ∧
    start.script = [] :: [] :: [] :: [] :: List.replicate 36 [] ∧
    start.script = [] :: [] :: [] :: [] :: [] :: [] :: List.replicate 34 [] :=
  ⟨start_takesCommand, start_partitions.1, by decide, by decide, start_partitions.2.2.2.2.2,
    ⟨by decide, by decide⟩, start_partitions.1, by decide, by decide, by decide, by decide, by decide, by decide⟩

/-- Domain 2 has what VP_READ_VOLT asks for; domains 0, 1 and 3 do not. -/
theorem witness_ReadVoltConvertsTheSelector : start.takesCommand ∧
    (HasDomain start.cfg 2 Config.ex1Dom ∧ Config.ex1Dom.vp = some Config.ex1Vp ∧ Config.ex1Dom.hasRead = true ∧
      Config.ex1Dom.pmic = some Config.ex1Pmic ∧ Config.ex1Pmic.vselToUv = some (.linear 600000 12500) ∧
      aligned Config.ex1Vp.voltage = true) ∧
    ∀ d : DomId, d = 0 ∨ d = 1 ∨ d = 3 → ¬∃ dom vp pmic f, HasDomain start.cfg d dom ∧ dom.vp = some vp ∧
      dom.hasRead = true ∧ dom.pmic = some pmic ∧ pmic.vselToUv = some f := by
  refine ⟨start_takesCommand, ⟨dom2, rfl, rfl, rfl, rfl, by decide⟩, fun d hd => ?_⟩
  rintro ⟨dom, vp, pmic, f, h, hv, -⟩
  rw [no_vp d hd dom h] at hv
  cases hv

/-- EX1's values all fit. -/
theorem witness_InitWritesFourRegisters : start.takesCommand ∧
    (HasDomain start.cfg 2 Config.ex1Dom ∧ Config.ex1Dom.pmic = some Config.ex1Pmic ∧
      Config.ex1Pmic.uvToVsel = some (.ceilSteps 600000 12500) ∧ Config.ex1Pmic.vselToUv = some (.linear 600000 12500) ∧
      Config.ex1Dom.hasRead = true ∧ Config.ex1Dom.hasWrite = true ∧ Config.ex1Dom.vp = some Config.ex1Vp ∧
      Config.ex1Dom.vcParam = some ⟨750000⟩ ∧ Config.ex1Dom.vpParam = some ⟨825000, 1412500⟩ ∧
      aligned Config.ex1Vp.vpconfig = true ∧ aligned Config.ex1Vp.vstepmin = true ∧
      aligned Config.ex1Vp.vstepmax = true ∧ aligned Config.ex1Vp.vlimitto = true) ∧
    (place 0 Config.ex1Vp.cfgErroroffset = some 0 ∧ place 120 Config.ex1Vp.sminWait = some 0x7800 ∧
      place 1 Config.ex1Vp.sminStep = some 1 ∧ place 120 Config.ex1Vp.smaxWait = some 0x7800 ∧
      place 4 Config.ex1Vp.smaxStep = some 4 ∧ place 65 Config.ex1Vp.limVddmax = some 0x41000000 ∧
      place 18 Config.ex1Vp.limVddmin = some 0x120000 ∧ place 7680 Config.ex1Vp.limTimeout = some 0x1E00) ∧
    ∀ d : DomId, d = 0 ∨ d = 1 ∨ d = 3 → ¬∃ dom pmic vp vc vpp f g, HasDomain start.cfg d dom ∧ dom.pmic = some pmic ∧
      pmic.uvToVsel = some f ∧ pmic.vselToUv = some g ∧ dom.hasRead = true ∧ dom.hasWrite = true ∧ dom.vp = some vp ∧
      dom.vcParam = some vc ∧ dom.vpParam = some vpp := by
  refine ⟨start_takesCommand, ⟨dom2, rfl, rfl, rfl, rfl, rfl, rfl, rfl, rfl, by decide, by decide, by decide, by decide⟩,
    by decide, fun d hd => ?_⟩
  rintro ⟨dom, pmic, vp, vc, vpp, f, g, h, -, -, -, -, -, hv, -⟩
  rw [no_vp d hd dom h] at hv
  cases hv

/-- EX1 with an error offset that does not fit its field. -/
def oversized : Config :=
  { Config.ex1 with doms := [Config.ex1Dom, Config.ex1Dom, { Config.ex1Dom with
    pmic := some { Config.ex1Pmic with erroroffset := 256 } }] }

/-- The second part of InitWritesFourRegisters, and ConfigurationIsConstant: a configuration that is not admitted. -/
theorem witness_InitWritesFourRegisters_oversized :
    (State.atReset oversized).mode = .ready ∧ oversized.admitted = false ∧
      HasDomain oversized 2 { Config.ex1Dom with pmic := some { Config.ex1Pmic with erroroffset := 256 } } ∧
      place 256 Config.ex1Vp.cfgErroroffset = none :=
  ⟨rfl, by decide, ⟨by decide, rfl⟩, by decide⟩

/-- What VP_INIT computes for EX1's domain 2. -/
def ex1Caps : InitCaps :=
  ⟨Config.ex1Dom, Config.ex1Vp, Config.ex1Pmic, .ceilSteps 600000 12500, ⟨750000⟩, ⟨825000, 1412500⟩⟩

/-- 95_test_vectors, section 0: TMO = 7680, WAIT = 120, VMIN = 18, VMAX = 65. -/
theorem witness_InitValuesFormulas : Config.ex1.initFormulas = .r165 ∧ 1 ≤ ex1Caps.pmic.slewRate ∧
    Config.ex1.initValues ex1Caps = ⟨7680, 120, 18, 65⟩ := by decide

/-- VP_TXDONE and VP_TXCLR: a domain with a VP, and three without. -/
theorem witness_TxdoneAsksTheCallback : start.takesCommand ∧ HasDomain start.cfg 2 Config.ex1Dom ∧
    Config.ex1Dom.vp = some Config.ex1Vp ∧
    ∀ d : DomId, d = 0 ∨ d = 1 ∨ d = 3 → ¬∃ dom vp, HasDomain start.cfg d dom ∧ dom.vp = some vp := by
  refine ⟨start_takesCommand, dom2, rfl, fun d hd => ?_⟩
  rintro ⟨dom, vp, h, hv⟩
  rw [no_vp d hd dom h] at hv
  cases hv

theorem witness_TxclrCallsTheCallback : start.takesCommand ∧ HasDomain start.cfg 2 Config.ex1Dom ∧
    Config.ex1Dom.vp = some Config.ex1Vp ∧ ¬∃ dom vp, HasDomain start.cfg 3 dom ∧ dom.vp = some vp :=
  ⟨start_takesCommand, dom2, rfl, witness_TxdoneAsksTheCallback.2.2.2 3 (.inr (.inr rfl))⟩

/-- The largest gain that fits and the first that does not; no descriptor; no VP. -/
theorem witness_ErrgainUpdatesTheField : start.takesCommand ∧ HasDomain start.cfg 2 Config.ex1Dom ∧
    Config.ex1Dom.vp = some Config.ex1Vp ∧ Config.ex1Dom.hasRmw = true ∧ aligned Config.ex1Vp.vpconfig = true ∧
    place 255 Config.ex1Vp.cfgErrorgain = some 0x00FF0000 ∧ place 256 Config.ex1Vp.cfgErrorgain = none ∧
    ((none : Option TD) = none) ∧
    ¬∃ dom vp, HasDomain start.cfg 0 dom ∧ dom.vp = some vp ∧ dom.hasRmw = true := by
  refine ⟨start_takesCommand, dom2, rfl, rfl, by decide, by decide, by decide, rfl, ?_⟩
  rintro ⟨dom, vp, h, hv, -⟩
  rw [no_vp 0 (.inl rfl) dom h] at hv
  cases hv

/-- The clause about known contents. -/
theorem witness_ErrgainUpdatesTheField_known :
    let s := holding [(.dom 2, 0, 0x2009)] start
    s.undisturbed ∧ s.readsAs (.dom 2) Config.ex1Vp.vpconfig = some 0x2009 ∧
      ∃ t, exec (.vpErrgain 2 (some td1)) s = .next t ∧ t.script ≠ [] :=
  ⟨start_undisturbed, by decide, _, ran_next (by decide), by decide⟩

/-- EX1 without `has_read` of domain 2: the capability VP_SCALE relies on and does not test. -/
def noRead : State :=
  { start with cfg := { start.cfg with doms := [Config.ex1Dom, Config.ex1Dom, { Config.ex1Dom with hasRead := false }] } }

theorem witness_ScaleChecksItsArguments : start.takesCommand ∧ ((none : Option TD) = none) ∧
    (∀ d : DomId, d = 0 ∨ d = 1 ∨ d = 3 →
      ¬∃ dom vp, HasDomain start.cfg d dom ∧ dom.hasWrite = true ∧ dom.vp = some vp) ∧
    noRead.takesCommand ∧ some td1 ≠ none ∧ HasDomain noRead.cfg 2 { Config.ex1Dom with hasRead := false } ∧
    Config.ex1Dom.hasWrite = true ∧ Config.ex1Dom.vp = some Config.ex1Vp ∧
    ¬∃ pmic f, ({ Config.ex1Dom with hasRead := false } : Dom).hasRead = true ∧ Config.ex1Dom.pmic = some pmic ∧
      pmic.uvToVsel = some f := by
  refine ⟨start_takesCommand, rfl, fun d hd => ?_, ⟨by decide, by decide⟩, by decide, ⟨by decide, rfl⟩, rfl, rfl, ?_⟩
  · rintro ⟨dom, vp, h, -, hv⟩
    rw [no_vp d hd dom h] at hv
    cases hv
  · rintro ⟨_, _, h, -⟩
    cases h

/-- A selector that fits and the first that does not; the misaligned registers are in witness_misaligned. -/
theorem witness_ScaleRunsTheProtocol : start.takesCommand ∧ HasDomain start.cfg 2 Config.ex1Dom ∧
    Config.ex1Dom.hasWrite = true ∧ Config.ex1Dom.vp = some Config.ex1Vp ∧ Config.ex1Dom.hasRead = true ∧
    Config.ex1Dom.pmic = some Config.ex1Pmic ∧ Config.ex1Pmic.uvToVsel = some (.ceilSteps 600000 12500) ∧
    aligned Config.ex1Vp.vstatus = true ∧ aligned Config.ex1Vp.vpconfig = true ∧
    place (PmicFn.apply (.ceilSteps 600000 12500) (start.cfg.operationVoltage td1)).toNat Config.ex1Vp.cfgInitvoltage =
      some 0x2800 ∧
    place (PmicFn.apply (.ceilSteps 600000 12500) (start.cfg.operationVoltage ⟨3787501, 0, 0⟩)).toNat
      Config.ex1Vp.cfgInitvoltage = none :=
  ⟨start_takesCommand, dom2, rfl, rfl, rfl, rfl, rfl, by decide, by decide, by decide, by decide⟩

/-- Not enabled, with and without a descriptor prepared; enabled; a selector that fits and one that does not; a domain
without a VP. -/
theorem witness_EnableArmsTheVp : start.takesCommand ∧ (enabled start).takesCommand ∧
    (HasDomain start.cfg 2 Config.ex1Dom ∧ Config.ex1Dom.vp = some Config.ex1Vp ∧ Config.ex1Dom.hasRead = true ∧
      Config.ex1Dom.hasWrite = true ∧ Config.ex1Dom.pmic = some Config.ex1Pmic ∧
      Config.ex1Pmic.uvToVsel = some (.ceilSteps 600000 12500) ∧ aligned Config.ex1Vp.vpconfig = true) ∧
    start.vpenOf 2 = false ∧ (enabled start).vpenOf 2 = true ∧
    (answering [] [none] start).host.lookup = none :: [] ∧ (answering [] [some td1] start).host.lookup = some td1 :: [] ∧
    place (PmicFn.apply (.ceilSteps 600000 12500) 1100000).toNat Config.ex1Vp.cfgInitvoltage = some 0x2800 ∧
    place (PmicFn.apply (.ceilSteps 600000 12500) 3787500).toNat Config.ex1Vp.cfgInitvoltage = some 0xFF00 ∧
    place (PmicFn.apply (.ceilSteps 600000 12500) 3787501).toNat Config.ex1Vp.cfgInitvoltage = none ∧
    ¬∃ dom vp pmic f, HasDomain start.cfg 0 dom ∧ dom.vp = some vp ∧ dom.hasRead = true ∧ dom.hasWrite = true ∧
      dom.pmic = some pmic ∧ pmic.uvToVsel = some f := by
  refine ⟨start_takesCommand, ⟨by decide, by decide⟩, ⟨dom2, rfl, rfl, rfl, rfl, rfl, by decide⟩, by decide,
    by decide, rfl, rfl, by decide, by decide, by decide, ?_⟩
  rintro ⟨dom, vp, pmic, f, h, hv, -⟩
  rw [no_vp 0 (.inl rfl) dom h] at hv
  cases hv

/-- T-VP-6. -/
theorem witness_EnableTwiceWritesOnce :
    let s := answering [] [some ⟨1000000, 0x0C, 0⟩] (holding [(.dom 2, 0, 8)] start)
    s.takesCommand ∧ s.cfg.enableCaps 2 ≠ none ∧ ∃ t, exec (.vpEnable 2) s = .next t ∧ t.vpenOf 2 = true :=
  ⟨⟨by decide, by decide⟩, by decide, _, ran_next (by decide), by decide⟩

/-- Enabled and not; a domain without a VP. -/
theorem witness_DisableDisarmsTheVp : start.takesCommand ∧ (enabled start).takesCommand ∧
    (HasDomain start.cfg 2 Config.ex1Dom ∧ Config.ex1Dom.vp = some Config.ex1Vp ∧ Config.ex1Dom.hasRead = true ∧
      Config.ex1Dom.hasWrite = true ∧ aligned Config.ex1Vp.vstatus = true ∧ aligned Config.ex1Vp.vpconfig = true) ∧
    start.vpenOf 2 = false ∧ (enabled start).vpenOf 2 = true ∧
    ¬∃ dom vp, HasDomain start.cfg 0 dom ∧ dom.vp = some vp ∧ dom.hasRead = true ∧ dom.hasWrite = true := by
  refine ⟨start_takesCommand, ⟨by decide, by decide⟩, ⟨dom2, rfl, rfl, rfl, by decide, by decide⟩, by decide,
    by decide, ?_⟩
  rintro ⟨dom, vp, h, hv, -⟩
  rw [no_vp 0 (.inl rfl) dom h] at hv
  cases hv

/-- T-VP-10 then T-VP-14, the voltage register showing the selector 0x28. -/
def scaling : State :=
  at' 9 [.env (.txdone 7 true)] (pending false (answering [.ok 0x10 0x20] []
    (holding [(.dom 2, 0x04, 1), (.dom 2, 0, 0x000C2009), (.dom 2, 0x0C, 0x28)] start)))

/-- The capabilities are those of witness_ScaleRunsTheProtocol. -/
theorem witness_ScaleCompletes : scaling.takesCommand ∧ HasDomain scaling.cfg 2 Config.ex1Dom ∧
    scaling.readsAs (.dom 2) Config.ex1Vp.vstatus = some 1 ∧ (1 : Word) &&& Config.ex1Vp.stIdle ≠ 0 ∧
    scaling.host.preScale = .ok 0x10 0x20 :: [] ∧
    scaling.script = [] :: [] :: [] :: [] :: (List.replicate 5 [] ++ [.env (.txdone 7 true)] :: List.replicate 30 []) :=
  ⟨⟨by decide, by decide⟩, dom2, by decide, by decide, by decide, by decide⟩

theorem witness_ReadVoltAfterScale :
    let t := after (exec (.vpScale 2 (some td1)) scaling)
    let u := after (exec (.vpReadVolt 2) t)
    scaling.takesCommand ∧ HasDomain scaling.cfg 2 Config.ex1Dom ∧ Config.ex1Dom.vp = some Config.ex1Vp ∧
      Config.ex1Dom.pmic = some Config.ex1Pmic ∧ Config.ex1Pmic.uvToVsel = some (.ceilSteps 600000 12500) ∧
      Config.ex1Pmic.vselToUv = some (.linear 600000 12500) ∧ exec (.vpScale 2 (some td1)) scaling = .next t ∧
      t.res = Status.ok.code ∧ rampedSelector 2 Config.ex1Vp false t.events ≠ none ∧ exec (.vpReadVolt 2) t = .next u ∧
      showsRampedSelector 2 Config.ex1Vp u.events := by
  refine ⟨⟨by decide, by decide⟩, dom2, rfl, rfl, rfl, rfl, ran_next (by decide +kernel), by decide +kernel,
    by decide +kernel, ran_next (by decide +kernel), ?_⟩
  have h : (after (exec (.vpReadVolt 2) (after (exec (.vpScale 2 (some td1)) scaling)))).events =
      [.respond .ok 1100000, .domRead 2 0x0C 0x28, .respond .ok 0, .domWrite 2 0 0x000C2809, .call (.checkTxdone 7 false),
        .call (.clearTxdone 7), .call (.postScale 2 1100000 td1 0x10 0x20), .call (.checkTxdone 7 true),
        .domWrite 2 0 0x000C280B, .domWrite 2 0 0x000C2809, .domWrite 2 0 0x000C280D, .domWrite 2 0 0x000C2809,
        .domRead 2 0 0x000C2009, .call (.checkTxdone 7 false), .call (.clearTxdone 7),
        .call (.preScale 2 1100000 td1 (.ok 0x10 0x20)), .domRead 2 0x04 1] := by decide +kernel
  rw [h]
  simp [showsRampedSelector, rampedSelector, Event.readOf, Config.ex1Vp, regKey]
  decide

/-- T-ERR-4 and T-ERR-5: EX1's counters, and N1 = 0 with N2 = 1. -/
theorem witness_CountingLaw :
    let s := { start with msgCnt := 0, recCnt := 1, cfg := { start.cfg with n1 := 0, n2 := 1 } }
    (start.cfg.n2 ≠ 0 ∧ start.recCnt = start.cfg.n2 ∧ start.msgCnt = start.cfg.n1) ∧
      s.cfg.n2 ≠ 0 ∧ s.recCnt = s.cfg.n2 ∧ s.msgCnt = s.cfg.n1 := by decide

theorem witness_CountersOnlyThroughReport : (∃ t, exec (.vpInit 2) start = .next t) ∧
    (∀ d td, (Instr.vpInit 2) ≠ .vpScale d td) ∧ ∀ d, (Instr.vpInit 2) ≠ .vpDisable d :=
  ⟨⟨_, ran_next (by decide)⟩, by simp, by simp⟩

/-- A command that answers, one that is fatal, and one cut by a SoC reset. -/
theorem witness_OneResponsePerCommand :
    (∃ t, exec (.vpInit 2) start = .next t ∧ t.res = 0) ∧ (∃ t, exec (.read 0 0 0) start = .next t ∧ t.mode = .fatal) ∧
      ∃ t, exec .warmReset (at' 2 [.env .observe, .socReset []] (holding [(.mmio, 0x4A307B00, 0)] start)) = .next t ∧
        t.events.head? = some .socReset :=
  ⟨⟨_, ran_next (by decide), by decide⟩, ⟨_, ran_next (by decide), by decide⟩, _, ran_next (by decide), by decide⟩

/-- The labels of COLD_RESET's events (R152). -/
theorem witness_PhaseNamesTheLine :
    start.takesCommand ∧ (∃ t, exec (.rmw 1 0 1 0x400 0x10) start = .next t ∧ t.mode = .ready) ∧
      ∃ t, exec .coldReset start = .next t ∧ t.mode = .ready ∧
        t.hist.map (fun e => e.1) = [Label.CD6, .CD5, .CD4, .CD3, .CD2, .CD1].map (fun l => some ⟨l, none⟩) :=
  ⟨start_takesCommand, ⟨_, ran_next (by decide), by decide⟩, _, ran_next (by decide), by decide, by decide⟩

theorem witness_BaseWrittenOnlyByInitBases : (∃ t, exec (.vpInit 2) start = .next t) ∧
    ∀ bases, (Instr.vpInit 2) ≠ .initBases bases := ⟨⟨_, ran_next (by decide)⟩, by simp⟩

theorem witness_VpenWrittenOnlyByItsCommands :
    (∃ t, exec (.vpInit 2) (enabled start) = .next t ∧ t.vpen = [false, false, false]) ∧
      ∃ t, exec (.vpEnable 2) (answering [] [some td1] (holding [(.dom 2, 0, 8)] start)) = .next t ∧
        t.vpen = [false, false, true] :=
  ⟨⟨_, ran_next (by decide), by decide⟩, _, ran_next (by decide), by decide⟩

theorem witness_VpstateWrittenOnlyByScale :
    (∃ t, exec (.vpScale 2 none) start = .next t ∧ t.vpstate = .failed .invalidArgument) ∧
      ∃ t, exec (.vpScale 2 (some td1)) scaling = .next t ∧ t.vpstate = .idle :=
  ⟨⟨_, ran_next (by decide), by decide⟩, _, ran_next (by decide +kernel), by decide +kernel⟩

/-- The invariants RegisterFilesKeepTheirSize, CountersStayInRange, TargetStaysCanonical, WritesSeenInIssueOrder,
NoCommandBetweenSteps, GlobalResetWasRequested, and ConfigurationIsConstant: a state that meets them all and from
which a step goes on, which was no reset. -/
theorem witness_invariants :
    let s := presenting (encode (.write 1 1 0x400 0x10))
    (s.filesFit ∧ s.countersInRange ∧ s.target.wf = true ∧ s.writesInOrder ∧ s.sequencerIdle ∧ s.resetWasRequested) ∧
      ∃ t, step s = .next t ∧ t.events = [.respond .ok 0, .mmioWrite ctrl 1] := by
  refine ⟨⟨?_, ?_, by decide, ?_, ?_, ?_⟩, _, ran_next (by decide), by decide⟩
  · exact ⟨by decide, by decide⟩
  · unfold State.countersInRange
    decide
  · unfold State.writesInOrder
    decide
  · unfold State.sequencerIdle
    decide
  · rintro (h | h) <;> cases h

/-- WritesSeenInIssueOrder: no reset has come where no event is a reset. -/
theorem witness_WritesSeenInIssueOrder :
    ¬ResetSince start (after (exec (.write 1 1 0x400 0x10) start)) ∧
      exec (.write 1 1 0x400 0x10) start = .next (after (exec (.write 1 1 0x400 0x10) start)) := by
  refine ⟨?_, ran_next (by decide)⟩
  have he : (after (exec (.write 1 1 0x400 0x10) start)).events = [.respond .ok 0, .mmioWrite ctrl 1] := by decide
  rintro ⟨es, e, h, hm, hr⟩
  rw [he, show start.events = [] from rfl, List.append_nil] at h
  subst h
  simp only [List.mem_cons, List.not_mem_nil, or_false] at hm
  rcases hm with rfl | rfl <;> cases hr

/-- GlobalResetWasRequested: a request that has been observed, and a step in which the block issues one. -/
theorem witness_GlobalResetWasRequested :
    (requested.target.armed = true ∧ requested.resetWasRequested ∧ ∃ t, step requested = .next t) ∧
    let s := presenting (encode (.write 2 1 0x1B00 0))
    ∃ t, step s = .next t ∧ ∃ e ∈ t.wq ++ t.target.seen, e.request = true ∧ e ∉ s.wq ++ s.target.seen := by
  refine ⟨⟨by decide, fun _ => ⟨⟨⟨.mmio, 0x4A307B00, 2⟩, true⟩, by decide, by decide⟩, _, ran_next (by decide)⟩,
    _, ran_next (by decide), ⟨⟨.mmio, 0x4A307B00, 2⟩, true⟩, by decide, by decide, by decide⟩

/-- ResetMeetsTheInvariants: EX1, and the least N2 that R56 admits. -/
theorem witness_ResetMeetsTheInvariants : Config.ex1.n2 ≠ 0 ∧ ({ Config.ex1 with n2 := 1 } : Config).n2 ≠ 0 := by decide

end Sys2Proof.Tests
end

section
/-! PROOFS. Fields over a mask (R13): `lsb` is the lowest set bit, and `field` reads back what `place` placed. -/

namespace Sys2Proof

/-! ### The lowest set bit -/

theorem lsb_lt {m : Word} (hm : m ≠ 0) : lsb m < 32 := by
  obtain ⟨i, hbit⟩ : ∃ i, m.getLsbD i = true := by simpa [BitVec.zero_iff_eq_false] using hm
  have hmem : i ∈ List.range 32 := List.mem_range.mpr (BitVec.lt_of_getLsbD hbit)
  simpa [lsb] using List.findIdx_lt_length_of_exists ⟨i, hmem, hbit⟩

theorem lsb_eq_iff {m : Word} {k : Nat} (hk : k < 32) :
    lsb m = k ↔ m.getLsbD k = true ∧ ∀ j < k, m.getLsbD j = false := by
  rw [lsb, List.findIdx_eq (by simpa using hk)]
  simp only [List.getElem_range]

/-! ### Placing and reading back -/

/-- `place` shifts the value as a number; shifted as a word it is the same word. -/
theorem ofNat_shiftLeft (x k : Nat) : BitVec.ofNat 32 (x <<< k) = BitVec.ofNat 32 x <<< k := by
  apply BitVec.eq_of_toNat_eq
  simp [Nat.shiftLeft_eq]

theorem place_eq_some_iff {x : Nat} {m w : Word} :
    place x m = some w ↔
      (x < 2 ^ (32 - lsb m) ∧ BitVec.ofNat 32 x <<< lsb m &&& ~~~m = 0) ∧ BitVec.ofNat 32 x <<< lsb m = w := by
  simp [place, ofNat_shiftLeft]

/-- R13: `place` is defined exactly when the value fits. -/
theorem place_isSome_iff {x : Nat} {m : Word} :
    (place x m).isSome = true ↔ x < 2 ^ (32 - lsb m) ∧ BitVec.ofNat 32 x <<< lsb m &&& ~~~m = 0 := by
  simp [Option.isSome_iff_exists, place_eq_some_iff]

theorem Word.and_eq_self_of_and_not_eq_zero {w m : Word} (h : w &&& ~~~m = 0) : w &&& m = w :=
  calc w &&& m = (w &&& m) ||| (w &&& ~~~m) := by simp [h]
    _ = w := by rw [← BitVec.and_or_distrib_left, BitVec.or_not_self, BitVec.and_allOnes]

/-- The bits of `x` that the shift to the left would lose are clear. -/
theorem ofNat_shiftLeft_ushiftRight {x k : Nat} (hx : x < 2 ^ (32 - k)) :
    BitVec.ofNat 32 x <<< k >>> k = BitVec.ofNat 32 x := by
  refine BitVec.eq_of_getLsbD_eq fun i hi => ?_
  simp only [BitVec.getLsbD_ushiftRight, BitVec.getLsbD_shiftLeft, BitVec.getLsbD_ofNat]
  by_cases hkept : k + i < 32
  · simp [hkept]
  · have hclear : x.testBit i = false :=
      Nat.testBit_lt_two_pow (hx.trans_le (Nat.pow_le_pow_right (by decide) (by omega)))
    simp [hclear]

/-- R13: what is placed lies in its field, and `field` reads it back. -/
theorem field_of_place {x : Nat} {m w : Word} (h : place x m = some w) :
    field w m = BitVec.ofNat 32 x ∧ w &&& ~~~m = 0 := by
  obtain ⟨⟨hx, hfit⟩, rfl⟩ := place_eq_some_iff.mp h
  refine ⟨?_, hfit⟩
  rw [field, Word.and_eq_self_of_and_not_eq_zero hfit, ofNat_shiftLeft_ushiftRight hx]

/-- Settles O17: `lsb` by the search that finds it; a placed value is unchanged by its mask, and its shift loses no
bit. -/
theorem placedFieldReadsBack : Obligations.PlacedFieldReadsBack := by
  intro m hm
  obtain ⟨hset, hlow⟩ := (lsb_eq_iff (lsb_lt hm)).mp rfl
  exact ⟨hset, hlow, fun _ _ h => field_of_place h, fun _ => place_isSome_iff⟩

end Sys2Proof
end

section
/-! PROOFS. What resets and commands do to the block's registers (R20 to R30, R39, R40): the values after a reset, the
invariants every step keeps, and which commands write BASE, VPEN and VPSTATE. -/

namespace Sys2Proof.Machine

variable {s t : State}

/-! ### Reset and dispatch (R25, R39, R240) -/

/-- Settles O7: the step's branch for a descriptor that decodes. -/
theorem stepRunsDecodedCommand : Obligations.StepRunsDecodedCommand := by
  intro s i ws rest hpin hmode htake hdecode
  simp [step, hpin, hmode, htake, hdecode]

theorem blockReset_events (s : State) (keep : List Bool) : (s.blockReset keep).events = .blockReset :: s.events :=
  congrArg (List.cons _) (settleQueue_envOnly s keep).1.events

/-- Settles O11: a signalled reset comes before MODE is looked at, and leaves the block as every reset does. -/
theorem blockResetState : Obligations.BlockResetState := by
  intro s keep hpin
  have h := blockReset_wasReset s keep
  exact ⟨s.blockReset keep, by simp [step, hpin], h.base, h.vpen, h.msgCnt, h.recCnt, h.mode, h.vpstate, h.phase,
    h.work, h.wq, h.cfg, h.cmd, blockReset_events s keep⟩

/-- Settles O13: each field of `State.atReset` as it is defined. -/
theorem resetStateValues : Obligations.ResetStateValues :=
  ⟨rfl, fun _ => ⟨rfl, rfl, rfl, rfl, rfl, rfl, rfl, rfl, rfl, rfl, rfl⟩⟩

section AtReset
variable (c : Config)

theorem atReset_filesFit : (State.atReset c).filesFit := ⟨List.length_replicate, List.length_replicate⟩

theorem atReset_countersInRange {c : Config} (h : c.n2 ≠ 0) : (State.atReset c).countersInRange :=
  ⟨h, h, Nat.le_refl _, Nat.le_refl _⟩

theorem atReset_target_wf : (State.atReset c).target.wf = true := rfl

theorem atReset_writesInOrder : (State.atReset c).writesInOrder := List.Sublist.refl []

theorem atReset_sequencerIdle : (State.atReset c).sequencerIdle := ⟨nofun, fun _ => rfl⟩

theorem atReset_resetWasRequested : (State.atReset c).resetWasRequested := by
  rintro (harmed | hevent)
  · cases harmed
  · cases hevent

end AtReset

/-- Settles O60: the reset state meets the invariants one by one, EX1 being one of the configurations. -/
theorem resetMeetsTheInvariants : Obligations.ResetMeetsTheInvariants := by
  refine ⟨fun c hc => ?_, ?_⟩
  · exact ⟨atReset_filesFit c, atReset_countersInRange hc, atReset_target_wf c, atReset_writesInOrder c,
      atReset_sequencerIdle c, atReset_resetWasRequested c⟩
  · exact ⟨atReset_filesFit Config.ex1, atReset_countersInRange (by decide), atReset_target_wf Config.ex1,
      atReset_writesInOrder Config.ex1, atReset_sequencerIdle Config.ex1, atReset_resetWasRequested Config.ex1⟩

/-! ### Invariants of the configuration and the registers -/

/-- The configuration and the registers of the block that outlive a command. -/
structure Registers where
  cfg : Config
  base : List Addr
  vpen : List Bool
  vpstate : VpState
  msgCnt : Counter
  recCnt : Counter

def State.registers (s : State) : Registers := ⟨s.cfg, s.base, s.vpen, s.vpstate, s.msgCnt, s.recCnt⟩

theorem registers_eq_iff : t.registers = s.registers ↔ t.cfg = s.cfg ∧ t.base = s.base ∧ t.vpen = s.vpen ∧
    t.vpstate = s.vpstate ∧ t.msgCnt = s.msgCnt ∧ t.recCnt = s.recCnt := by
  simp [State.registers]

theorem EnvOnly.registers (h : EnvOnly s t) : t.registers = s.registers :=
  registers_eq_iff.mpr ⟨h.cfg, h.base, h.vpen, h.vpstate, h.msgCnt, h.recCnt⟩

section Invariant
variable {Inv : State → Prop} (same : ∀ u v, v.registers = u.registers → Inv u → Inv v)
  (reset : ∀ u v, WasReset u v → Inv u → Inv v)
include same reset

theorem registers_movesKeep : MovesKeep Inv Inv :=
  .of (fun u v h => same u v h.registers) (fun u v h => same u v h.registers) reset reset

theorem registers_kept : Kept (fun _ => True) Inv Inv :=
  .of (fun _ h => h) (fun u v h => same u v h.registers) (fun u v h => same u v h.registers) reset reset
    (fun u _ _ _ => same u _ rfl) (fun u _ _ _ _ => same u _ rfl) (fun u _ => same u _ rfl)
    (fun u _ _ _ => same u _ rfl) (fun u _ _ => same u _ rfl)

/-- An invariant of the registers that a reset establishes and that survives the commands' own writes of BASE, VPEN,
VPSTATE and the counters is kept by every step. -/
theorem registers_step (base : ∀ bases u, Inv u → Inv (u.withBases bases))
    (vpen : ∀ d b u, Inv u → Inv (u.withVpen d b)) (vps : ∀ u x, Inv u → Inv { u with vpstate := x })
    (report : ∀ d dom vp, Keeps Inv Inv (reportError d dom vp)) (hs : Inv s) (hx : step s = .next t) : Inv t :=
  step_kept (registers_kept same reset) (registers_movesKeep same reset)
    (fun u _ _ h _ => same u _ rfl h) (fun u _ h _ => same u _ rfl h) base vpen vps report hs hx

end Invariant

theorem step_cfg (h : step s = .next t) : t.cfg = s.cfg := by
  have same : ∀ u v : State, v.registers = u.registers → u.cfg = s.cfg → v.cfg = s.cfg :=
    fun _ _ h hu => (congrArg Registers.cfg h).trans hu
  have reset : ∀ u v : State, WasReset u v → u.cfg = s.cfg → v.cfg = s.cfg := fun _ _ h hu => h.cfg.trans hu
  exact registers_step same reset (fun _ _ hu => hu) (fun _ _ _ hu => hu) (fun _ _ hu => hu)
    ((registers_kept same reset).reportError (fun _ _ hu => hu) fun _ _ hu => hu) rfl h

/-- Where the configuration is not admitted, no arm of `exec` runs (R56). -/
theorem exec_configNotAdmitted {i : Instr} (hm : s.mode = .ready) (ha : s.cfg.admitted = false) :
    exec i s = .refused .configNotAdmitted := by
  cases i <;> exact command_configNotAdmitted hm ha

/-- Settles O50: no operation writes the configuration, and every command is guarded by its admission. -/
theorem configurationIsConstant : Obligations.ConfigurationIsConstant :=
  ⟨fun _ _ => step_cfg, fun _ _ => exec_configNotAdmitted⟩

theorem filesFit_of_registers_eq (h : t.registers = s.registers) (hs : s.filesFit) : t.filesFit := by
  obtain ⟨hcfg, hbase, hvpen, -⟩ := registers_eq_iff.mp h
  rwa [State.filesFit, hbase, hvpen, hcfg]

theorem WasReset.filesFit (h : WasReset s t) : t.filesFit := by
  rw [State.filesFit, h.base, h.vpen, h.cfg]
  exact ⟨List.length_replicate, List.length_replicate⟩

theorem withBases_filesFit (bases : List Addr) (h : s.filesFit) : (s.withBases bases).filesFit :=
  ⟨by simp, h.2⟩

theorem withVpen_filesFit (d : DomId) (b : Bool) (h : s.filesFit) : (s.withVpen d b).filesFit :=
  ⟨h.1, List.length_set.trans h.2⟩

/-- Settles O54: INIT_BASES binds NPART bases, VPEN is only updated in place, and a reset fills both files. -/
theorem registerFilesKeepTheirSize : Obligations.RegisterFilesKeepTheirSize := by
  intro s t hs hx
  have same : ∀ u v : State, v.registers = u.registers → u.filesFit → v.filesFit := fun _ _ => filesFit_of_registers_eq
  have reset : ∀ u v : State, WasReset u v → u.filesFit → v.filesFit := fun _ _ h _ => h.filesFit
  exact registers_step same reset (fun bases _ => withBases_filesFit bases) (fun d b _ => withVpen_filesFit d b)
    (fun _ _ h => h) ((registers_kept same reset).reportError (fun _ _ h => h) fun _ _ h => h) hs hx

/-! ### The counters (R201, R202, R207) -/

/-- What holds of the counters while REC, counted down to 0, waits for its reload (R202). -/
def State.reloading (s : State) : Prop := s.cfg.n2 ≠ 0 ∧ s.msgCnt ≤ s.cfg.n1

theorem countersInRange_of_registers_eq (h : t.registers = s.registers) (hs : s.countersInRange) :
    t.countersInRange := by
  obtain ⟨hcfg, -, -, -, hmsg, hrec⟩ := registers_eq_iff.mp h
  rwa [State.countersInRange, hcfg, hrec, hmsg]

theorem WasReset.countersInRange (h : WasReset s t) (hn : s.cfg.n2 ≠ 0) : t.countersInRange := by
  rw [State.countersInRange, h.cfg, h.recCnt, h.msgCnt]
  exact ⟨hn, hn, Nat.le_refl _, Nat.le_refl _⟩

theorem countersInRange_kept : Kept (fun _ => True) State.countersInRange State.countersInRange :=
  registers_kept (fun _ _ => countersInRange_of_registers_eq) fun _ _ h hu => h.countersInRange hu.1

/-- A reset in the turn before the recovery callback loads REC as well as the reload does. -/
theorem reloading_movesKeep : MovesKeep State.reloading State.countersInRange :=
  .of (fun u v h hu => by rwa [State.reloading, h.cfg, h.msgCnt])
    (fun _ _ h => countersInRange_of_registers_eq h.registers) (fun _ _ h hu => h.countersInRange hu.1)
    (fun _ _ h hu => h.countersInRange hu.1)

theorem messageHalf_le (msg : Counter) : (messageHalf msg).2 ≤ msg := by
  unfold messageHalf
  split
  · exact Nat.sub_le _ _
  · exact Nat.le_refl _

theorem reportMessage_countersInRange (d : DomId) :
    Keeps State.countersInRange State.countersInRange (reportMessage d) :=
  (countersInRange_kept.subLine _).bind fun _ => Keeps.get.bind fun _ => (countersInRange_kept.log _ _).bind fun _ =>
    Keeps.modify fun _ ⟨hn, hz, hr, hm⟩ => ⟨hn, hz, hr, (messageHalf_le _).trans hm⟩

theorem reportRecovery_countersInRange (id : Nat) :
    Keeps State.countersInRange State.countersInRange (reportRecovery id) := by
  intro u ⟨hn, hz, hr, hm⟩
  simp only [reportRecovery, wp_bind, wp_subLine, wp_get, wp_modify, wp_ite, wp_pure]
  constructor
  · intro _
    simp only [callRecover, wp_bind, wp_emit]
    exact wp_mono (reloading_movesKeep.turn _ ⟨hn, hm⟩) (fun _ v hv => ⟨hv.1, hv.1, Nat.le_refl _, hv.2⟩)
      fun _ _ h _ => h
  · intro hlast
    exact ⟨hn, by simpa [recoveryHalf] using hlast, (Nat.sub_le _ _).trans hr, hm⟩

theorem reportError_countersInRange (d : DomId) (dom : Dom) (vp : Vp) :
    Keeps State.countersInRange State.countersInRange (reportError d dom vp) :=
  (reportMessage_countersInRange d).bind fun _ =>
    (Keeps.ite (reportRecovery_countersInRange vp.id) (.pure _)).bind fun _ => countersInRange_kept.endSub

/-- Settles O55: only ReportError and resets change the counters, and REC is 0 nowhere but before its reload. -/
theorem countersStayInRange : Obligations.CountersStayInRange := by
  intro s t hs hx
  exact registers_step (fun _ _ => countersInRange_of_registers_eq) (fun _ _ h hu => h.countersInRange hu.1)
    (fun _ _ hu => hu) (fun _ _ _ hu => hu) (fun _ _ hu => hu) reportError_countersInRange hs hx

/-! ### MODE and PHASE between steps (R25, R27; log 14) -/

theorem EnvOnly.sequencerIdle (h : EnvOnly s t) (hs : s.sequencerIdle) : t.sequencerIdle := by
  rwa [State.sequencerIdle, h.mode, h.phase]

theorem WasReset.sequencerIdle (h : WasReset s t) : t.sequencerIdle := by
  rw [State.sequencerIdle, h.mode, h.phase]
  exact ⟨nofun, fun _ => rfl⟩

/-- However a command ends, by its response, in FATAL or by a reset, it is not in progress any more. -/
theorem sequencerIdle_kept : Kept (fun _ => True) (fun _ => True) State.sequencerIdle :=
  .of (fun _ h => h) (fun _ _ _ _ => trivial) (fun _ _ => EnvOnly.sequencerIdle) (fun _ _ h _ => h.sequencerIdle)
    (fun _ _ h _ => h.sequencerIdle) (fun _ _ _ _ _ => trivial) (fun _ _ _ _ _ _ => trivial) (fun _ _ _ => trivial)
    (fun _ _ _ _ _ => ⟨nofun, nofun⟩) (fun _ _ _ _ => ⟨nofun, fun _ => rfl⟩)

theorem sequencerIdle_movesKeep : MovesKeep State.sequencerIdle State.sequencerIdle :=
  .of (fun _ _ => EnvOnly.sequencerIdle) (fun _ _ => EnvOnly.sequencerIdle) (fun _ _ h _ => h.sequencerIdle)
    fun _ _ h _ => h.sequencerIdle

theorem step_sequencerIdle (hs : s.sequencerIdle) (hx : step s = .next t) : t.sequencerIdle :=
  step_kept sequencerIdle_kept sequencerIdle_movesKeep (fun _ _ _ _ _ => trivial) (fun _ _ _ _ => trivial)
    (fun _ _ _ => trivial) (fun _ _ _ _ => trivial) (fun _ _ _ => trivial)
    (sequencerIdle_kept.reportError (fun _ _ _ => trivial) fun _ _ _ => trivial) hs hx

theorem runEnded_iff (h : s.sequencerIdle) : s.runEnded ↔ s.mode = .ready ∧ s.wq = [] :=
  ⟨fun ⟨hm, _, hq⟩ => ⟨hm, hq⟩, fun ⟨hm, hq⟩ => ⟨hm, h.2 hm, hq⟩⟩

/-- Settles O58: MODE is not BUSY after a step, and READY says that PHASE has no value. -/
theorem noCommandBetweenSteps : Obligations.NoCommandBetweenSteps := fun _ _ hs hx =>
  ⟨step_sequencerIdle hs hx, runEnded_iff (step_sequencerIdle hs hx)⟩

/-! ### Which commands write a register (R21, R22, R26, R33) -/

/-- The events since `s` are those of a command in progress. -/
def Grown (s u : State) : Prop := ∃ es, u.events = es ++ s.events

theorem Grown.event {u : State} (h : Grown s u) {e : Event} (ht : t.events = e :: u.events) : Grown s t := by
  obtain ⟨es, hu⟩ := h
  exact ⟨e :: es, ht.trans (congrArg (List.cons e) hu)⟩

theorem Grown.resetSince {u : State} (h : Grown s u) (hr : WasReset u t) : ResetSince s t := by
  obtain ⟨es, hu⟩ := h
  obtain ⟨e, he, ht⟩ := hr.events
  exact ⟨e :: es, e, ht.trans (congrArg (List.cons e) hu), List.mem_cons_self, he⟩

theorem ResetSince.grown (h : ResetSince s t) : Grown s t := by
  obtain ⟨es, _, ht, _⟩ := h
  exact ⟨es, ht⟩

theorem ResetSince.env {u : State} (h : ResetSince s u) (he : EnvOnly u t) : ResetSince s t := by
  obtain ⟨es, e, hu, hmem⟩ := h
  exact ⟨es, e, he.events.trans hu, hmem⟩

/-- What is said of the registers, and survives a command's own writes, holds at the end of the command, or a reset
came. -/
theorem frame_kept (s : State) {Frame : State → Prop} (same : ∀ u v, v.registers = u.registers → Frame u → Frame v) :
    Kept (fun _ => True) (fun u => Frame u ∧ Grown s u) (fun u => Frame u ∨ ResetSince s u) :=
  .of (R := ResetSince s) (fun _ h => .inr h)
    (fun u v h ⟨hu, es, hes⟩ => ⟨same u v h.registers hu, es, h.events.trans hes⟩)
    (fun _ _ h hu => hu.env h)
    (fun _ _ h ⟨_, hg⟩ => hg.resetSince h)
    (fun _ _ h hu => hu.grown.resetSince h)
    (fun u _ _ _ ⟨hu, hg⟩ => ⟨same u _ rfl hu, hg⟩)
    (fun u _ _ _ _ ⟨hu, hg⟩ => ⟨same u _ rfl hu, hg.event rfl⟩)
    (fun u _ ⟨hu, hg⟩ => ⟨same u _ rfl hu, hg⟩)
    (fun u _ _ _ ⟨hu, _⟩ => .inl (same u _ rfl hu))
    (fun u _ _ ⟨hu, _⟩ => .inl (same u _ rfl hu))

/-- What is said of the registers before a command is so after it, or a reset came: it survives the counters' updates,
and the writes of BASE, VPEN and VPSTATE by the commands that do them. -/
theorem exec_frame {i : Instr} {Frame : State → Prop} (same : ∀ u v, v.registers = u.registers → Frame u → Frame v)
    (base : ∀ bases, i = .initBases bases → ∀ u, Frame u → Frame (u.withBases bases))
    (clear : ∀ d, i = .vpInit d ∨ i = .vpDisable d → ∀ u, Frame u → Frame (u.withVpen d false))
    (arm : ∀ d, i = .vpEnable d → ∀ u, Frame u → Frame (u.withVpen d true))
    (vps : ∀ d td, i = .vpScale d td → ∀ u x, Frame u → Frame { u with vpstate := x })
    (msg : ∀ u x, Frame u → Frame { u with msgCnt := x }) (rcv : ∀ u x, Frame u → Frame { u with recCnt := x })
    (hs : Frame s) (hx : exec i s = .next t) : Frame t ∨ ResetSince s t :=
  (frame_kept s same).exec (fun _ => trivial) (fun bases hi u ⟨hu, hg⟩ => ⟨base bases hi u hu, hg⟩)
    (fun d hi u ⟨hu, hg⟩ => ⟨clear d hi u hu, hg⟩) (fun d hi u ⟨hu, hg⟩ => ⟨arm d hi u hu, hg⟩)
    (fun d td hi u x ⟨hu, hg⟩ => ⟨vps d td hi u x hu, hg⟩)
    (fun _ => (frame_kept s same).reportError (fun u x ⟨hu, hg⟩ => ⟨msg u x hu, hg⟩)
      fun u x ⟨hu, hg⟩ => ⟨rcv u x hu, hg⟩)
    ⟨same s _ rfl hs, [], rfl⟩ hx

/-- Settles O51: the frame of BASE, which INIT_BASES alone would break. -/
theorem baseWrittenOnlyByInitBases : Obligations.BaseWrittenOnlyByInitBases := by
  intro i s t hx hi
  exact exec_frame (Frame := fun u => u.base = s.base) (fun _ _ h hu => (congrArg Registers.base h).trans hu)
    (fun bases hb => absurd hb (hi bases)) (fun _ _ _ hu => hu) (fun _ _ _ hu => hu) (fun _ _ _ _ _ hu => hu)
    (fun _ _ hu => hu) (fun _ _ hu => hu) rfl hx

/-- VPEN as `s` has it, or with the one entry written that the command `i` writes (R22, R33). -/
def VpenWrittenBy (i : Instr) (s u : State) : Prop :=
  u.vpen = s.vpen ∨ (∃ d, (i = .vpInit d ∨ i = .vpDisable d) ∧ u.vpen = s.vpen.set d.toNat false) ∨
    ∃ d, i = .vpEnable d ∧ u.vpen = s.vpen.set d.toNat true

theorem VpenWrittenBy.clear {i : Instr} {d : DomId} (hi : i = .vpInit d ∨ i = .vpDisable d) {u : State}
    (h : VpenWrittenBy i s u) : VpenWrittenBy i s (u.withVpen d false) := by
  refine .inr (.inl ⟨d, hi, ?_⟩)
  rw [withVpen_vpen]
  obtain hu | ⟨d', hi', hu⟩ | ⟨d', rfl, _⟩ := h
  · rw [hu]
  · obtain rfl : d = d' := by
      rcases hi with rfl | rfl <;> simpa using hi'
    rw [hu, List.set_set]
  · simp at hi

theorem VpenWrittenBy.arm {d : DomId} {u : State} (h : VpenWrittenBy (.vpEnable d) s u) :
    VpenWrittenBy (.vpEnable d) s (u.withVpen d true) := by
  refine .inr (.inr ⟨d, rfl, ?_⟩)
  rw [withVpen_vpen]
  obtain hu | ⟨d', hi', _⟩ | ⟨d', hi', hu⟩ := h
  · rw [hu]
  · simp at hi'
  · cases hi'
    rw [hu, List.set_set]

/-- Settles O52: the frame of VPEN, up to the entry of the command's own domain. -/
theorem vpenWrittenOnlyByItsCommands : Obligations.VpenWrittenOnlyByItsCommands := by
  intro i s t hx
  have h : VpenWrittenBy i s t ∨ ResetSince s t := by
    refine exec_frame (fun u v h hu => ?_) (fun _ _ _ hu => hu) (fun d hi u => VpenWrittenBy.clear hi)
      (fun d hi u hu => ?_) (fun _ _ _ _ _ hu => hu) (fun _ _ hu => hu) (fun _ _ hu => hu) (.inl rfl) hx
    · have hvpen : v.vpen = u.vpen := congrArg Registers.vpen h
      rwa [VpenWrittenBy, hvpen]
    · subst hi
      exact hu.arm
  obtain (hkept | hwritten) | hreset := h
  · exact .inl hkept
  · exact .inr (.inr hwritten)
  · exact .inr (.inl hreset)

/-! ### VPSTATE at the end of VP_SCALE (R26, R170) -/

theorem Status.code_eq_ok_iff (st : Status) : st.code = Status.ok.code ↔ st = .ok := by
  cases st <;> decide

/-- VPSTATE is Idle exactly where the answer is OK. -/
def State.idleIffOk (s : State) : Prop := s.vpstate = .idle ↔ s.res = Status.ok.code

section Scale
variable {E : Stop → State → Prop} (refused : ∀ r u, E (.refuse r) u) {b : State} {es : List Event}
  {d : DomId} {dom : Dom} {vp : Vp} {f : PmicFn} {td : TD}

/-- The response, right after VPSTATE has taken its last value. -/
theorem Did.respondScale {x : VpState} {st : Status} {v : Word} (h : Did E b s es) (hx : x = .idle ↔ st = .ok) :
    wp (Machine.respond st v) (fun _ t => t.idleIffOk) E { s with vpstate := x } :=
  (h.setVpstate x).respond fun t ht _ => by
    rw [State.idleIffOk, ht.vpstate, ht.res]
    exact hx.trans (Status.code_eq_ok_iff st).symm

theorem Did.scaleTimeout (h : Did E b s es) : wp (scaleTimeout d dom vp) (fun _ t => t.idleIffOk) E s := by
  simp only [Machine.scaleTimeout, wp_bind, wp_setVpstate]
  exact h.reportError fun t ht => ht.respondScale (by simp)

include refused

theorem Did.scaleRamp {tvolt tsel csel : Word} (h : Did E b s es) :
    wp (scaleRamp d dom vp f td tvolt tsel csel) (fun _ t => t.idleIffOk) E s := by
  simp only [Machine.scaleRamp, wp_bind, wp_setVpstate, wp_get]
  refine h.line fun t ht => ?_
  replace ht := ht.setVpstate .configWriting
  cases ha : aligned vp.vpconfig with
  | false => exact wp_setInitVoltage_misaligned ha (refused _)
  | true =>
  cases hp : place (f.apply tvolt).toNat vp.cfgInitvoltage with
  | none => exact ht.setInitVoltage_overflow ha hp (refused _)
  | some sel =>
  refine ht.setInitVoltage ha hp fun v t ht => ht.line fun t ht => ht.domWrite ha fun t ht => ?_
  refine (ht.setVpstate .transactionPending).line fun t ht => ?_
  rw [ht.cfg]
  refine ht.txWait fun done w t _ ht => ht.reportUnless fun t ht => ht.line fun t ht => ?_
  refine ht.callPostScale fun t ht => ht.line fun t ht => ht.clearTxDone fun cleared w t _ ht => ?_
  refine ht.reportUnless fun t ht => ht.line fun t ht => ht.domWrite ha fun t ht => ht.line fun t ht => ?_
  exact ht.respondScale (by simp)

theorem Did.scaleIdle (h : Did E b s es) : wp (scaleIdle d dom vp f td) (fun _ t => t.idleIffOk) E s := by
  simp only [Machine.scaleIdle, wp_bind, wp_get]
  refine h.line fun t ht => ht.setWork fun t ht => ht.callPreScale fun r host t _ ht => ?_
  cases r with
  | err e =>
    simp only [wp_bind, wp_setVpstate]
    exact ht.respondScale (by simp)
  | ok tsel csel =>
    simp only [wp_bind]
    refine ht.setWork fun t ht => ht.line fun t ht => ht.clearTxDone fun cleared w t _ ht => ?_
    exact (wp_ite _ _ _ _ _ _).mpr ⟨fun _ => ht.scaleRamp refused, fun _ => ht.scaleTimeout⟩

end Scale

/-- How VP_SCALE stops early: it is refused, or a reset cuts it. -/
def ResetCuts (s : State) (e : Stop) (t : State) : Prop := e = .cut → ResetSince s t

theorem execVpScale_idleIffOk {d : DomId} {td : Option TD} (hx : execVpScale d td s = .next t) :
    t.idleIffOk ∨ ResetSince s t := by
  have refused : ∀ r u, ResetCuts s (.refuse r) u := fun _ _ => nofun
  have hbudget := (admitted_budgets (exec_ready (i := .vpScale d td) hx).2).2.1
  have h : Did (ResetCuts s) (s.accept (.vpScale d td)) (s.accept (.vpScale d td)) [] :=
    Did.start _ fun u hu _ => hu.1
  refine command_post (Q := fun u => u.idleIffOk ∨ ResetSince s u) hx
    (wp_mono (Q := fun _ u => u.idleIffOk) (E := ResetCuts s) ?_ (fun _ _ hu => .inl hu) fun _ _ hu he => .inr (hu he))
  simp only [wp_bind, wp_setVpstate]
  refine h.line fun u hu => (hu.setVpstate .idle).line fun u hu => ?_
  split
  next dom vp td _ _ =>
    split
    next => exact refused _ _
    next f _ =>
      simp only [wp_bind]
      refine hu.line fun u hu => ?_
      cases ha : aligned vp.vstatus with
      | false => exact wp_waitIdle_misaligned (by rwa [hu.cfg]) ha (refused _)
      | true =>
        refine hu.waitIdle ha fun idle w u _ hu => ?_
        exact (wp_ite _ _ _ _ _ _).mpr ⟨fun _ => hu.scaleIdle refused, fun _ => hu.scaleTimeout⟩
  next =>
    simp only [wp_bind, wp_setVpstate]
    exact hu.respondScale (by simp)

/-- Settles O53: the frame of VPSTATE for every command but VP_SCALE, and VP_SCALE path by path. -/
theorem vpstateWrittenOnlyByScale : Obligations.VpstateWrittenOnlyByScale := by
  intro i s t hx
  by_cases hi : ∃ d td, i = .vpScale d td
  · obtain ⟨d, td, rfl⟩ := hi
    obtain h | hreset := execVpScale_idleIffOk hx
    · exact .inr (.inr ⟨⟨d, td, rfl⟩, h⟩)
    · exact .inl hreset
  · have hne : ∀ d td, i ≠ .vpScale d td := fun d td he => hi ⟨d, td, he⟩
    have same : ∀ u v : State, v.registers = u.registers → u.vpstate = s.vpstate → v.vpstate = s.vpstate :=
      fun _ _ h hu => (congrArg Registers.vpstate h).trans hu
    have h := exec_frame same (fun _ _ _ hu => hu) (fun _ _ _ hu => hu) (fun _ _ _ hu => hu)
      (fun d td he => absurd he (hne d td)) (fun _ _ hu => hu) (fun _ _ hu => hu) rfl hx
    obtain hkept | hreset := h
    · exact .inr (.inl ⟨hne, hkept⟩)
    · exact .inl hreset

end Sys2Proof.Machine
end

section
/-! PROOFS. PHASE at each event (R27): `Phased E b s h p` says that the state `s`, reached inside a command from the
block state `b`, has the history `h` added, each event with the PHASE that produced it, and is at the line `p`. For the
commands whose labels a statement speaks of. -/

namespace Sys2Proof.Machine

/-- As `Did`, with the PHASE of every event, and PHASE is now `p`. -/
structure Phased (E : Stop → State → Prop) (b s : State) (h : List (Option Phase × Event)) (p : Option Phase) : Prop
    extends Did E b s (h.map fun e => e.2) where
  phase : s.phase = p
  hist : s.hist = h ++ b.hist

/-- How a command stops, where only the READY it leaves is asked for: a reset came (a fault leaves FATAL, a refusal no
next state). -/
def CutInReady (s : State) (e : Stop) (t : State) : Prop := e = .cut → t.mode = .ready → CutShort s t

theorem cutInReady_refuse (s : State) (r : Refusal) (t : State) : CutInReady s (.refuse r) t := nofun

theorem cutInReady_fatal (s : State) {t : State} (h : t.mode = .fatal) : CutInReady s .cut t :=
  fun _ hready => absurd (h.symm.trans hready) nofun

variable {b s : State} {h : List (Option Phase × Event)} {p : Option Phase} {E : Stop → State → Prop}

theorem Phased.accept (s : State) (i : Instr) : Phased (CutInReady s) (s.accept i) (s.accept i) [] s.phase :=
  ⟨Did.start _ fun _ hcut _ _ => hcut, rfl, rfl⟩

theorem Phased.line {l : Label} {Q : Unit → State → Prop} (hs : Phased E b s h p)
    (k : ∀ t, Phased E b t h (some ⟨l, none⟩) → Q () t) : wp (line l) Q E s :=
  k _ ⟨hs.toDid.phase _, rfl, hs.hist⟩

theorem Phased.setWork {f : Work → Work} {Q : Unit → State → Prop} (hs : Phased E b s h p)
    (k : ∀ t, Phased E b t h p → Q () t) : wp (setWork f) Q E s :=
  k _ ⟨hs.toDid.work _, hs.phase, hs.hist⟩

theorem Phased.turn {Q : Unit → State → Prop} (hs : Phased E b s h p) (k : ∀ t, Phased E b t h p → Q () t) :
    wp turn Q E s :=
  wp_turn (fun t ht hc => k t ⟨hs.toDid.env ht hc, ht.phase.trans hs.phase, ht.hist.trans hs.hist⟩)
    fun t hn hr => hs.cut t (hs.cutShort hn hr)

theorem Phased.drain (hs : Phased E b s h p) : Phased E b s.drain h p :=
  have hd := drain_envOnly s
  ⟨hs.toDid.env hd ⟨(drain_noResets s).trans, (drain_script s).trans⟩, hd.phase.trans hs.phase, hd.hist.trans hs.hist⟩

theorem Phased.tick (hs : Phased E b s h p) (n : Nat) : Phased E b { s with tick := n } h p :=
  ⟨hs.toDid.tick n, hs.phase, hs.hist⟩

/-- The event goes down with the PHASE that produces it. -/
theorem Phased.emit (hs : Phased E b s h p) (e : Event) :
    Phased E b { s with hist := (s.phase, e) :: s.hist } ((p, e) :: h) p :=
  ⟨hs.toDid.emit e, hs.phase, by rw [hs.phase, hs.hist]; rfl⟩

theorem Phased.write (hs : Phased E b s h p) (e : Event) (w : Write) (hw : e.written = some w) :
    Phased E b { s with wq := s.wq ++ [s.entry w.port w.addr w.value], hist := (s.phase, e) :: s.hist }
      ((p, e) :: h) p :=
  ⟨hs.toDid.write e w hw, hs.phase, by rw [hs.phase, hs.hist]; rfl⟩

theorem Phased.delay {us : Nat} {Q : Unit → State → Prop} (hs : Phased E b s h p)
    (k : ∀ t, Phased E b t ((p, .delay us) :: h) p → Q () t) : wp (delay us) Q E s := by
  simp only [Machine.delay, wp_bind]
  exact hs.turn fun t ht => k _ (ht.emit _)

/-- The response is the last event; its PHASE is the line that gives it. -/
theorem Phased.respond {st : Status} {v : Word} {Q : Unit → State → Prop} (hs : Phased E b s h p)
    (k : ∀ t, t.hist = (p, .respond st v) :: h ++ b.hist → Q () t) : wp (respond st v) Q E s := by
  simp only [Machine.respond, wp_bind]
  exact hs.turn fun t ht => k _ (ht.emit _).hist

/-! ### Accesses, where a refusal and a fault need no account -/

variable {s₀ : State} {part : PartId} {inst idx : Addr}

theorem Phased.memRead {a : Addr} {Q : Word → State → Prop} (hs : Phased (CutInReady s₀) b s h p)
    (k : ∀ v t, Phased (CutInReady s₀) b t ((p, .mmioRead a v) :: h) p → Q v t) :
    wp (memRead a) Q (CutInReady s₀) s := by
  simp only [Machine.memRead, wp_bind]
  cases ha : aligned a with
  | false => exact wp_targetRead_misaligned ha (cutInReady_refuse _ _ _)
  | true =>
    simp only [Machine.targetRead, wp_bind]
    refine Did.requireAligned ha (hs.turn fun t ht => ?_)
    simp only [wp_modify, targetAnswer, wp_bind, wp_get, wp_emit, wp_pure]
    have hd := ht.drain
    split
    · exact k _ _ (hd.emit _)
    · exact k _ _ ((hd.tick _).emit _)

theorem Phased.memWrite {a : Addr} {v : Word} {Q : Unit → State → Prop} (hs : Phased (CutInReady s₀) b s h p)
    (k : ∀ t, Phased (CutInReady s₀) b t ((p, .mmioWrite a v) :: h) p → Q () t) :
    wp (memWrite a v) Q (CutInReady s₀) s := by
  simp only [Machine.memWrite, wp_bind]
  cases ha : aligned a with
  | false => exact wp_targetWrite_misaligned ha (cutInReady_refuse _ _ _)
  | true =>
    simp only [Machine.targetWrite, wp_bind]
    exact Did.requireAligned ha (hs.turn fun t ht => k _ (ht.write (.mmioWrite a v) ⟨.mmio, a, v⟩ rfl))

theorem Phased.instRead {Q : Word → State → Prop} (hs : Phased (CutInReady s₀) b s h p)
    (k : ∀ v t, Phased (CutInReady s₀) b t ((p, .mmioRead (b.effAddr part inst idx) v) :: h) p → Q v t) :
    wp (instRead part inst idx) Q (CutInReady s₀) s := by
  cases hp : s.partitionOk part with
  | false => exact wp_instRead_fatal hp (cutInReady_fatal _ rfl)
  | true =>
    simp only [Machine.instRead, partCheck, resolve, wp_bind, wp_get, hp, if_true, wp_pure, hs.effAddr]
    exact hs.setWork fun t ht => ht.memRead k

theorem Phased.instWrite {v : Word} {Q : Unit → State → Prop} (hs : Phased (CutInReady s₀) b s h p)
    (k : ∀ t, Phased (CutInReady s₀) b t ((p, .mmioWrite (b.effAddr part inst idx) v) :: h) p → Q () t) :
    wp (instWrite v part inst idx) Q (CutInReady s₀) s := by
  cases hp : s.partitionOk part with
  | false => exact wp_instWrite_fatal hp (cutInReady_fatal _ rfl)
  | true =>
    simp only [Machine.instWrite, partCheck, resolve, wp_bind, wp_get, hp, if_true, wp_pure, hs.effAddr]
    exact hs.setWork fun t ht => ht.memWrite k

theorem Phased.instRmw {mask bits : Word} {Q : Word → State → Prop} (hs : Phased (CutInReady s₀) b s h p)
    (k : ∀ old new t, Phased (CutInReady s₀) b t ((p, .mmioWrite (b.effAddr part inst idx) new) ::
      (p, .mmioRead (b.effAddr part inst idx) old) :: h) p → Q new t) :
    wp (instRmw mask bits part inst idx) Q (CutInReady s₀) s := by
  simp only [Machine.instRmw, wp_bind]
  refine hs.instRead fun old t ht => ht.setWork fun t ht => ht.setWork fun t ht => ?_
  exact ht.instWrite fun t ht => k old _ t ht

/-! ### The labels of RMW and COLD_RESET (R126, R152) -/

/-- A command that leaves READY ends as its body does, or was cut short. -/
theorem command_ready {i : Instr} {t : State} {body : Act Unit} {P : State → Prop}
    (hb : wp body (fun _ u => P u) (CutInReady s) (s.accept i)) (hx : command i s body = .next t)
    (hready : t.mode = .ready) : P t ∨ CutShort s t :=
  command_post (Q := fun u => u.mode = .ready → P u ∨ CutShort s u) hx
    (wp_mono hb (fun _ _ hu _ => .inl hu) fun _ _ hu he hm => .inr (hu he hm)) hready

/-- The history of an RMW that answered: its read and its write at line RM1, its response at RM2 (R126). -/
def RmwLabelled (s : State) (part : PartId) (inst idx : Addr) (t : State) : Prop :=
  ∃ old new : Word, t.hist =
    (some ⟨.RM2, none⟩, .respond .ok new) ::
    (some ⟨.RM1, none⟩, .mmioWrite (s.effAddr part inst idx) new) ::
    (some ⟨.RM1, none⟩, .mmioRead (s.effAddr part inst idx) old) :: s.hist

/-- The history of a COLD_RESET that answered, one event for each line (R152). -/
def ColdLabelled (s t : State) : Prop :=
  ∃ v v' : Word, t.hist =
    (some ⟨.CD6, none⟩, .respond .ok 0) ::
    (some ⟨.CD5, none⟩, .delay s.cfg.coldSettleUs) ::
    (some ⟨.CD4, none⟩, .mmioRead s.globalCtrl v') ::
    (some ⟨.CD3, none⟩, .mmioWrite s.globalCtrl (v ||| bitMask s.cfg.grst.coldBit)) ::
    (some ⟨.CD2, none⟩, .mmioRead s.globalCtrl v) ::
    (some ⟨.CD1, none⟩, .mmioWrite s.globalStatus (bitMask s.cfg.grst.coldStBit)) :: s.hist

theorem execRmw_labelled {mask bits : Word} {t : State} (hx : execRmw mask bits part inst idx s = .next t)
    (hready : t.mode = .ready) : RmwLabelled s part inst idx t ∨ CutShort s t := by
  refine command_ready ?_ hx hready
  simp only [wp_bind]
  refine (Phased.accept s _).line fun t ht => ht.instRmw fun old new t ht => ht.line fun t ht => ?_
  exact ht.respond fun t ht => ⟨old, new, ht⟩

theorem execColdReset_labelled {t : State} (hx : execColdReset s = .next t) (hready : t.mode = .ready) :
    ColdLabelled s t ∨ CutShort s t := by
  refine command_ready ?_ hx hready
  simp only [wp_bind]
  refine (Phased.accept s _).line fun t ht => ht.instWrite fun t ht => ?_
  refine ht.line fun t ht => ht.instRead fun v t ht => ht.setWork fun t ht => ?_
  refine ht.line fun t ht => ht.instWrite fun t ht => ?_
  refine ht.line fun t ht => ht.instRead fun v' t ht => ht.setWork fun t ht => ?_
  refine ht.line fun t ht => ht.delay fun t ht => ht.line fun t ht => ?_
  exact ht.respond fun t ht => ⟨v, v', ht⟩

/-- Settles O49: the two commands' bodies, line by line. -/
theorem phaseNamesTheLine : Obligations.PhaseNamesTheLine := by
  intro s _
  exact ⟨fun _ _ _ _ _ _ => execRmw_labelled, fun _ => execColdReset_labelled⟩

end Sys2Proof.Machine
end

section
/-! PROOFS. The block's writes in WQ and at the target (R69, R73, R242): what every command and every step does to them,
said once for any relation between the events and the writes; the canonical form of the memory; alignment. -/

namespace Sys2Proof.Machine

variable {s t : State} {i : Instr}

/-! ### The block's writes through a command and a step -/

/-- The block's writes as they stand in WQ and at the target, newest first, each with its request. -/
def State.entries (s : State) : List WEntry := s.wq.reverse ++ s.target.seen

theorem issued_eq_entries (s : State) : s.issued = s.entries.map WEntry.toWrite := rfl

theorem entries_of_wq_nil (h : s.wq = []) : s.entries = s.target.seen := by simp [State.entries, h]

theorem entries_push (s : State) (e : WEntry) (h : List (Option Phase × Event)) :
    ({ s with wq := s.wq ++ [e], hist := h } : State).entries = e :: s.entries := by
  simp [State.entries]

theorem observeOldest_entries (s : State) : s.observeOldest.entries = s.entries := by
  unfold State.observeOldest
  split
  · rfl
  next e rest hq => simp [State.entries, State.observeEntry, hq]

theorem envMove_entries (s : State) (m : EnvMove) : (s.envMove m).entries = s.entries := by
  cases m with
  | observe => exact observeOldest_entries s
  | poke p a v => rfl
  | txdone id b => rfl

theorem drain_entries (s : State) : s.drain.entries = s.entries :=
  (entries_of_wq_nil (drain_wq s)).trans (drain_seen s)

/-- At a reset queued writes may be lost, but none changes its place (R242). -/
theorem settleQueue_seen_sublist (s : State) (keep : List Bool) :
    (s.settleQueue keep).target.seen.Sublist s.entries := by
  obtain ⟨l, hl, hseen⟩ := settleQueue_seen s keep
  rw [hseen]
  exact hl.reverse.append_right _

/-- A relation between the events and the writes that is kept by an event that issues no write, by a write entering WQ
at its young end, and by a reset, which may drop queued writes. -/
structure IssueLaw (R : List Event → List WEntry → Prop) : Prop where
  event : ∀ {es ws} (e : Event), e.written = none → R es ws → R (e :: es) ws
  write : ∀ {es ws} (e : Event) (x : WEntry), e.written = some x.toWrite → R es ws → R (e :: es) (x :: ws)
  reset : ∀ {es ws ws'} (e : Event), e.isReset = true → ws'.Sublist ws → R es ws → R (e :: es) ws'

namespace IssueLaw
variable {R : List Event → List WEntry → Prop}

theorem envMove (s : State) (m : EnvMove) (h : R s.events s.entries) :
    R (s.envMove m).events (s.envMove m).entries := by
  rwa [(envMove_envOnly s m).events, envMove_entries]

theorem blockReset (law : IssueLaw R) (s : State) (keep : List Bool) (h : R s.events s.entries) :
    R (s.blockReset keep).events (s.blockReset keep).entries := by
  have hseen : (s.blockReset keep).entries.Sublist s.entries := settleQueue_seen_sublist s keep
  rw [blockReset_events]
  exact law.reset .blockReset rfl hseen h

theorem socReset (law : IssueLaw R) (s : State) (keep : List Bool) (h : R s.events s.entries) :
    R (s.socReset keep).events (s.socReset keep).entries := by
  have hseen : (s.socReset keep).entries.Sublist s.entries := settleQueue_seen_sublist s keep
  obtain ⟨e, he, hev⟩ := (socReset_wasReset s keep).events
  rw [hev]
  exact law.reset e he hseen h

theorem movesKeep (law : IssueLaw R) :
    MovesKeep (fun s => R s.events s.entries) (fun s => R s.events s.entries) where
  script _ _ h := h
  tick _ _ h := h
  env := envMove
  block := law.blockReset
  soc s keep h _ := law.socReset s keep h
  envAfter := envMove
  blockAfter := law.blockReset
  socAfter s keep h _ := law.socReset s keep h

theorem kept (law : IssueLaw R) :
    Kept (fun _ => True) (fun s => R s.events s.entries) (fun s => R s.events s.entries) where
  phase _ _ h := h
  work _ _ h := h
  tick _ _ h := h
  host _ _ h := h
  txdone _ _ _ h := h
  emit _ e hw _ _ _ _ h := law.event e hw h
  write s e w hw _ h := by
    rw [entries_push]
    exact law.write e (s.entry w.port w.addr w.value) hw h
  drain s h := by rwa [(drain_envOnly s).events, drain_entries]
  turn := law.movesKeep.turn
  fatal _ _ _ _ h := h
  finish _ st v h := law.event (.respond st v) rfl h

theorem reportError (law : IssueLaw R) (d : DomId) (dom : Dom) (vp : Vp) :
    Keeps (fun s => R s.events s.entries) (fun s => R s.events s.entries) (Machine.reportError d dom vp) :=
  law.kept.reportError (fun _ _ h => h) (fun _ _ h => h) d dom vp

theorem exec (law : IssueLaw R) (hs : R s.events s.entries) (hx : exec i s = .next t) : R t.events t.entries :=
  law.kept.exec (fun _ => trivial) (fun _ _ _ h => h) (fun _ _ _ h => h) (fun _ _ _ h => h) (fun _ _ _ _ _ h => h)
    (fun _ => law.reportError) hs hx

theorem step (law : IssueLaw R) (hs : R s.events s.entries) (hx : step s = .next t) : R t.events t.entries :=
  step_kept law.kept law.movesKeep (fun _ _ _ h _ => h) (fun _ _ h _ => h) (fun _ _ h => h) (fun _ _ _ h => h)
    (fun _ _ h => h) law.reportError hs hx

end IssueLaw

/-! ### Issue order, and no loss without a reset (R69, R73) -/

/-- The writes are among those of the events, in their order. -/
def InIssueOrder (es : List Event) (ws : List WEntry) : Prop := (ws.map WEntry.toWrite).Sublist (writesOf es)

theorem inIssueOrder_law : IssueLaw InIssueOrder where
  event e hw h := by
    rw [InIssueOrder, writesOf_cons, hw]
    exact h
  write e x hw h := by
    rw [InIssueOrder, writesOf_cons, hw]
    exact h.cons_cons _
  reset e _ hsub h := by
    rw [InIssueOrder, writesOf_cons]
    exact ((hsub.map _).trans h).trans (List.sublist_append_right _ _)

/-- The events and the writes since `s`: a reset came, or the writes of the events are those that entered WQ. -/
def IssuedSince (s : State) (es : List Event) (ws : List WEntry) : Prop :=
  ∃ es', es = es' ++ s.events ∧ ((∃ e ∈ es', e.isReset = true) ∨
    ∃ ws', ws = ws' ++ s.entries ∧ ws'.map WEntry.toWrite = writesOf es')

theorem IssuedSince.refl (s : State) : IssuedSince s s.events s.entries := ⟨[], rfl, .inr ⟨[], rfl, rfl⟩⟩

theorem issuedSince_law (s : State) : IssueLaw (IssuedSince s) where
  event e hw := by
    rintro ⟨es', rfl, ⟨r, hr, hreset⟩ | ⟨ws', rfl, hmap⟩⟩
    · exact ⟨e :: es', rfl, .inl ⟨r, List.mem_cons_of_mem e hr, hreset⟩⟩
    · exact ⟨e :: es', rfl, .inr ⟨ws', rfl, by rw [writesOf_cons, hw]; exact hmap⟩⟩
  write e x hw := by
    rintro ⟨es', rfl, ⟨r, hr, hreset⟩ | ⟨ws', rfl, hmap⟩⟩
    · exact ⟨e :: es', rfl, .inl ⟨r, List.mem_cons_of_mem e hr, hreset⟩⟩
    · exact ⟨e :: es', rfl, .inr ⟨x :: ws', rfl, by rw [writesOf_cons, hw, List.map_cons, hmap]; rfl⟩⟩
  reset e he _ := by
    rintro ⟨es', rfl, _⟩
    exact ⟨e :: es', rfl, .inl ⟨e, List.mem_cons_self, he⟩⟩

/-- Where no reset came, the writes of the events since `s` are exactly those that entered WQ, each with its request. -/
theorem IssuedSince.entries (h : IssuedSince s t.events t.entries) (hr : ¬ResetSince s t) :
    ∃ es ws, t.events = es ++ s.events ∧ t.entries = ws ++ s.entries ∧ ws.map WEntry.toWrite = writesOf es := by
  obtain ⟨es, hes, ⟨e, he, hreset⟩ | ⟨ws, hws, hmap⟩⟩ := h
  · exact absurd ⟨es, e, hes, he, hreset⟩ hr
  · exact ⟨es, ws, hes, hws, hmap⟩

theorem IssuedSince.issued (h : IssuedSince s t.events t.entries) (hr : ¬ResetSince s t) :
    ∃ es, t.events = es ++ s.events ∧ t.issued = writesOf es ++ s.issued := by
  obtain ⟨es, ws, hes, hws, hmap⟩ := h.entries hr
  exact ⟨es, hes, by rw [issued_eq_entries, hws, List.map_append, hmap, issued_eq_entries]⟩

theorem exec_issuedSince (hx : exec i s = .next t) : IssuedSince s t.events t.entries :=
  (issuedSince_law s).exec (IssuedSince.refl s) hx

/-- Settles O57: each part is a law of issue, kept by every operation of a command and every move of the others. -/
theorem writesSeenInIssueOrder : Obligations.WritesSeenInIssueOrder := by
  refine ⟨fun s t hs hx => ?_, fun s t hx hr => ?_, fun i s t hx hr => ?_⟩
  · exact inIssueOrder_law.step hs hx
  · exact ((issuedSince_law s).step (IssuedSince.refl s) hx).issued hr
  · exact (exec_issuedSince hx).issued hr

/-! ### The canonical form and alignment (R63, R64) -/

/-- Settles O56: no operation of a command and no move of the others breaks the canonical form. -/
theorem targetStaysCanonical : Obligations.TargetStaysCanonical := by
  intro s t hs hx
  exact step_kept wf_kept wf_movesKeep (fun _ _ _ h _ => h) (fun _ _ h _ => h) (fun _ _ h => h) (fun _ _ _ h => h)
    (fun _ _ h => h) (wf_kept.reportError (fun _ _ h => h) fun _ _ h => h) hs hx

/-- The events since `s` access registers at multiples of 4 only. -/
def AlignedSince (s u : State) : Prop := ∃ es, u.events = es ++ s.events ∧ ∀ e ∈ es, e.wordAligned = true

theorem AlignedSince.event {u v : State} (h : AlignedSince s u) {e : Event} (he : e.wordAligned = true)
    (hv : v.events = e :: u.events) : AlignedSince s v := by
  obtain ⟨es, hu, hall⟩ := h
  exact ⟨e :: es, hv.trans (congrArg (List.cons e) hu), List.forall_mem_cons.mpr ⟨he, hall⟩⟩

theorem AlignedSince.env {u v : State} (h : AlignedSince s u) (k : EnvOnly u v) : AlignedSince s v := by
  rwa [AlignedSince, k.events]

theorem Event.wordAligned_of_isReset {e : Event} (h : e.isReset = true) : e.wordAligned = true := by
  cases e <;> cases h <;> rfl

theorem AlignedSince.reset {u v : State} (k : WasReset u v) (h : AlignedSince s u) : AlignedSince s v := by
  obtain ⟨e, he, hv⟩ := k.events
  exact h.event (Event.wordAligned_of_isReset he) hv

theorem alignedSince_kept (s : State) : Kept (fun _ => True) (AlignedSince s) (AlignedSince s) :=
  .of (fun _ h => h) (fun _ _ k h => h.env k) (fun _ _ k h => h.env k) (fun _ _ => AlignedSince.reset)
    (fun _ _ => AlignedSince.reset) (fun _ _ _ _ h => h) (fun _ _ _ _ ha h => h.event ha rfl) (fun _ _ h => h)
    (fun _ _ _ _ h => h) (fun _ _ _ h => h.event rfl rfl)

/-- Settles O16: an access that is reached is aligned, or refused before its event. -/
theorem accessesAreWordAligned : Obligations.AccessesAreWordAligned := by
  intro i s t hx
  have h := alignedSince_kept s
  exact h.exec (fun _ => trivial) (fun _ _ _ k => k) (fun _ _ _ k => k) (fun _ _ _ k => k) (fun _ _ _ _ _ k => k)
    (fun _ => h.reportError (fun _ _ k => k) fun _ _ k => k) ⟨[], rfl, nofun⟩ hx

end Sys2Proof.Machine
end

section
/-! PROOFS. What the block reads and writes (R48, R65, R70, R74, R78): a register after a queued write, the accesses of
the partitioned layer in turns in which nobody or one other master moves, and reads, which find the queue drained. -/

namespace Sys2Proof.Machine

variable {s t b : State} {E : Stop → State → Prop}

/-! ### A register after a write (R48, R74) -/

@[simp] theorem absorb_w1c (t : Target) (e : WEntry) : (t.absorb e).w1c = t.w1c := by
  unfold Target.absorb
  split
  · split <;> rfl
  · rfl

theorem foldl_absorb_w1c (l : List WEntry) (t : Target) : (l.foldl Target.absorb t).w1c = t.w1c := by
  induction l generalizing t with
  | nil => rfl
  | cons e rest ih => exact (ih _).trans (absorb_w1c t e)

theorem drain_w1c (s : State) : s.drain.target.w1c = s.target.w1c :=
  (foldl_observeEntry_target s.wq { s with wq := [] }).2.trans (foldl_absorb_w1c s.wq s.target)

/-- A register that is write-1-to-clear clears the bits written as 1, where its contents are known; any other takes the
value (R48, R74). -/
theorem absorb_get_same (t : Target) (e : WEntry) : (t.absorb e).get e.port e.addr =
    if t.w1c.contains (regKey e.port e.addr) then (t.get e.port e.addr).map (fun old => old &&& ~~~e.value)
    else some e.value := by
  split
  next h =>
    have hseen : ({ t with seen := e :: t.seen } : Target).get e.port e.addr = t.get e.port e.addr := rfl
    simp only [Target.absorb, h, if_true]
    cases hold : t.get e.port e.addr with
    | none => exact hold
    | some old => exact put_get_same _ _ _ _
  next h => exact absorb_get_plain t e (by simpa using h)

/-- What the block's next read finds in a register that the youngest queued write is to. -/
theorem settled_push (s : State) (e : WEntry) : settled { s with wq := s.wq ++ [e] } (regKey e.port e.addr) =
    if s.target.w1c.contains (regKey e.port e.addr)
    then (settled s (regKey e.port e.addr)).map (fun old => old &&& ~~~e.value) else some e.value := by
  have h := absorb_get_same (s.wq.foldl Target.absorb s.target) e
  rw [foldl_absorb_w1c] at h
  rw [settled, List.foldl_append]
  exact h

/-! ### The partitioned accesses, in terms of the turn they wait for (R121, R122) -/

variable {p : PartId} {inst idx : Addr}

theorem wp_instRead {Q : Word → State → Prop} (hp : s.partitionOk p = true) :
    wp (instRead p inst idx) Q E s ↔ wp (memRead (s.effAddr p inst idx)) Q E
      { s with work := { s.work with ea := some (s.effAddr p inst idx) } } := by
  simp only [instRead, partCheck, resolve, wp_bind, wp_get, hp, if_true, wp_pure, wp_setWork]

theorem wp_instWrite {v : Word} {Q : Unit → State → Prop} (hp : s.partitionOk p = true) :
    wp (instWrite v p inst idx) Q E s ↔ wp (memWrite (s.effAddr p inst idx) v) Q E
      { s with work := { s.work with ea := some (s.effAddr p inst idx) } } := by
  simp only [instWrite, partCheck, resolve, wp_bind, wp_get, hp, if_true, wp_pure, wp_setWork]

theorem wp_memWrite {a : Addr} {v : Word} {Q : Unit → State → Prop} (ha : aligned a = true) :
    wp (memWrite a v) Q E s ↔ wp turn (fun _ t => Q () { t with
      wq := t.wq ++ [t.entry .mmio a v], hist := (t.phase, .mmioWrite a v) :: t.hist }) E s := by
  simp only [memWrite, targetWrite, requireAligned, ha, if_true, wp_bind, wp_pure, wp_modify, wp_emit]

theorem wp_respond_iff {st : Status} {v : Word} {Q : Unit → State → Prop} :
    wp (respond st v) Q E s ↔ wp turn (fun _ t => Q () { t with
      hist := (t.phase, .respond st v) :: t.hist, res := st.code, rval := v, mode := .ready, phase := none }) E s := by
  simp only [respond, wp_bind, wp_emit, wp_modify]

/-! ### WRITE, where no other agent moves -/

/-- A turn in which nobody moves leaves WQ and the target as they were, while the script covers it. -/
theorem wp_turn_undisturbed {Q : Unit → State → Prop} (hu : s.undisturbed)
    (k : ∀ t, t.undisturbed → (t.script ≠ [] → s.script ≠ [] ∧ t.wq = s.wq ∧ t.target = s.target) → Q () t)
    (c : ∀ t, t.script = [] → E .cut t) : wp turn Q E s := by
  cases hs : s.script with
  | nil =>
    have hfree : s.freeMoves.script = [] := (freeMoves_script s).trans hs
    simp only [wp, turn, State.takeTurn, hs]
    obtain hc | ⟨keep, -, -, hc⟩ := freeTurn_cases s
    · simp only [hc, Bool.false_eq_true, if_false]
      exact k _ (fun ms hm => by simp [hfree] at hm) fun hn => absurd hfree hn
    · simp only [hc, if_true]
      exact c _ ((settleQueue_script _ _).trans hfree)
  | cons ms rest =>
    obtain rfl : ms = [] := hu ms (by simp [hs])
    simp only [wp, turn_quiet s rest hs]
    exact k _ (fun ms hm => hu ms (by simp [hs, hm])) fun _ => ⟨by simp [hs], rfl, rfl⟩

/-- Settles O23: the one write stands at the young end of the queue, which nobody has observed any of. -/
theorem storeIsReadBack : Obligations.StoreIsReadBack := by
  intro s t value p inst idx hx hready hu hscript
  simp only [readsAs_eq]
  refine command_post (Q := fun u => u.mode = .ready → u.script ≠ [] → settled u _ = _) hx ?_ hready hscript
  simp only [wp_bind, wp_line]
  cases hp : s.partitionOk p with
  | false => exact wp_instWrite_fatal hp fun _ hm => nomatch hm
  | true =>
  cases ha : aligned (s.effAddr p inst idx) with
  | false => exact wp_instWrite_misaligned hp ha fun _ => nofun
  | true =>
  rw [wp_instWrite, wp_memWrite]
  · refine wp_turn_undisturbed hu (fun u hu hkept => ?_) fun u hc _ _ hn => absurd hc hn
    refine wp_respond_iff.mpr (wp_turn_undisturbed hu (fun v _ hkept' _ hn => ?_) fun v hc _ _ hn => absurd hc hn)
    obtain ⟨hn', hwq', htarget'⟩ := hkept' hn
    obtain ⟨-, hwq, htarget⟩ := hkept hn'
    have h := settled_push s (u.entry .mmio (s.effAddr p inst idx) value)
    simp only [settled, hwq', hwq, htarget', htarget] at h ⊢
    exact h
  · exact ha
  · exact hp

/-! ### RMW, where another master writes between its read and its write (R65, R254) -/

theorem wp_turn_quiet {rest : List (List Move)} {Q : Unit → State → Prop} (h : s.script = [] :: rest) :
    wp turn Q E s ↔ Q () { s with script := rest } := by
  simp only [wp, turn_quiet s rest h]

theorem wp_turn_env {m : EnvMove} {rest : List (List Move)} {Q : Unit → State → Prop}
    (h : s.script = [.env m] :: rest) : wp turn Q E s ↔ Q () (({ s with script := rest } : State).envMove m) := by
  simp only [wp, turn, State.takeTurn, h, runMoves, Bool.false_eq_true, if_false]

/-- A read in a quiet turn finds what is known of the register once the queue is drained (R70). -/
theorem wp_memRead_quiet {a : Addr} {v : Word} {rest : List (List Move)} {Q : Word → State → Prop}
    (ha : aligned a = true) (h : s.script = [] :: rest) (hv : settled s (regKey .mmio a) = some v) :
    wp (memRead a) Q E s ↔ Q v { ({ s with script := rest } : State).drain with
      hist := (({ s with script := rest } : State).drain.phase, .mmioRead a v) ::
        ({ s with script := rest } : State).drain.hist } := by
  have hget : ({ s with script := rest } : State).drain.target.get .mmio a = some v :=
    (readsAs_eq { s with script := rest } .mmio a).trans hv
  simp only [memRead, targetRead, requireAligned, ha, if_true, wp_bind, wp_pure, wp_turn_quiet h, wp_modify,
    targetAnswer, wp_get, hget, wp_emit]

/-- The read of the partitioned layer in a quiet turn. -/
theorem Quiet.instRead_known {v : Word} {rest : List (List Move)} {Q : Word → State → Prop}
    (h : Quiet b ([] :: rest) s) (hp : b.partitionOk p = true) (ha : aligned (b.effAddr p inst idx) = true)
    (hv : settled s (regKey .mmio (b.effAddr p inst idx)) = some v)
    (k : ∀ t, Quiet b rest t → t.wq = [] → t.target.w1c = s.target.w1c → Q v t) :
    wp (Machine.instRead p inst idx) Q E s := by
  rw [wp_instRead (by rwa [h.partitionOk]), h.effAddr, wp_memRead_quiet (rest := rest) ha]
  · refine k _ ⟨?_, ?_, ?_⟩ (drain_wq _) (drain_w1c _)
    · exact drain_script _
    · exact (drain_envOnly _).cfg.trans h.cfg
    · exact (drain_envOnly _).base.trans h.base
  · exact h.script
  · exact hv

/-- The write of the partitioned layer, where the queue is empty and another master writes first. -/
theorem Quiet.instWrite_poked {q : Port} {c : Addr} {x v : Word} {rest : List (List Move)} {Q : Unit → State → Prop}
    (h : Quiet b ([.env (.poke q c x)] :: rest) s) (hp : b.partitionOk p = true)
    (ha : aligned (b.effAddr p inst idx) = true) (hq : s.wq = [])
    (k : ∀ t e, Quiet b rest t → t.wq = [e] → e.toWrite = ⟨.mmio, b.effAddr p inst idx, v⟩ →
      t.target = s.target.put q c x → Q () t) : wp (Machine.instWrite v p inst idx) Q E s := by
  rw [wp_instWrite (by rwa [h.partitionOk]), h.effAddr, wp_memWrite ha,
    wp_turn_env (m := .poke q c x) (rest := rest)]
  · exact k _ _ ⟨rfl, h.cfg, h.base⟩ (congrArg (· ++ _) hq) rfl rfl
  · exact h.script

/-- The register that a plain write is queued to, where it stands alone in the queue. -/
theorem settled_of_wq_singleton {e : WEntry} {q : Port} {a : Addr} {v : Word} (hq : s.wq = [e])
    (he : e.toWrite = ⟨q, a, v⟩) (hw : s.target.w1c.contains (regKey q a) = false) :
    settled s (regKey q a) = some v := by
  obtain ⟨w, r⟩ := e
  obtain rfl : w = ⟨q, a, v⟩ := he
  rw [settled, hq]
  exact absorb_get_plain s.target ⟨⟨q, a, v⟩, r⟩ hw

/-- Settles O22: the read drains the queue, the other master's write is at the target when the block's enters WQ. -/
theorem rmwIsNotAtomic : Obligations.RmwIsNotAtomic := by
  intro s mask bits old x p inst idx rest hm hadm hmap ha hold hw1c hscript
  rw [readsAs_eq] at hold
  simp only [readsAs_eq]
  have hp := (partitionOk_iff s p).mpr hmap
  have hquiet : Quiet s ([] :: [.env (.poke .mmio (s.effAddr p inst idx) x)] :: [] :: rest)
      { s.accept (.rmw mask bits p inst idx) with phase := some ⟨.RM1, none⟩ } := ⟨hscript, rfl, rfl⟩
  refine command_next hm hadm ?_
  simp only [instRmw, wp_bind, wp_line, wp_setWork, wp_pure]
  refine hquiet.instRead_known hp ha hold fun t ht hq hkind => ?_
  refine Quiet.instWrite_poked (b := s) ⟨ht.script, ht.cfg, ht.base⟩ hp ha hq fun u e hu hqu he htarget => ?_
  rw [wp_respond_iff, wp_turn_quiet (rest := rest)]
  · refine settled_of_wq_singleton hqu he ?_
    show u.target.w1c.contains _ = false
    rw [htarget]
    exact hkind ▸ hw1c
  · exact hu.script

end Sys2Proof.Machine
end

section
/-! PROOFS. Reads (R70, R78): a read is answered when every earlier write has been observed; READ and VP_READ_VOLT make
one read and answer it; after a VP_SCALE that saw its transaction done, the read of the voltage register finds the
selector that was ramped to. -/

namespace Sys2Proof.Machine

variable {s t b : State} {E : Stop → State → Prop} {es : List Event}

/-! ### One read (R70) -/

/-- How a command stops that a reset may cut: a refusal needs no account. -/
def CutAt (s : State) (e : Stop) (t : State) : Prop := e = .cut → CutShort s t

theorem cutAt_refuse (s : State) (r : Refusal) (t : State) : CutAt s (.refuse r) t := nofun

theorem Did.cutAt (s : State) (i : Instr) : Did (CutAt s) (s.accept i) (s.accept i) [] :=
  Did.start _ fun _ hcut _ => hcut

/-- A command whose body meets `P` ends so, or is cut short. -/
theorem command_cutAt {i : Instr} {body : Act Unit} {P : State → Prop}
    (hb : wp body (fun _ u => P u) (CutAt s) (s.accept i)) (hx : command i s body = .next t) : P t ∨ CutShort s t :=
  command_post (Q := fun u => P u ∨ CutShort s u) hx
    (wp_mono hb (fun _ _ hu => .inl hu) fun _ _ hu he => .inr (hu he))

/-- A turn observes queued writes in order and loses none, unless a reset comes. -/
theorem turn_entries (s : State) : wp turn (fun _ t => t.entries = s.entries) (fun _ _ => True) s := by
  have moves : MovesKeep (fun u => u.entries = s.entries) fun _ => True :=
    ⟨fun _ _ h => h, fun _ _ h => h, fun u m h => (envMove_entries u m).trans h, fun _ _ _ => trivial,
      fun _ _ _ _ => trivial, fun _ _ _ => trivial, fun _ _ _ => trivial, fun _ _ _ _ => trivial⟩
  exact moves.turn s rfl

/-- A read is answered when every earlier write has been observed, in order, with what the register then holds, where
that is known (R70; log 9). -/
theorem wp_targetRead_observes {p : Port} {a : Addr} (ha : aligned a = true) :
    wp (targetRead p a)
      (fun v t => t.wq = [] ∧ t.target.seen = s.entries ∧ ∀ w, t.target.get p a = some w → v = w)
      (CutOnly s) s := by
  simp only [targetRead, requireAligned, ha, if_true, wp_bind, wp_pure, wp_modify]
  have hturn : wp turn (fun _ _ => True) (CutOnly s) s :=
    wp_turn (fun _ _ _ => trivial) fun _ hn hr => ⟨rfl, hr, fun hs => absurd (hn.symm.trans hs) nofun⟩
  refine wp_mono (wp_and hturn (turn_entries s)) (fun _ u hu => ?_) fun _ _ he => he.1
  have hseen : u.drain.target.seen = s.entries :=
    ((entries_of_wq_nil (drain_wq u)).symm.trans (drain_entries u)).trans hu.2
  simp only [targetAnswer, wp_bind, wp_get]
  cases hget : u.drain.target.get p a with
  | some v => exact ⟨drain_wq u, hseen, fun w hw => Option.some.inj (hget.symm.trans hw)⟩
  | none => exact ⟨drain_wq u, hseen, fun w hw => absurd (hget.symm.trans hw) nofun⟩

theorem wp_cutOnly_cases {α : Type} {m : Act α} {Q : α → State → Prop} (h : wp m Q (CutOnly s) s) :
    (∃ v t, m s = .ok v t ∧ Q v t) ∨ ∃ t, m s = .error .cut t ∧ CutShort s t := by
  unfold wp at h
  cases hm : m s with
  | ok v t => exact .inl ⟨v, t, rfl, by simpa only [hm] using h⟩
  | error e t =>
    rw [hm] at h
    obtain ⟨rfl, hcut⟩ := h
    exact .inr ⟨t, rfl, hcut⟩

/-! ### READ and VP_READ_VOLT (R124, R164) -/

/-- The event of a read on a port. -/
def readEvent : Port → Addr → Word → Event
  | .mmio, a, v => .mmioRead a v
  | .dom d, a, v => .domRead d a v

theorem readEvent_isReset (p : Port) (a : Addr) (v : Word) : (readEvent p a v).isReset = false := by cases p <;> rfl

/-- The command made one read, of the register at `a`, found `v` and answered `f v`. -/
structure OneRead (s t : State) (p : Port) (a : Addr) (f : Word → Word) (v : Word) : Prop where
  res : t.res = Status.ok.code
  rval : t.rval = f v
  events : t.events = .respond .ok (f v) :: readEvent p a v :: s.events
  drained : t.wq = []
  known : s.undisturbed → t.script ≠ [] → ∀ w, s.readsAs p a = some w → v = w

/-- The response to a read that drained the queue. -/
theorem Did.respondOneRead {s u : State} {i : Instr} {p : Port} {a : Addr} {f : Word → Word} {v : Word}
    (h : Did E (s.accept i) u [readEvent p a v]) (hq : u.wq = [])
    (hv : s.undisturbed → s.script ≠ [] → ∀ w, settled s (regKey p a) = some w → v = w) :
    wp (Machine.respond .ok (f v)) (fun _ t => ∃ v, OneRead s t p a f v) E u :=
  h.respondDrained hq fun _ ht _ hq =>
    ⟨v, ht.res, ht.rval, ht.events, hq, fun hu hs w hw => hv hu (mt ht.script hs) w ((readsAs_eq s p a).symm.trans hw)⟩

theorem execRead_oneRead {p : PartId} {inst idx : Addr} (hmap : s.MappedPartition p)
    (hx : execRead p inst idx s = .next t) :
    (∃ v, OneRead s t .mmio (s.effAddr p inst idx) id v) ∨ CutShort s t := by
  have hp := (partitionOk_iff s p).mpr hmap
  refine command_cutAt (P := fun u => ∃ v, OneRead s u _ _ _ v) ?_ hx
  simp only [wp_bind, wp_line]
  cases ha : aligned (s.effAddr p inst idx) with
  | false => exact wp_instRead_misaligned hp ha fun _ => cutAt_refuse _ _ _
  | true =>
    refine ((Did.cutAt s _).phase _).instRead hp ha fun v u hu hread => ?_
    refine hu.setWorkQueue hread.drained fun u hu hq => ?_
    exact (hu.phase _).respondOneRead (f := id) hq hread.known

theorem execVpReadVolt_oneRead {d : DomId} {vp : Vp} {g : PmicFn} (hcaps : s.cfg.readVoltCaps d = some (vp, g))
    (hx : execVpReadVolt d s = .next t) :
    (∃ v, OneRead s t (.dom d) vp.voltage (fun v => g.apply (field v vp.voltVsel)) v) ∨ CutShort s t := by
  refine command_cutAt (P := fun u => ∃ v, OneRead s u _ _ _ v) ?_ hx
  simp only [hcaps, wp_bind, wp_line]
  cases ha : aligned vp.voltage with
  | false => exact wp_domRead_misaligned ha (cutAt_refuse _ _ _)
  | true =>
    refine ((Did.cutAt s _).phase _).domRead ha fun v u hu hread => ?_
    refine hu.setWorkQueue hread.drained fun u hu hq => (hu.phase _).setWorkQueue hq fun u hu hq => ?_
    exact (hu.phase _).respondOneRead (f := fun v => g.apply (field v vp.voltVsel)) hq hread.known

/-- A command that made one read left the block's writes observed, in order. -/
theorem OneRead.seen {i : Instr} {p : Port} {a : Addr} {f : Word → Word} {v : Word} (h : OneRead s t p a f v)
    (hx : exec i s = .next t) : t.target.seen = s.entries := by
  have hcalm : ¬ResetSince s t := not_resetSince (es := [.respond .ok (f v), readEvent p a v]) h.events
    (List.forall_mem_cons.mpr ⟨rfl, List.forall_mem_singleton.mpr (readEvent_isReset p a v)⟩)
  obtain ⟨es, ws, hes, hws, hmap⟩ := (exec_issuedSince hx).entries hcalm
  obtain rfl : [.respond .ok (f v), readEvent p a v] = es := List.append_cancel_right (h.events.symm.trans hes)
  have hnone : ws = [] := List.map_eq_nil_iff.mp (hmap.trans (by cases p <;> rfl))
  rw [← entries_of_wq_nil h.drained, hws, hnone, List.nil_append]

/-- Settles O25: the access law for any read; READ and VP_READ_VOLT make one read and write nothing. -/
theorem readObservesQueuedWrites : Obligations.ReadObservesQueuedWrites := by
  refine ⟨fun s p a ha => ?_, fun s t p inst idx _ hmap hx => ?_, fun s t d vp g _ hcaps hx => ?_⟩
  · exact wp_cutOnly_cases (wp_targetRead_observes ha)
  · refine (execRead_oneRead hmap hx).imp_left fun ⟨v, h⟩ => ⟨h.drained, h.seen hx, fun hu hs w hw => ?_⟩
    exact h.rval.trans (h.known hu hs w hw)
  · refine (execVpReadVolt_oneRead hcaps hx).imp_left fun ⟨v, h⟩ => ⟨h.drained, h.seen hx, fun hu hs w hw => ?_⟩
    rw [h.rval, h.known hu hs w hw]

end Sys2Proof.Machine
end

section
/-! PROOFS. The voltage after a ramp (R78, R163, R164): a VP_SCALE that answers OK forced an update with the selector of
the target voltage, and no later write of it forces one; a VP that shows the selector ramped to answers it to
VP_READ_VOLT. -/

namespace Sys2Proof

/-! ### The fields of the configuration register (R43, R56, R163) -/

theorem Machine.HasDomain.mem {c : Config} {d : DomId} {dom : Dom} (h : Machine.HasDomain c d dom) : dom ∈ c.doms :=
  List.mem_of_getElem? h.1

/-- The initial-voltage field and the force-update bit of an admitted VP do not overlap (R43, R56). -/
theorem admitted_forceupdate {c : Config} {dom : Dom} {vp : Vp} (h : c.admitted = true) (hdom : dom ∈ c.doms)
    (hvp : dom.vp = some vp) : vp.cfgInitvoltage &&& vp.cfgForceupdate = 0 ∧ vp.cfgForceupdate ≠ 0 := by
  simp only [Config.admitted, Bool.and_eq_true, List.all_eq_true] at h
  have hd := h.2 dom hdom
  simp only [Dom.admitted, hvp, Option.all_some, Vp.admitted, disjointMasks, isBit, List.all_cons, List.all_nil,
    Bool.and_eq_true, beq_iff_eq, bne_iff_ne] at hd
  tauto

theorem Word.or_and_cancel_right (x m : Word) : (x ||| m) &&& m = m := by
  ext i hi
  simp only [BitVec.getElem_and, BitVec.getElem_or]
  cases m[i] <;> simp

end Sys2Proof

namespace Sys2Proof.Machine

variable {s t b : State} {E : Stop → State → Prop} {es : List Event} {d : DomId} {dom : Dom} {vp : Vp} {f : PmicFn}
  {td : TD}

/-- What the pulse writes leaves the force-update bit clear. -/
theorem pulseValue_forceupdate {v w : Word} (hw : w &&& ~~~vp.cfgInitvoltage = 0)
    (hdisjoint : vp.cfgInitvoltage &&& vp.cfgForceupdate = 0) : pulseValue vp v w &&& vp.cfgForceupdate = 0 := by
  refine BitVec.eq_of_getElem_eq fun i hi => ?_
  have hw' := congrArg (fun x : Word => x[i]) hw
  have hd' := congrArg (fun x : Word => x[i]) hdisjoint
  simp only [pulseValue, BitVec.getElem_and, BitVec.getElem_or, BitVec.getElem_not] at hw' hd' ⊢
  grind

/-- The write that forces the update has the placed selector in its initial-voltage field. -/
theorem field_pulseValue_forced {v w : Word} (hdisjoint : vp.cfgInitvoltage &&& vp.cfgForceupdate = 0) :
    field (pulseValue vp v w ||| vp.cfgForceupdate) vp.cfgInitvoltage = field w vp.cfgInitvoltage := by
  unfold field
  congr 1
  refine BitVec.eq_of_getElem_eq fun i hi => ?_
  have hd' := congrArg (fun x : Word => x[i]) hdisjoint
  simp only [pulseValue, BitVec.getElem_and, BitVec.getElem_or, BitVec.getElem_not] at hd' ⊢
  grind

/-! ### The selector of the last force update (R78) -/

theorem rampedSelector_skip {xs : List Event} (hw : writesOf xs = []) (done : Bool) (ys : List Event) :
    ∃ done', rampedSelector d vp done (xs ++ ys) = rampedSelector d vp done' ys := by
  induction xs generalizing done with
  | nil => exact ⟨done, rfl⟩
  | cons e xs ih =>
    rw [writesOf_cons, List.append_eq_nil_iff] at hw
    obtain ⟨he, hxs⟩ := hw
    cases e with
    | mmioWrite | domWrite | domRmw => cases he
    | call c => cases c <;> exact ih hxs _
    | mmioRead | domRead | log | delay | respond | blockReset | socReset => exact ih hxs done

theorem rampedSelector_domWrite {v : Word} (done : Bool) (ys : List Event) :
    rampedSelector d vp done (.domWrite d vp.vpconfig v :: ys) =
      if v &&& vp.cfgForceupdate ≠ 0 then if done then some (field v vp.cfgInitvoltage) else none
      else rampedSelector d vp done ys := by
  simp only [rampedSelector, true_and]

theorem rampedSelector_respond {st : Status} {v : Word} (done : Bool) (ys : List Event) :
    rampedSelector d vp done (.respond st v :: ys) = rampedSelector d vp done ys := by
  simp only [rampedSelector]

/-- The youngest write of the events, newest first, is that of `e`. -/
def LastWrite (e : Event) (es : List Event) : Prop := ∃ xs ys, es = xs ++ e :: ys ∧ writesOf xs = []

theorem LastWrite.here (e : Event) (ys : List Event) : LastWrite e (e :: ys) := ⟨[], ys, rfl, rfl⟩

theorem LastWrite.after {e : Event} {zs : List Event} (h : LastWrite e es) (hzs : writesOf zs = []) :
    LastWrite e (zs ++ es) := by
  obtain ⟨xs, ys, rfl, hxs⟩ := h
  exact ⟨zs ++ xs, ys, (List.append_assoc ..).symm, by rw [writesOf_append, hzs, hxs]; rfl⟩

theorem LastWrite.before {e : Event} (h : LastWrite e es) (zs : List Event) : LastWrite e (es ++ zs) := by
  obtain ⟨xs, ys, rfl, hxs⟩ := h
  exact ⟨xs, ys ++ zs, List.append_assoc .., hxs⟩

/-- The events, newest first, of a VP_SCALE that forced an update with the selector `sel` and wrote nothing after it but
the configuration register with the update bit clear, at line S10. -/
def RampTrace (d : DomId) (vp : Vp) (sel : Word) (es : List Event) : Prop :=
  ∃ (v w : Word) (zs : List Event), place sel.toNat vp.cfgInitvoltage = some w ∧
    LastWrite (.domWrite d vp.vpconfig (pulseValue vp v w ||| vp.cfgForceupdate)) zs ∧
    es = .respond .ok 0 :: .domWrite d vp.vpconfig (pulseValue vp v w) :: zs

/-- Where the transaction was seen done, R78's selector is the one that the ramp placed. -/
theorem RampTrace.rampedSelector_eq {sel : Word} (h : RampTrace d vp sel es)
    (hdisjoint : vp.cfgInitvoltage &&& vp.cfgForceupdate = 0) (hbit : vp.cfgForceupdate ≠ 0)
    (hdone : rampedSelector d vp false es ≠ none) : rampedSelector d vp false es = some sel := by
  obtain ⟨v, w, _, hplace, ⟨xs, ys, rfl, hxs⟩, rfl⟩ := h
  obtain ⟨hfield, hfit⟩ := field_of_place hplace
  have hclear : ¬pulseValue vp v w &&& vp.cfgForceupdate ≠ 0 := not_not.mpr (pulseValue_forceupdate hfit hdisjoint)
  have hforced : (pulseValue vp v w ||| vp.cfgForceupdate) &&& vp.cfgForceupdate ≠ 0 := by
    rwa [Word.or_and_cancel_right]
  obtain ⟨done, hskip⟩ := rampedSelector_skip (d := d) (vp := vp) hxs false
    (.domWrite d vp.vpconfig (pulseValue vp v w ||| vp.cfgForceupdate) :: ys)
  rw [rampedSelector_respond, rampedSelector_domWrite, if_neg hclear, hskip, rampedSelector_domWrite,
    if_pos hforced, field_pulseValue_forced hdisjoint, hfield, BitVec.ofNat_toNat, BitVec.setWidth_eq] at hdone ⊢
  cases done with
  | false => exact absurd rfl hdone
  | true => rfl

/-! ### VP_SCALE that answers OK (R170 to R174) -/

/-- A reset that cuts what follows cuts the command, as far as who asked for it goes (R243). -/
theorem Did.cutLater {u : State} (h : Did E b s es) (k : CutShort s u) : E .cut u := by
  obtain ⟨⟨xs, e, hxs, he, hreset⟩, hasked⟩ := k
  have hu : u.events = (xs ++ es) ++ b.events := by rw [hxs, h.events, List.append_assoc]
  refine h.cut u ⟨⟨xs ++ es, e, hu, List.mem_append_left _ he, hreset⟩, fun hb => ?_⟩
  by_cases hq : b.RequestsAmong es
  · exact ⟨xs ++ es, hu, .append xs hq⟩
  · obtain ⟨ys, hys, a, v, hmem, hreq⟩ := hasked (h.calm hb hq)
    obtain rfl : ys = xs := List.append_cancel_right (hys.symm.trans hxs)
    exact ⟨ys ++ es, hu, a, v, List.mem_append_left _ hmem, h.requests a v ▸ hreq⟩

/-- What comes after a reset does not undo it. -/
theorem CutShort.later {u : State} (h : CutShort s t) (hu : Grown t u) : CutShort s u := by
  obtain ⟨⟨xs, e, hxs, he, hreset⟩, hasked⟩ := h
  obtain ⟨ys, hys⟩ := hu
  have hev : u.events = (ys ++ xs) ++ s.events := by rw [hys, hxs, List.append_assoc]
  refine ⟨⟨ys ++ xs, e, hev, List.mem_append_right _ he, hreset⟩, fun hs => ?_⟩
  obtain ⟨zs, hzs, hreq⟩ := hasked hs
  obtain rfl : zs = xs := List.append_cancel_right (hzs.symm.trans hxs)
  exact ⟨ys ++ zs, hev, .append ys hreq⟩

/-- The command ramped to `sel`, and what cuts short a later one cuts it short. -/
structure Ramped (E : Stop → State → Prop) (d : DomId) (vp : Vp) (sel : Word) (t : State) : Prop where
  trace : RampTrace d vp sel t.events
  cut : ∀ u, CutShort t u → E .cut u

/-- An answer that is not OK, where only OK answers are asked about. -/
theorem Did.respondNotOk {R : State → Prop} {st : Status} {v : Word} (h : Did E b s es) (hst : st ≠ .ok) :
    wp (Machine.respond st v) (fun _ t => t.res = Status.ok.code → R t) E s :=
  h.respond fun _ ht _ hok => absurd ((Status.code_eq_ok_iff st).mp (ht.res.symm.trans hok)) hst

theorem Did.scaleTimeout_notOk {R : State → Prop} (h : Did E b s es) :
    wp (Machine.scaleTimeout d dom vp) (fun _ t => t.res = Status.ok.code → R t) E s := by
  simp only [Machine.scaleTimeout, wp_bind, wp_setVpstate]
  exact h.reportError fun t ht => (ht.setVpstate _).respondNotOk nofun

section Scale
variable (refused : ∀ r u, E (.refuse r) u)
include refused

theorem Did.scaleRamp_ramped {tvolt tsel csel : Word} (h : Did E b s es) :
    wp (Machine.scaleRamp d dom vp f td tvolt tsel csel)
      (fun _ t => t.res = Status.ok.code → Ramped E d vp (f.apply tvolt) t) E s := by
  simp only [Machine.scaleRamp, wp_bind, wp_setVpstate, wp_get]
  refine h.line fun t ht => ?_
  replace ht := ht.setVpstate .configWriting
  cases ha : aligned vp.vpconfig with
  | false => exact wp_setInitVoltage_misaligned ha (refused _)
  | true =>
  cases hp : place (f.apply tvolt).toNat vp.cfgInitvoltage with
  | none => exact ht.setInitVoltage_overflow ha hp (refused _)
  | some w =>
  refine ht.setInitVoltage ha hp fun v t ht => ht.line fun t ht => ht.domWrite ha fun t ht => ?_
  refine (ht.setVpstate .transactionPending).line fun t ht => ?_
  rw [ht.cfg]
  refine ht.txWait fun done polls t hpolls ht => ht.reportUnless fun t ht => ht.line fun t ht => ?_
  refine ht.callPostScale fun t ht => ht.line fun t ht => ht.clearTxDone fun cleared clears t hclears ht => ?_
  refine ht.reportUnless fun t ht => ht.line fun t ht => ht.domWrite ha fun t ht => ht.line fun t ht => ?_
  refine (ht.setVpstate .idle).respond fun t ht _ _ => ⟨⟨v, w, _, hp, ?_, ht.events⟩, fun u => ht.cutLater⟩
  refine LastWrite.before (.after ?_ (reportUnlessTrace_noWrites _ cleared d dom vp)) _
  refine .after (.after (zs := [.call (.postScale d tvolt td tsel csel)]) ?_ rfl) hclears.noWrites
  refine .after ?_ (reportUnlessTrace_noWrites _ done d dom vp)
  exact .after (.here _ _) (hpolls.noWrites fun _ => rfl)

theorem Did.scaleIdle_ramped {tvolt : Word} (h : Did E b s es) (hvolt : b.cfg.operationVoltage td = tvolt) :
    wp (Machine.scaleIdle d dom vp f td)
      (fun _ t => t.res = Status.ok.code → Ramped E d vp (f.apply tvolt) t) E s := by
  simp only [Machine.scaleIdle, wp_bind, wp_get]
  refine h.line fun t ht => ?_
  rw [ht.cfg, hvolt]
  refine ht.setWork fun t ht => ht.callPreScale fun r host t _ ht => ?_
  cases r with
  | err e =>
    simp only [wp_bind, wp_setVpstate]
    exact (ht.setVpstate _).respondNotOk nofun
  | ok tsel csel =>
    simp only [wp_bind]
    refine ht.setWork fun t ht => ht.line fun t ht => ht.clearTxDone fun cleared w t _ ht => ?_
    exact (wp_ite _ _ _ _ _ _).mpr ⟨fun _ => ht.scaleRamp_ramped refused, fun _ => ht.scaleTimeout_notOk⟩

end Scale

theorem scaleCaps_eq {c : Config} (hd : HasDomain c d dom) (hv : dom.vp = some vp) :
    c.scaleCaps d = if dom.hasWrite then some (dom, vp) else none := by
  simp [Config.scaleCaps, (dom_iff c d dom).mpr hd, hv]

theorem scaleRelied_eq {pmic : Pmic} (hp : dom.pmic = some pmic) (hf : pmic.uvToVsel = some f) :
    scaleRelied dom = if dom.hasRead then some f else none := by
  simp [scaleRelied, hp, hf]

theorem readVoltCaps_eq {c : Config} {pmic : Pmic} {g : PmicFn} (hd : HasDomain c d dom) (hv : dom.vp = some vp)
    (hp : dom.pmic = some pmic) (hg : pmic.vselToUv = some g) :
    c.readVoltCaps d = if dom.hasRead then some (vp, g) else none := by
  simp [Config.readVoltCaps, (dom_iff c d dom).mpr hd, hv, hp, hg]

/-- A VP_SCALE that answers OK relied on has_read (R180) and ramped to the selector of the target voltage, unless a
reset came first. -/
theorem execVpScale_ramped {pmic : Pmic} (hd : HasDomain s.cfg d dom) (hv : dom.vp = some vp)
    (hp : dom.pmic = some pmic) (hf : pmic.uvToVsel = some f) (hx : execVpScale d (some td) s = .next t)
    (hok : t.res = Status.ok.code) :
    (dom.hasRead = true ∧ Ramped (CutAt s) d vp (f.apply (s.cfg.operationVoltage td)) t) ∨ CutShort s t := by
  have hbudget := (admitted_budgets (exec_ready (i := .vpScale d (some td)) hx).2).2.1
  suffices hbody : (t.res = Status.ok.code → dom.hasRead = true ∧
      Ramped (CutAt s) d vp (f.apply (s.cfg.operationVoltage td)) t) ∨ CutShort s t from hbody.imp_left (· hok)
  refine command_cutAt (P := fun u => u.res = Status.ok.code → dom.hasRead = true ∧ Ramped _ d vp _ u) ?_ hx
  simp only [wp_bind, wp_setVpstate, scaleCaps_eq hd hv]
  refine (Did.cutAt s _).line fun u hu => (hu.setVpstate .idle).line fun u hu => ?_
  cases hwrite : dom.hasWrite with
  | false =>
    simp only [Bool.false_eq_true, if_false, wp_bind, wp_setVpstate]
    exact (hu.setVpstate _).respondNotOk nofun
  | true =>
  simp only [if_true, scaleRelied_eq hp hf]
  cases hread : dom.hasRead with
  | false => exact cutAt_refuse _ _ _
  | true =>
  simp only [if_true, wp_bind, true_and]
  refine hu.line fun u hu => ?_
  cases ha : aligned vp.vstatus with
  | false => exact wp_waitIdle_misaligned (by rwa [hu.cfg]) ha fun _ => cutAt_refuse _ _ _
  | true =>
  refine hu.waitIdle ha fun idle w u _ hu => (wp_ite _ _ _ _ _ _).mpr ⟨fun _ => ?_, fun _ => hu.scaleTimeout_notOk⟩
  exact hu.scaleIdle_ramped (cutAt_refuse s) rfl

theorem exec_cfg {i : Instr} (hx : exec i s = .next t) : t.cfg = s.cfg := by
  have same : ∀ u v : State, v.registers = u.registers → u.cfg = s.cfg → v.cfg = s.cfg :=
    fun _ _ h hu => (congrArg Registers.cfg h).trans hu
  have kept := registers_kept same fun _ _ h hu => h.cfg.trans hu
  exact kept.exec (fun _ => trivial) (fun _ _ _ h => h) (fun _ _ _ h => h) (fun _ _ _ h => h) (fun _ _ _ _ _ h => h)
    (fun _ => kept.reportError (fun _ _ h => h) fun _ _ h => h) rfl hx

theorem exec_grown {i : Instr} (hx : exec i s = .next t) : Grown s t := by
  obtain ⟨es, hes, -⟩ := exec_issuedSince hx
  exact ⟨es, hes⟩

/-- Settles O44: the voltage register's read comes right after the ramp's events, where R78 is asked of it. -/
theorem readVoltAfterScale : Obligations.ReadVoltAfterScale := by
  intro s t u d td dom vp pmic f g hs hd hv hp hf hg hscale hok hdone hread hshows
  obtain ⟨hhasRead, hramped⟩ | hcut := execVpScale_ramped hd hv hp hf hscale hok
  · have hcaps : t.cfg.readVoltCaps d = some (vp, g) := by
      rw [exec_cfg hscale, readVoltCaps_eq hd hv hp hg, if_pos hhasRead]
    obtain ⟨v, hone⟩ | hcut := execVpReadVolt_oneRead hcaps hread
    · obtain ⟨hdisjoint, hbit⟩ := admitted_forceupdate hs.2 hd.mem hv
      rw [hone.events] at hshows
      obtain ⟨-, hfirst, -⟩ := hshows
      have hfield := hfirst v _ rfl (hramped.trace.rampedSelector_eq hdisjoint hbit hdone)
      exact .inl ⟨hone.res, hone.rval.trans (congrArg g.apply hfield)⟩
    · exact .inr (hramped.cut u hcut rfl)
  · exact .inr (hcut.later (exec_grown hread))

end Sys2Proof.Machine
end

section
/-! PROOFS. The descriptor (30_encoding R91 to R98, R105): `decode_eq_ok_iff` says that a command is what its own
descriptor decodes to, and nothing else; the opcode table and the reserved codes follow from it. -/

namespace Sys2Proof

/-! ### Word 0 by its fields, and under a mask (R91, R105) -/

theorem word0_eq_iff {opc sel : BitVec 8} {shift : Shift} {w : Word} : word0 opc sel shift = w ↔
    opcOf w = opc ∧ selOf w = sel ∧ shiftOf w = shift ∧ reservedOf w = 0#11 := by
  constructor
  · rintro rfl
    simp
  · rintro ⟨rfl, rfl, rfl, hres⟩
    exact word0_of_fields w hres

theorem word0_zero_zero (opc : BitVec 8) : word0 opc 0 0 = opc.setWidth 32 := by
  refine BitVec.eq_of_getLsbD_eq fun i hi => ?_
  rw [getLsbD_word0]
  by_cases h : i < 8
  · simp [h, hi]
  · simp [h, BitVec.getLsbD_of_ge opc i (by omega)]

section Mask
variable {w m : Word} {opc : BitVec 8}

/-- A word under a mask, field by field. -/
theorem and_eq_opcode_iff : w &&& m = opc.setWidth 32 ↔ opcOf w &&& opcOf m = opc ∧ selOf w &&& selOf m = 0 ∧
    shiftOf w &&& shiftOf m = 0 ∧ reservedOf w &&& reservedOf m = 0#11 := by
  rw [eq_comm, ← word0_zero_zero, word0_eq_iff]
  simp only [opcOf, selOf, shiftOf, reservedOf, BitVec.extractLsb'_and]

/-- The mask of R105 for the operations without a field in word 0. -/
theorem and_fullMask_iff : w &&& 0xFFFFFFFF#32 = opc.setWidth 32 ↔ word0 opc 0 0 = w := by
  rw [word0_zero_zero, eq_comm, show 0xFFFFFFFF#32 = BitVec.allOnes 32 from rfl, BitVec.and_allOnes]

/-- The mask of R105 for the operations with SEL. -/
theorem and_selMask_iff : w &&& 0xFFFF00FF#32 = opc.setWidth 32 ↔ word0 opc (selOf w) 0 = w := by
  obtain ⟨hopc, hsel, hshift, hres⟩ : opcOf 0xFFFF00FF#32 = BitVec.allOnes 8 ∧ selOf 0xFFFF00FF#32 = 0#8 ∧
    shiftOf 0xFFFF00FF#32 = BitVec.allOnes 5 ∧ reservedOf 0xFFFF00FF#32 = BitVec.allOnes 11 := by decide
  simp [-BitVec.reduceAllOnes, and_eq_opcode_iff, word0_eq_iff, hopc, hsel, hshift, hres]

/-- The mask of R105 for the operations with SEL and SHIFT. -/
theorem and_lineMask_iff : w &&& 0xFFE000FF#32 = opc.setWidth 32 ↔ word0 opc (selOf w) (shiftOf w) = w := by
  obtain ⟨hopc, hsel, hshift, hres⟩ : opcOf 0xFFE000FF#32 = BitVec.allOnes 8 ∧ selOf 0xFFE000FF#32 = 0#8 ∧
    shiftOf 0xFFE000FF#32 = 0#5 ∧ reservedOf 0xFFE000FF#32 = BitVec.allOnes 11 := by decide
  simp [-BitVec.reduceAllOnes, and_eq_opcode_iff, word0_eq_iff, hopc, hsel, hshift, hres]

theorem word0_eq_iff_selMask {sel : BitVec 8} :
    word0 opc sel 0 = w ↔ w &&& 0xFFFF00FF#32 = opc.setWidth 32 ∧ sel = selOf w := by
  rw [and_selMask_iff]
  constructor
  · rintro rfl
    simp
  · rintro ⟨h, rfl⟩
    exact h

theorem word0_eq_iff_lineMask {sel : BitVec 8} {shift : Shift} :
    word0 opc sel shift = w ↔ w &&& 0xFFE000FF#32 = opc.setWidth 32 ∧ shift = shiftOf w ∧ sel = selOf w := by
  rw [and_lineMask_iff]
  constructor
  · rintro rfl
    simp
  · rintro ⟨h, rfl, rfl⟩
    exact h

/-- The mask of the operation code alone (R95). -/
theorem and_opcMask_iff : w &&& 0xFF#32 = opc.setWidth 32 ↔ opcOf w = opc := by
  obtain ⟨hopc, hsel, hshift, hres⟩ : opcOf 0xFF#32 = BitVec.allOnes 8 ∧ selOf 0xFF#32 = 0#8 ∧
    shiftOf 0xFF#32 = 0#5 ∧ reservedOf 0xFF#32 = 0#11 := by decide
  simp [-BitVec.reduceAllOnes, and_eq_opcode_iff, hopc, hsel, hshift, hres]

end Mask

/-! ### Decoding and encoding are inverse -/

theorem need_eq_ok_iff {b : Bool} {r : Reject} {x : Except Reject Instr} {i : Instr} :
    need b r x = .ok i ↔ b = true ∧ x = .ok i := by
  cases b <;> simp [need]

theorem map_eq_ok_iff {α β : Type} {f : α → β} {x : Except Reject α} {b : β} :
    x.map f = .ok b ↔ ∃ a, x = .ok a ∧ f a = b := by
  cases x <;> simp [Except.map]

section
variable {npart : Nat} {opc sel : BitVec 8} {shift : Shift} {a b c d : Word} {i : Instr}

theorem decode_word0_initBases {ws : List Word} :
    decode npart (word0 0x01 0 0 :: ws) = .ok i ↔ ws.length = npart ∧ .initBases (ws.map BitVec.toNat) = i := by
  simp [decode, need_eq_ok_iff]

theorem decode_word0 (h : opc ≠ 0x01#8) :
    decode npart [word0 opc sel shift, a, b, c, d] = decodeF5 opc sel shift a b c d := by
  simp [decode, h]

theorem addressed_words {w : Word} {x y : Word} :
    [w, addrWord a.toNat, addrWord b.toNat, x, y] = [w, a, b, x, y] := by
  rw [addrWord_of_toNat, addrWord_of_toNat]

theorem addressed_wellFormed : (inWord a.toNat && inWord b.toNat) = true := by
  rw [inWord_toNat, inWord_toNat, Bool.and_self]

/-- Format F5: the command that a descriptor decodes to has that descriptor, and an address of one word has it alone. -/
theorem decodeF5_eq_ok (h : decodeF5 opc sel shift a b c d = .ok i) :
    encode i = [word0 opc sel shift, a, b, c, d] ∧ i.wellFormed npart = true := by
  unfold decodeF5 at h
  split at h
  case h_17 => cases h
  all_goals simp only [need_eq_ok_iff, Bool.and_eq_true, beq_iff_eq, Except.ok.injEq, map_eq_ok_iff, decodeTd_ok] at h
  case h_1 =>
    obtain ⟨rfl, ⟨rfl, rfl⟩, rfl⟩ := h
    exact ⟨addressed_words, addressed_wellFormed⟩
  case h_2 =>
    obtain ⟨rfl, rfl, rfl⟩ := h
    exact ⟨addressed_words, addressed_wellFormed⟩
  case h_3 =>
    obtain ⟨rfl, rfl⟩ := h
    exact ⟨addressed_words, addressed_wellFormed⟩
  case h_4 | h_5 | h_6 =>
    obtain ⟨⟨rfl, rfl⟩, rfl⟩ := h
    exact ⟨addressed_words, addressed_wellFormed⟩
  case h_7 | h_8 =>
    obtain ⟨rfl, rfl, ⟨⟨⟨rfl, rfl⟩, rfl⟩, rfl⟩, rfl⟩ := h
    exact ⟨rfl, rfl⟩
  case h_9 | h_10 | h_11 | h_12 | h_15 | h_16 =>
    obtain ⟨rfl, ⟨⟨⟨rfl, rfl⟩, rfl⟩, rfl⟩, rfl⟩ := h
    exact ⟨rfl, rfl⟩
  case h_13 | h_14 =>
    obtain ⟨rfl, td, htd, rfl⟩ := h
    exact ⟨congrArg _ htd, rfl⟩

theorem encodeTd_words (td : Option TD) : ∃ a b c d, encodeTd td = [a, b, c, d] := by
  cases td with
  | none => exact ⟨0, 0, 0, 0, rfl⟩
  | some td => exact ⟨1, td.voltNominal, td.errgain, td.efuse, rfl⟩

theorem decode_encode (h : i.wellFormed npart = true) : decode npart (encode i) = .ok i := by
  cases i with
  | initBases bases =>
    simp only [Instr.wellFormed, Bool.and_eq_true, beq_iff_eq] at h
    exact decode_word0_initBases.mpr ⟨by simp [h.1], congrArg _ (addrWords_toNat h.2)⟩
  | read | write | rmw | rstIsAsserted | rstAssert | rstDeassert =>
    simp only [Instr.wellFormed, Bool.and_eq_true] at h
    simp [encode, decode_word0, decodeF5, need, addrWord_toNat h.1, addrWord_toNat h.2]
  | vpErrgain d td | vpScale d td =>
    obtain ⟨a, b, c, d, htd⟩ := encodeTd_words td
    simp [encode, htd, decode_word0, decodeF5, need, (decodeTd_ok a b c d td).mpr htd, Except.map]
  | warmReset | coldReset | vpReadVolt | vpInit | vpTxdone | vpTxclr | vpEnable | vpDisable =>
    simp [encode, decode_word0, decodeF5, need]

/-- Past the reserved bits and the length, INIT_BASES is read by its own format and every other command by F5. -/
theorem decode_eq_ok {ws : List Word} (h : decode npart ws = .ok i) : encode i = ws ∧ i.wellFormed npart = true := by
  unfold decode at h
  split at h
  · cases h
  next w0 rest =>
    split at h
    · cases h
    next hres =>
      have hres : reservedOf w0 = 0#11 := not_not.mp hres
      split at h
      next hopc =>
        simp only [need_eq_ok_iff, beq_iff_eq, Except.ok.injEq] at h
        obtain ⟨hsel, hshift, hlen, rfl⟩ := h
        refine ⟨?_, by simp [Instr.wellFormed, hlen, inWord_toNat]⟩
        rw [encode, addrWords_of_toNat]
        exact congrArg (· :: rest) (word0_eq_iff.mpr ⟨hopc, hsel, hshift, hres⟩)
      · split at h
        next a b c d =>
          have henc := decodeF5_eq_ok (npart := npart) h
          rwa [word0_of_fields w0 hres] at henc
        · cases h

/-- The decoder accepts exactly the encodings of the well-formed commands. -/
theorem decode_eq_ok_iff {ws : List Word} : decode npart ws = .ok i ↔ i.wellFormed npart = true ∧ encode i = ws := by
  constructor
  · exact fun h => (decode_eq_ok h).symm
  · rintro ⟨hwf, rfl⟩
    exact decode_encode hwf

/-- Settles O2: the encoder's side of `decode_eq_ok_iff`. -/
theorem decodeEncodeRoundTrip : Obligations.DecodeEncodeRoundTrip := fun _ _ => decode_encode

/-- Settles O3: the decoder's side of `decode_eq_ok_iff`. -/
theorem decodedWordsAreTheEncoding : Obligations.DecodedWordsAreTheEncoding := fun _ _ _ => decode_eq_ok

/-- Settles O1: each word list is the encoding of its command. -/
theorem specWordsDecode : Obligations.SpecWordsDecode :=
  ⟨decode_eq_ok_iff.mpr ⟨rfl, rfl⟩, decode_eq_ok_iff.mpr ⟨rfl, rfl⟩, decode_eq_ok_iff.mpr ⟨rfl, rfl⟩,
    decode_eq_ok_iff.mpr ⟨rfl, rfl⟩, decode_eq_ok_iff.mpr ⟨rfl, rfl⟩, decode_eq_ok_iff.mpr ⟨rfl, rfl⟩,
    decode_eq_ok_iff.mpr ⟨rfl, rfl⟩, decode_eq_ok_iff.mpr ⟨rfl, rfl⟩, decode_eq_ok_iff.mpr ⟨rfl, rfl⟩,
    decode_eq_ok_iff.mpr ⟨rfl, rfl⟩⟩

/-! ### The opcode table (R93, R94, R105) -/

theorem inWord_and_addrWord_eq_iff {x : Addr} {w : Word} : inWord x = true ∧ addrWord x = w ↔ x = w.toNat := by
  constructor
  · rintro ⟨hx, rfl⟩
    exact (addrWord_toNat hx).symm
  · rintro rfl
    exact ⟨inWord_toNat w, addrWord_of_toNat w⟩

theorem encodeTd_eq_iff {td : Option TD} : encodeTd td = [a, b, c, d] ↔
    (a = 1 ∧ td = some ⟨b, c, d⟩) ∨ (a = 0 ∧ b = 0 ∧ c = 0 ∧ d = 0 ∧ td = none) := by
  cases td with
  | none => simp [encodeTd, eq_comm (a := 0#32)]
  | some td =>
    obtain ⟨volt, gain, efuse⟩ := td
    simp [encodeTd, eq_comm (a := 1#32)]

/-! What selects a command, by the shape of its row: `opc` is the row's code and `k` its match. -/

section Rows
variable (opc) {w0 k u v : Word} {x y : Addr} (hk : opc.setWidth 32 = k)
include hk

theorem selects_global (hi : encode i = [word0 opc 0 0, 0, 0, 0, 0]) (hwf : i.wellFormed npart = true) :
    decode npart [w0, a, b, c, d] = .ok i ↔ w0 &&& 0xFFFFFFFF#32 = k ∧ a = 0 ∧ b = 0 ∧ c = 0 ∧ d = 0 := by
  rw [decode_eq_ok_iff, hi, ← hk, and_fullMask_iff]
  simp [hwf, eq_comm (a := 0#32)]

theorem selects_domain (hi : encode i = [word0 opc sel 0, 0, 0, 0, 0]) (hwf : i.wellFormed npart = true) :
    decode npart [w0, a, b, c, d] = .ok i ↔
      w0 &&& 0xFFFF00FF#32 = k ∧ sel = selOf w0 ∧ a = 0 ∧ b = 0 ∧ c = 0 ∧ d = 0 := by
  rw [decode_eq_ok_iff, hi, ← hk, ← and_assoc, ← word0_eq_iff_selMask]
  simp [hwf, eq_comm (a := 0#32)]

theorem selects_descriptor {td : Option TD} (hi : encode i = word0 opc sel 0 :: encodeTd td)
    (hwf : i.wellFormed npart = true) : decode npart [w0, a, b, c, d] = .ok i ↔
      w0 &&& 0xFFFF00FF#32 = k ∧ sel = selOf w0 ∧
        ((a = 1 ∧ td = some ⟨b, c, d⟩) ∨ (a = 0 ∧ b = 0 ∧ c = 0 ∧ d = 0 ∧ td = none)) := by
  rw [decode_eq_ok_iff, hi, ← hk, ← and_assoc, ← word0_eq_iff_selMask, ← encodeTd_eq_iff]
  simp [hwf]

theorem selects_access (hi : encode i = [word0 opc sel 0, addrWord x, addrWord y, u, v])
    (hwf : i.wellFormed npart = (inWord x && inWord y)) : decode npart [w0, a, b, c, d] = .ok i ↔
      w0 &&& 0xFFFF00FF#32 = k ∧ sel = selOf w0 ∧ x = a.toNat ∧ y = b.toNat ∧ u = c ∧ v = d := by
  rw [decode_eq_ok_iff, hi, hwf, ← hk, ← and_assoc, ← word0_eq_iff_selMask, ← inWord_and_addrWord_eq_iff,
    ← inWord_and_addrWord_eq_iff]
  simp only [Bool.and_eq_true, List.cons.injEq, and_true]
  tauto

theorem selects_line (hi : encode i = [word0 opc sel shift, addrWord x, addrWord y, 0, 0])
    (hwf : i.wellFormed npart = (inWord x && inWord y)) : decode npart [w0, a, b, c, d] = .ok i ↔
      w0 &&& 0xFFE000FF#32 = k ∧ shift = shiftOf w0 ∧ sel = selOf w0 ∧ x = a.toNat ∧ y = b.toNat ∧ c = 0 ∧ d = 0 := by
  rw [decode_eq_ok_iff, hi, hwf, ← hk, ← inWord_and_addrWord_eq_iff, ← inWord_and_addrWord_eq_iff]
  have := word0_eq_iff_lineMask (w := w0) (opc := opc) (sel := sel) (shift := shift)
  simp only [Bool.and_eq_true, List.cons.injEq, and_true, this, eq_comm (a := (0 : Word))]
  tauto

end Rows

theorem selects_initBases {w0 : Word} {ws : List Word} {bases : List Addr} :
    decode npart (w0 :: ws) = .ok (.initBases bases) ↔
      w0 &&& 0xFFFFFFFF#32 = 0x00000001#32 ∧ bases = ws.map BitVec.toNat ∧ ws.length = npart := by
  rw [show 0x00000001#32 = BitVec.setWidth 32 0x01#8 from rfl, and_fullMask_iff]
  constructor
  · intro h
    obtain ⟨henc, -⟩ := decode_eq_ok h
    rw [encode, List.cons.injEq] at henc
    rw [← henc.1] at h
    obtain ⟨hlen, hbases⟩ := decode_word0_initBases.mp h
    exact ⟨henc.1, (Instr.initBases.inj hbases).symm, hlen⟩
  · rintro ⟨rfl, rfl, hlen⟩
    exact decode_word0_initBases.mpr ⟨hlen, rfl⟩

end

/-- Settles O4, row by row of R105. -/
theorem opcodeTableSelects : Obligations.OpcodeTableSelects := by
  intro npart w0 a b c d
  refine ⟨fun _ _ => selects_initBases, fun _ _ _ => ?_, fun _ _ _ _ => ?_,
    fun _ _ _ _ _ => selects_access 0x04 rfl rfl rfl, fun _ _ _ _ => selects_line 0x08 rfl rfl rfl,
    fun _ _ _ _ => selects_line 0x09 rfl rfl rfl, fun _ _ _ _ => selects_line 0x0A rfl rfl rfl,
    selects_global 0x0C rfl rfl rfl, selects_global 0x0D rfl rfl rfl, fun _ => selects_domain 0x10 rfl rfl rfl,
    fun _ => selects_domain 0x11 rfl rfl rfl, fun _ => selects_domain 0x12 rfl rfl rfl,
    fun _ => selects_domain 0x13 rfl rfl rfl, fun _ _ => selects_descriptor 0x14 rfl rfl rfl,
    fun _ _ => selects_descriptor 0x15 rfl rfl rfl, fun _ => selects_domain 0x16 rfl rfl rfl,
    fun _ => selects_domain 0x17 rfl rfl rfl⟩
  · rw [eq_comm (a := c), eq_comm (a := d)]
    exact selects_access 0x02 rfl rfl rfl
  · rw [eq_comm (a := d)]
    exact selects_access 0x03 rfl rfl rfl

/-! ### The reserved codes (R98) -/

/-- The operation codes of R105 are none of the reserved ones. -/
theorem opcOf_encode_not_reserved (i : Instr) : ∀ w0 ws, encode i = w0 :: ws →
    ¬((opcOf w0).toNat = 0x00 ∨ (0x05 ≤ (opcOf w0).toNat ∧ (opcOf w0).toNat ≤ 0x07) ∨ (opcOf w0).toNat = 0x0B ∨
      (opcOf w0).toNat = 0x0E ∨ (opcOf w0).toNat = 0x0F ∨ 0x18 ≤ (opcOf w0).toNat) := by
  intro w0 ws h
  cases i <;> (rw [encode, List.cons.injEq] at h; rw [← h.1, opcOf_word0]; decide)

theorem opcOf_toNat (w0 : Word) : (opcOf w0).toNat = w0.toNat % 256 := by
  simp [opcOf]

/-- Settles O5: what decodes is an encoding, and no encoding has a reserved code. -/
theorem reservedOpcodesIllegal : Obligations.ReservedOpcodesIllegal := by
  intro npart w0 rest opc hres
  cases h : decode npart (w0 :: rest) with
  | error r => exact ⟨r, rfl⟩
  | ok i =>
    have hopc := opcOf_encode_not_reserved i w0 rest (decode_eq_ok h).1
    rw [opcOf_toNat] at hopc
    exact absurd hres hopc

end Sys2Proof
end

section
/-! PROOFS. The step and CMD (R90, R95, R97): which words a step takes off CMD, the answer to an illegal descriptor,
and how a command ends (R100, R242). -/

namespace Sys2Proof.Machine

variable {s t : State} {i : Instr}

/-! ### Taking a descriptor from CMD (R90, R95) -/

/-- R95, with the operation code read by its mask. -/
theorem descriptorLength_eq (npart : Nat) (w0 : Word) :
    descriptorLength npart w0 = if w0 &&& 0xFF#32 = 0x01#32 then 1 + npart else 5 := by
  simp only [show 0x01#32 = BitVec.setWidth 32 0x01#8 from rfl, and_opcMask_iff, descriptorLength]

theorem takeDescriptor_cons (npart : Nat) (w0 : Word) (ws : List Word) : takeDescriptor npart (w0 :: ws) =
    if descriptorLength npart w0 ≤ (w0 :: ws).length then
      some ((w0 :: ws).take (descriptorLength npart w0), (w0 :: ws).drop (descriptorLength npart w0))
    else none := rfl

theorem encode_length (i : Instr) : Laws.EncodeLength.Statement i := by
  cases i with
  | initBases bases => exact Laws.EncodeLength.initBases bases
  | read p x y => exact Laws.EncodeLength.read p x y
  | write v p x y => exact Laws.EncodeLength.write v p x y
  | rmw m v p x y => exact Laws.EncodeLength.rmw m v p x y
  | rstIsAsserted sh p x y => exact Laws.EncodeLength.rstIsAsserted sh p x y
  | rstAssert sh p x y => exact Laws.EncodeLength.rstAssert sh p x y
  | rstDeassert sh p x y => exact Laws.EncodeLength.rstDeassert sh p x y
  | warmReset => exact Laws.EncodeLength.warmReset
  | coldReset => exact Laws.EncodeLength.coldReset
  | vpReadVolt d => exact Laws.EncodeLength.vpReadVolt d
  | vpInit d => exact Laws.EncodeLength.vpInit d
  | vpTxdone d => exact Laws.EncodeLength.vpTxdone d
  | vpTxclr d => exact Laws.EncodeLength.vpTxclr d
  | vpErrgain d td => exact Laws.EncodeLength.vpErrgain d td
  | vpScale d td => exact Laws.EncodeLength.vpScale d td
  | vpEnable d => exact Laws.EncodeLength.vpEnable d
  | vpDisable d => exact Laws.EncodeLength.vpDisable d

/-- The first word of a command's descriptor gives the length of the whole (R95). -/
theorem takeDescriptor_encode {npart : Nat} (h : i.wellFormed npart = true) (rest : List Word) :
    takeDescriptor npart (encode i ++ rest) = some (encode i, rest) := by
  have hlen := encode_length i npart h
  cases henc : encode i with
  | nil =>
    have hdec := decode_encode h
    rw [henc] at hdec
    cases hdec
  | cons w0 ws =>
    rw [henc, List.headD_cons] at hlen
    rw [List.cons_append, takeDescriptor_cons, ← hlen, if_pos (by simp)]
    simp

/-- Settles O8: the descriptor is taken whole and decodes to its command. -/
theorem stepRunsEncodedCommand : Obligations.StepRunsEncodedCommand := by
  intro s i rest hpin hmode hwf hcmd
  have htake : takeDescriptor s.cfg.npart s.cmd = some (encode i, rest) := hcmd ▸ takeDescriptor_encode hwf rest
  exact stepRunsDecodedCommand s i (encode i) rest hpin hmode htake (decode_encode hwf)

/-- No operation of a command, and no move of another agent, takes a word off CMD (log 37). -/
theorem cmd_kept (c : List Word) : Kept (fun _ => True) (fun u => u.cmd = c) (fun u => u.cmd = c) :=
  .of (fun _ h => h) (fun _ _ h hu => h.cmd.trans hu) (fun _ _ h hu => h.cmd.trans hu)
    (fun _ _ h hu => h.cmd.trans hu) (fun _ _ h hu => h.cmd.trans hu) (fun _ _ _ _ h => h) (fun _ _ _ _ _ h => h)
    (fun _ _ h => h) (fun _ _ _ _ h => h) (fun _ _ _ h => h)

theorem cmd_movesKeep (c : List Word) : MovesKeep (fun u => u.cmd = c) (fun u => u.cmd = c) :=
  .of (fun _ _ h hu => h.cmd.trans hu) (fun _ _ h hu => h.cmd.trans hu) (fun _ _ h hu => h.cmd.trans hu)
    (fun _ _ h hu => h.cmd.trans hu)

theorem exec_cmd (hx : exec i s = .next t) : t.cmd = s.cmd := by
  have kept := cmd_kept s.cmd
  exact kept.exec (fun _ => trivial) (fun _ _ _ h => h) (fun _ _ _ h => h) (fun _ _ _ h => h) (fun _ _ _ _ _ h => h)
    (fun _ => kept.reportError (fun _ _ h => h) fun _ _ h => h) rfl hx

theorem answerIllegal_cmd (hx : answerIllegal s = .next t) : t.cmd = s.cmd := (cmd_kept s.cmd).answerIllegal rfl hx

/-- CMD after a step: in READY a descriptor that is there whole has been taken, else nothing. -/
theorem step_cmd (hpin : s.resetPin = none) (hx : step s = .next t) :
    (s.mode = .ready → t.cmd = ((takeDescriptor s.cfg.npart s.cmd).map Prod.snd).getD s.cmd) ∧
      (s.mode ≠ .ready → t.cmd = s.cmd) := by
  obtain ⟨keep, hkeep, -⟩ | ⟨-, hm, hr, rfl⟩ | ⟨-, hm, htake, rfl⟩ | ⟨ws, rest, i, -, hm, htake, -, he⟩ |
    ⟨ws, rest, r, -, hm, htake, -, he⟩ := step_cases hx
  · exact absurd (hpin.symm.trans hkeep) nofun
  · exact ⟨fun h => absurd (hm.symm.trans h) nofun, fun _ => (cmd_movesKeep s.cmd).awaitReset s.script s rfl hr⟩
  · rw [htake]
    exact ⟨fun _ => (cmd_movesKeep s.cmd).idleTurn rfl, fun h => absurd hm h⟩
  · rw [htake]
    exact ⟨fun _ => exec_cmd he, fun h => absurd hm h⟩
  · rw [htake]
    exact ⟨fun _ => answerIllegal_cmd he, fun h => absurd hm h⟩

/-- Settles O9: what the step takes is what `takeDescriptor` finds, by the length in the first byte. -/
theorem stepTakesWholeDescriptor : Obligations.StepTakesWholeDescriptor := by
  intro s t w0 rest hpin hcmd hx n
  obtain ⟨hready, hother⟩ := step_cmd hpin hx
  refine ⟨fun hm => (hready hm).trans ?_, hother⟩
  rw [hcmd, takeDescriptor_cons, descriptorLength_eq, apply_ite (Option.map Prod.snd),
    apply_ite (Option.getD · (w0 :: rest))]
  rfl

/-! ### The answer to an illegal descriptor (R97) -/

theorem outcomeOf_next {m : Act Unit} {P : State → Prop}
    (h : wp m (fun _ t => P t) (fun e t => e = .cut ∧ P t) s) : ∃ t, outcomeOf (m s) = .next t ∧ P t := by
  unfold wp at h
  split at h
  next t hm => exact ⟨t, by rw [hm]; rfl, h⟩
  next e t hm =>
    obtain ⟨rfl, ht⟩ := h
    exact ⟨t, by rw [hm]; rfl, ht⟩

/-- What an illegal descriptor leaves behind, where no reset comes (R97). -/
structure IllegalAnswered (s t : State) : Prop where
  res : t.res = 6
  rval : t.rval = 0
  events : t.events = .respond .illegalCommand 0 :: s.events
  unchanged : Unchanged s t
  latch : t.latch = s.latch
  work : t.work = s.work

theorem answerIllegal_next (hs : s.takesCommand) :
    ∃ t, answerIllegal s = .next t ∧ (IllegalAnswered s t ∨ CutShort s t) := by
  obtain ⟨hmode, hadmitted⟩ := hs
  simp only [answerIllegal, guarded, hmode, hadmitted, if_true]
  refine outcomeOf_next (wp_respond (fun u hu => .inl ?_) fun u hn hr => ⟨rfl, .inr ⟨hr, fun h => ?_⟩⟩)
  · exact ⟨rfl, rfl, congrArg (List.cons _) hu.events, ⟨hu.base, hu.vpen, hu.msgCnt, hu.recCnt, hmode.symm, hu.vpstate,
      hu.cfg, hu.cmd, hu.resetPin, hu.host⟩, hu.latch, hu.work⟩
  · exact absurd (h.symm.trans hn) nofun

/-- Settles O6: the step's branch for a descriptor that does not decode; the frame of the target is that of every
command. -/
theorem illegalDescriptorAnswered : Obligations.IllegalDescriptorAnswered := by
  intro s ws rest r hs hpin htake hdecode
  have hstep : step s = answerIllegal { s with cmd := rest } := by simp [step, hpin, hs.1, htake, hdecode]
  obtain ⟨t, hx, h⟩ := answerIllegal_next (s := { s with cmd := rest }) hs
  refine ⟨t, hstep.trans hx, h.imp (fun h => ?_) id⟩
  have hframed : s.undisturbed → Framed s t := fun hu =>
    (framed_kept s).answerIllegal (s := { s with cmd := rest }) (Framed.refl hu) hx
  exact ⟨h.res, h.rval, h.events, h.unchanged, h.latch, h.work,
    Framed.onlyStores (es := [.respond .illegalCommand 0]) hframed h.events nofun⟩

/-! ### The end of a command (R100, R212, R242) -/

/-- R212: a command of the partitioned layer with an invalid partition raises the fault at its first access. -/
theorem exec_fatalEntry (hi : usesPartition i = true) (hp : s.partitionOk (s.partitionOf i) = false)
    (hx : exec i s = .next t) : FatalEntry s t := by
  have hfatal : ∀ p w, FatalEntry s { s.accept i with phase := p, work := w, mode := .fatal } :=
    fun _ _ => fatalEntry i rfl
  cases i with
  | read | warmReset =>
    refine command_post hx ?_
    simp only [wp_bind, wp_line]
    exact wp_instRead_fatal hp fun _ => hfatal _ _
  | write | coldReset =>
    refine command_post hx ?_
    simp only [wp_bind, wp_line]
    exact wp_instWrite_fatal hp fun _ => hfatal _ _
  | rmw | rstAssert =>
    refine command_post hx ?_
    simp only [instRmw, wp_bind, wp_line, wp_setWork]
    exact wp_instRead_fatal hp fun _ => hfatal _ _
  | rstIsAsserted | rstDeassert =>
    refine command_post hx ?_
    simp only [isAsserted, wp_bind, wp_line]
    exact wp_instRead_fatal hp fun _ => hfatal _ _
  | initBases | vpReadVolt | vpInit | vpTxdone | vpTxclr | vpErrgain | vpScale | vpEnable | vpDisable => cases hi

/-- A command in progress has given no response and met no reset; the partitions are still those of `s` for a command
that uses them. -/
structure Unanswered (i : Instr) (s u : State) : Prop where
  cfg : u.cfg = s.cfg
  base : usesPartition i = true → u.base = s.base
  events : ∃ es, u.events = es ++ s.events ∧ ∀ e ∈ es, e.isResponse = false ∧ e.isReset = false

/-- One response, the last event since `s`, which stands in RES and RVAL (R100). -/
def Responded (s t : State) : Prop :=
  ∃ st v es, t.events = .respond st v :: es ++ s.events ∧ t.res = st.code ∧ t.rval = v ∧ t.mode = .ready ∧
    ∀ e ∈ es, e.isResponse = false ∧ e.isReset = false

/-- A reset since `s`, and no response (R242). -/
def ResetUnanswered (s t : State) : Prop :=
  ResetSince s t ∧ ∃ es, t.events = es ++ s.events ∧ ∀ e ∈ es, e.isResponse = false

theorem Event.isResponse_of_isReset {e : Event} (h : e.isReset = true) : e.isResponse = false := by
  cases e with
  | blockReset | socReset => rfl
  | _ => cases h

theorem Unanswered.env {u : State} (h : Unanswered i s u) (he : EnvOnly u t) : Unanswered i s t := by
  obtain ⟨es, hes, hno⟩ := h.events
  exact ⟨he.cfg.trans h.cfg, fun hi => he.base.trans (h.base hi), es, he.events.trans hes, hno⟩

theorem Unanswered.event {u : State} (h : Unanswered i s u) {e : Event} (hresp : e.isResponse = false)
    (hreset : e.isReset = false) : Unanswered i s { u with hist := (u.phase, e) :: u.hist } := by
  obtain ⟨es, hes, hno⟩ := h.events
  exact ⟨h.cfg, h.base, e :: es, congrArg (List.cons e) hes, List.forall_mem_cons.mpr ⟨⟨hresp, hreset⟩, hno⟩⟩

theorem Unanswered.partitionOk {u : State} (h : Unanswered i s u) (hi : usesPartition i = true) (p : PartId) :
    u.partitionOk p = s.partitionOk p := by
  simp [State.partitionOk, State.baseOf, h.cfg, h.base hi]

theorem ResetUnanswered.env {u : State} (h : ResetUnanswered s u) (he : EnvOnly u t) : ResetUnanswered s t := by
  obtain ⟨hr, es, hes, hno⟩ := h
  exact ⟨hr.env he, es, he.events.trans hes, hno⟩

/-- A reset adds itself to events among which there is no response. -/
theorem WasReset.resetUnanswered {u : State} (h : WasReset u t)
    (hu : ∃ es, u.events = es ++ s.events ∧ ∀ e ∈ es, e.isResponse = false) : ResetUnanswered s t := by
  obtain ⟨es, hes, hno⟩ := hu
  obtain ⟨e, he, ht⟩ := h.events
  exact ⟨Grown.resetSince ⟨es, hes⟩ h, e :: es, ht.trans (congrArg (List.cons e) hes),
    List.forall_mem_cons.mpr ⟨Event.isResponse_of_isReset he, hno⟩⟩

/-- A command that meets no invalid partition ends with its response or by a reset. -/
theorem unanswered_kept (hok : usesPartition i = true → s.partitionOk (s.partitionOf i) = true) :
    Kept (fun p => usesPartition i = true ∧ p = s.partitionOf i) (Unanswered i s)
      (fun t => Responded s t ∨ ResetUnanswered s t) := by
  refine .of (R := ResetUnanswered s) (fun _ => .inr) (fun _ _ he h => h.env he) (fun _ _ he h => h.env he)
    (fun u t hr h => ?_) (fun _ _ hr h => hr.resetUnanswered h.2) (fun _ _ _ _ h => ⟨h.cfg, h.base, h.events⟩)
    (fun _ _ hresp hreset _ h => h.event hresp hreset) (fun _ _ h => ⟨h.cfg, h.base, h.events⟩)
    (fun u p hp hbad h => ?_) (fun u st v h => .inl ?_)
  · obtain ⟨es, hes, hno⟩ := h.events
    exact hr.resetUnanswered ⟨es, hes, fun e he => (hno e he).1⟩
  · obtain ⟨hi, rfl⟩ := hp
    rw [h.partitionOk hi, hok hi] at hbad
    cases hbad
  · obtain ⟨es, hes, hno⟩ := h.events
    exact ⟨st, v, es, congrArg (List.cons _) hes, rfl, rfl, rfl, hno⟩

theorem exec_responded_or_reset (hok : usesPartition i = true → s.partitionOk (s.partitionOf i) = true)
    (hx : exec i s = .next t) : Responded s t ∨ ResetUnanswered s t := by
  have kept := unanswered_kept hok
  exact kept.exec (fun hi => ⟨hi, rfl⟩) (fun _ hb _ h => ⟨h.cfg, fun hi => absurd (hb ▸ hi) nofun, h.events⟩)
    (fun _ _ _ h => ⟨h.cfg, h.base, h.events⟩) (fun _ _ _ h => ⟨h.cfg, h.base, h.events⟩)
    (fun _ _ _ _ _ h => ⟨h.cfg, h.base, h.events⟩)
    (fun _ => kept.reportError (fun _ _ h => ⟨h.cfg, h.base, h.events⟩) fun _ _ h => ⟨h.cfg, h.base, h.events⟩)
    ⟨rfl, fun _ => rfl, [], rfl, nofun⟩ hx

/-- Settles O48: an invalid partition faults at once; any other command goes on to its response or to a reset. -/
theorem oneResponsePerCommand : Obligations.OneResponsePerCommand := by
  intro i s t hx
  by_cases hfault : usesPartition i = true ∧ s.partitionOk (s.partitionOf i) = false
  · have hfatal := exec_fatalEntry hfault.1 hfault.2 hx
    exact .inr (.inl ⟨hfatal.mode, hfatal.events⟩)
  · have hok : usesPartition i = true → s.partitionOk (s.partitionOf i) = true := fun hi => by
      simpa using fun hbad => hfault ⟨hi, hbad⟩
    obtain hresponded | ⟨hreset, hno⟩ := exec_responded_or_reset hok hx
    · exact .inl hresponded
    · have v := exec_resetValues hx hreset
      exact .inr (.inr ⟨exec_cutShort hx hreset, hno, v.mode, v.base, v.vpen, v.msgCnt, v.recCnt, v.vpstate, v.wq,
        v.phase, v.work⟩)

end Sys2Proof.Machine
end

section
/-! PROOFS. How a command of the partitioned layer opens (R63, R127, R211, R212): `OpensAt m part inst idx` says that
`m` first accesses a register through `part`, so that it faults or is refused there, before any event; and FATAL, which
only a reset ends (R212, R240, R243). -/

namespace Sys2Proof.Machine

variable {α β : Type} {s t : State} {i : Instr} {part : PartId} {inst idx : Addr}

/-! ### The first access of a command (R127, R63) -/

/-- Before `m` accesses a register through `part` at `inst + idx`, it passes lines and sets working registers only: an
invalid partition faults there (R127), and a misaligned address is refused there (R63). -/
structure OpensAt (m : Act α) (part : PartId) (inst idx : Addr) : Prop where
  fatal : ∀ {Q : α → State → Prop} {E : Stop → State → Prop} {u : State}, u.partitionOk part = false →
    (∀ p w, E .cut { u with phase := p, work := w, mode := .fatal }) → wp m Q E u
  misaligned : ∀ {Q : α → State → Prop} {E : Stop → State → Prop} {u : State}, u.partitionOk part = true →
    aligned (u.effAddr part inst idx) = false → (∀ v, E (.refuse .misaligned) v) → wp m Q E u

theorem instRead_opensAt (part : PartId) (inst idx : Addr) : OpensAt (instRead part inst idx) part inst idx :=
  ⟨fun hp k => wp_instRead_fatal hp (k _ _), wp_instRead_misaligned⟩

theorem instWrite_opensAt (v : Word) (part : PartId) (inst idx : Addr) :
    OpensAt (instWrite v part inst idx) part inst idx :=
  ⟨fun hp k => wp_instWrite_fatal hp (k _ _), wp_instWrite_misaligned⟩

theorem OpensAt.bind {m : Act α} (h : OpensAt m part inst idx) (f : α → Act β) : OpensAt (m >>= f) part inst idx :=
  ⟨fun hp k => (wp_bind m f _ _ _).mpr (h.fatal hp k), fun hp ha k => (wp_bind m f _ _ _).mpr (h.misaligned hp ha k)⟩

theorem OpensAt.afterLine {f : Unit → Act α} (h : OpensAt (f ()) part inst idx) (l : Label) :
    OpensAt (line l >>= f) part inst idx :=
  ⟨fun hp k => (wp_bind (line l) f _ _ _).mpr (h.fatal hp fun p w => k p w),
    fun hp ha k => (wp_bind (line l) f _ _ _).mpr (h.misaligned hp ha k)⟩

theorem OpensAt.afterSetWork {f : Unit → Act α} (h : OpensAt (f ()) part inst idx) (g : Work → Work) :
    OpensAt (setWork g >>= f) part inst idx :=
  ⟨fun hp k => (wp_bind (setWork g) f _ _ _).mpr (h.fatal hp fun p w => k p w),
    fun hp ha k => (wp_bind (setWork g) f _ _ _).mpr (h.misaligned hp ha k)⟩

theorem instRmw_opensAt (mask bits : Word) (part : PartId) (inst idx : Addr) :
    OpensAt (instRmw mask bits part inst idx) part inst idx := (instRead_opensAt part inst idx).bind _

theorem isAsserted_opensAt (shift : Shift) (part : PartId) (inst off : Addr) :
    OpensAt (isAsserted shift part inst off) part inst off := (instRead_opensAt part inst off).bind _

/-- The fault of a command whose body opens with an access through an invalid partition. -/
theorem OpensAt.wp_fatalEntry {body : Act Unit} {Q : Unit → State → Prop} (h : OpensAt body part inst idx)
    (hp : s.partitionOk part = false) : wp body Q (fun e t => e = .cut ∧ FatalEntry s t) (s.accept i) :=
  h.fatal hp fun _ _ => ⟨rfl, fatalEntry i rfl⟩

theorem OpensAt.command_fatalEntry {body : Act Unit} (h : OpensAt body part inst idx) (hs : s.takesCommand)
    (hp : s.partitionOk part = false) : ∃ t, command i s body = .next t ∧ FatalEntry s t :=
  command_next hs.1 hs.2 (h.wp_fatalEntry hp)

/-- Every command of the partitioned layer opens with an access through its partition (R211, R212). -/
theorem exec_invalidPartition (hi : usesPartition i = true) (hs : s.takesCommand)
    (hp : s.partitionOk (s.partitionOf i) = false) : ∃ t, exec i s = .next t ∧ FatalEntry s t := by
  cases i with
  | read p x y => exact (((instRead_opensAt p x y).bind _).afterLine _).command_fatalEntry hs hp
  | write v p x y => exact (((instWrite_opensAt v p x y).bind _).afterLine _).command_fatalEntry hs hp
  | rmw m b p x y => exact (((instRmw_opensAt m b p x y).bind _).afterLine _).command_fatalEntry hs hp
  | rstIsAsserted sh p x y => exact (((isAsserted_opensAt sh p x y).bind _).afterLine _).command_fatalEntry hs hp
  | rstAssert sh p x y =>
    exact (((((instRmw_opensAt _ _ p x y).bind _).afterLine _).afterSetWork _).afterLine _).command_fatalEntry hs hp
  | rstDeassert sh p x y => exact (((isAsserted_opensAt sh p x y).bind _).afterLine _).command_fatalEntry hs hp
  | warmReset => exact (((instRead_opensAt _ _ _).bind _).afterLine _).command_fatalEntry hs hp
  | coldReset => exact (((instWrite_opensAt _ _ _ _).bind _).afterLine _).command_fatalEntry hs hp
  | initBases | vpReadVolt | vpInit | vpTxdone | vpTxclr | vpErrgain | vpScale | vpEnable | vpDisable => cases hi

theorem not_mappedPartition_iff : ¬s.MappedPartition part ↔
    s.cfg.npart ≤ part.toNat ∨ part ∈ s.cfg.partInvalid ∨ s.base.getD part.toNat 0 = 0 := by
  rw [State.MappedPartition, State.baseOf, not_and_or, not_and_or, not_lt, not_not, not_not]

theorem partitionOk_eq_false_iff : s.partitionOk part = false ↔ ¬s.MappedPartition part := by
  rw [← partitionOk_iff, Bool.not_eq_true]

/-! ### FATAL (R212, R240, R243) -/

theorem exec_fatalMode (hm : s.mode = .fatal) : exec i s = .fault .fatalMode := by
  have h : ∀ body, command i s body = .fault .fatalMode := fun body => by simp only [command, guarded, hm]
  cases i <;> exact h _

theorem step_fatal (hm : s.mode = .fatal) (hpin : s.resetPin = none) :
    step s = if (awaitReset s.script s).2 then .next (awaitReset s.script s).1 else .fault .fatalMode := by
  simp only [step, hpin, hm]

/-- With no reset ahead the block stays in FATAL through all its turns. -/
theorem awaitReset_calm {script : List (List Move)} (hs : s.script = script) (hn : s.noResets = true) :
    (awaitReset script s).2 = false := by
  induction script generalizing s with
  | nil => simpa only [State.takeTurn, hs, awaitReset] using (takeTurn_calm hn).1
  | cons ms rest ih =>
    obtain ⟨hcut, -, hn'⟩ := takeTurn_calm hn
    have hms : ms.all Move.isEnv = true := by
      simp only [State.noResets, hs, List.all_cons, Bool.and_eq_true] at hn
      exact hn.1.1
    simp only [State.takeTurn, hs] at hcut hn'
    simp only [awaitReset, hcut, Bool.false_eq_true, if_false]
    exact ih (runMoves_env ms _ hms).2.2 hn'

/-- The reset that ends FATAL leaves READY (R240). -/
theorem awaitReset_ready (h : (awaitReset s.script s).2 = true) :
    (awaitReset s.script s).1.mode = .ready ∧ ResetSince s (awaitReset s.script s).1 := by
  have moves : MovesKeep (EnvOnly s) fun t => t.mode = .ready ∧ ResetSince s t :=
    .of (fun _ _ h hu => hu.trans h) (fun _ _ h hu => ⟨h.mode.trans hu.1, hu.2.env h⟩)
      (fun _ _ h hu => ⟨h.mode, Grown.resetSince ⟨[], hu.events⟩ h⟩)
      fun _ _ h hu => ⟨h.mode, hu.2.grown.resetSince h⟩
  exact moves.awaitReset s.script s (EnvOnly.refl s) h

theorem socReset_events (s : State) (keep : List Bool) : (s.socReset keep).events = .socReset :: s.events :=
  congrArg (List.cons _) (settleQueue_envOnly s keep).1.events

/-- The SoC's reset, whichever turns are ahead (R243). -/
theorem socReset_end (s : State) (script : List (List Move)) (keep : List Bool) :
    SocResetEnd s (({ s with script := script } : State).socReset keep) [] := by
  have h := socReset_wasReset { s with script := script } keep
  exact ⟨socReset_events { s with script := script } keep, h.wq, rfl, rfl, rfl, h.base, h.vpen, h.msgCnt, h.recCnt,
    h.mode, h.vpstate, h.phase, h.work, h.cfg, h.cmd⟩

/-- Settles O14: the fault comes at the command's first access; FATAL ends with the turns only if one has a reset. -/
theorem invalidPartitionIsFatal : Obligations.InvalidPartitionIsFatal := by
  refine ⟨fun i s hi hm hadm hinvalid => ?_, fun i s => exec_fatalMode, fun s hm hpin hn => ?_, fun s hm hpin => ?_,
    fun s keep _ hpin => ?_, fun s keep rest hm hpin hscript harmed => ?_⟩
  · exact exec_invalidPartition hi ⟨hm, hadm⟩ (partitionOk_eq_false_iff.mpr (not_mappedPartition_iff.mpr hinvalid))
  · simp only [step_fatal hm hpin, awaitReset_calm rfl hn, Bool.false_eq_true, if_false]
  · rw [step_fatal hm hpin]
    cases hreset : (awaitReset s.script s).2 with
    | false => exact .inl rfl
    | true => exact .inr ⟨_, rfl, awaitReset_ready hreset⟩
  · obtain ⟨t, hx, -, -, -, -, hready, -⟩ := blockResetState s keep hpin
    exact ⟨t, hx, hready⟩
  · refine ⟨_, ?_, socReset_end s rest keep⟩
    simp only [step_fatal hm hpin, hscript, awaitReset, runMoves, harmed, if_true]

end Sys2Proof.Machine
end

section
/-! PROOFS. The register access layer (R120 to R129): INIT_BASES, READ, WRITE and RMW, each by its body, line by line;
what a posted write leaves in WQ and at the target where nobody moves; and WRITE then READ of one register. -/

namespace Sys2Proof.Machine

variable {s t b : State} {i : Instr} {E : Stop → State → Prop} {es : List Event} {part : PartId} {inst idx : Addr}

/-! ### How a command of the partitioned layer ends -/

theorem exec_framed (hx : exec i s = .next t) (hu : s.undisturbed) : Framed s t := by
  have kept := framed_kept s
  exact kept.exec (fun _ => trivial) (fun _ _ _ h => h) (fun _ _ _ h => h) (fun _ _ _ h => h) (fun _ _ _ _ _ h => h)
    (fun _ => kept.reportError (fun _ _ h => h) fun _ _ h => h) (framed_accept hu i) hx

/-- A command whose body opens with a partitioned access faults or is refused there, and otherwise ends as its body
does. -/
theorem OpensAt.throughPartition {body : Act Unit} {good : State → Prop} (h : OpensAt body part inst idx)
    (hb : exec i s = command i s body)
    (hgood : s.takesCommand → s.partitionOk part = true → aligned (s.effAddr part inst idx) = true →
      Did (CutOnly s) (s.accept i) (s.accept i) [] →
      wp body (fun _ t => (s.undisturbed → Framed s t) → good t) (CutOnly s) (s.accept i)) :
    ThroughPartition i s part (s.effAddr part inst idx) good :=
  Machine.throughPartition hb (fun _ hx hu => exec_framed (hb.trans hx) hu) (fun hp => h.wp_fatalEntry hp)
    (fun hp ha => h.misaligned hp ha fun _ => rfl) hgood

/-- What a command that was answered is known to have done more, where no reset came. -/
theorem ThroughPartition.imp {ea : Addr} {good good' : State → Prop} (h : ThroughPartition i s part ea good)
    (k : s.MappedPartition part → ∀ t, exec i s = .next t → good t → good' t ∨ CutShort s t) :
    ThroughPartition i s part ea good' := by
  intro hs
  obtain ⟨hfatal, hrefused, hgood⟩ := h hs
  refine ⟨hfatal, hrefused, fun hmap ha => ?_⟩
  obtain ⟨t, hx, ht | hcut⟩ := hgood hmap ha
  · exact ⟨t, hx, k hmap t hx ht⟩
  · exact ⟨t, hx, .inr hcut⟩

theorem stores_of_writesOf_eq {a : Addr} {v : Word} (h : writesOf es = [⟨.mmio, a, v⟩]) :
    ∀ w ∈ writesOf es, (w.port, w.addr) ∈ [(Port.mmio, a)] := by
  simp [h]

/-! ### INIT_BASES (R120) -/

theorem withBases_eq_map {bases : List Addr} (h : bases.length = s.cfg.npart) :
    (s.withBases bases).base = bases.map (fun b => b % 2 ^ s.cfg.aw) := by
  refine List.ext_getElem (by simp [h]) fun n hn _ => ?_
  have hlt : n < bases.length := by simpa [h] using hn
  simp [Config.wrap, List.getD_eq_getElem?_getD, hlt]

/-- The response leaves what `Answered` says, where the latch holds the command. -/
theorem answered_of_latch {u : State} (st : Status) (v : Word) (hl : u.latch = latchOf i)
    (he : u.events = es ++ s.events) : Answered i s { u with
      hist := (u.phase, .respond st v) :: u.hist
      res := st.code
      rval := v
      mode := .ready
      phase := none } st v es :=
  ⟨rfl, rfl, hl ▸ latchOf_holds i, rfl, congrArg (List.cons _) he⟩

/-- Settles O18: the body binds the bases and responds; nothing else of it touches the state. -/
theorem initBasesBindsEveryPartition : Obligations.InitBasesBindsEveryPartition := by
  intro s bases hs hlen
  refine command_completes hs (fun _ hx => exec_framed (i := .initBases bases) hx) fun _ => ?_
  simp only [wp_bind, wp_line, wp_modify]
  refine wp_respond (fun u hu hframed => ?_) fun u hn hreset => ⟨rfl, hreset, fun hcalm => ?_⟩
  · have hans := answered_of_latch (i := .initBases bases) (s := s) (es := []) .ok 0 hu.latch hu.events
    exact ⟨hans, ⟨hu.base.trans (withBases_eq_map hlen), hu.vpen, hu.msgCnt, hu.recCnt, hs.1.symm, hu.vpstate, hu.cfg,
      hu.cmd, hu.resetPin, hu.host⟩, hans.onlyStores hframed nofun⟩
  · exact absurd (hcalm.symm.trans hn) nofun

/-! ### READ (R124) -/

/-- READ, but for the queue and the known contents, which `execRead_oneRead` gives. -/
theorem read_throughPartition (s : State) (part : PartId) (inst idx : Addr) :
    ThroughPartition (.read part inst idx) s part (s.effAddr part inst idx) fun t =>
      ∃ v : Word, Answered (.read part inst idx) s t .ok v [.mmioRead (s.effAddr part inst idx) v] ∧ Unchanged s t ∧
        t.work = { ea := some (s.effAddr part inst idx), v := some v } ∧ OnlyStores s t [] := by
  refine (((instRead_opensAt part inst idx).bind _).afterLine _).throughPartition rfl fun hs hp ha hstart => ?_
  simp only [wp_bind]
  refine Worked.line ⟨hstart, rfl⟩ fun u hu => hu.instRead hp ha fun v u hu => hu.setWork fun u hu => ?_
  refine hu.line fun u hu => hu.respond fun t ht hphase hframed => ⟨v, ?_⟩
  have hans := ht.toDid.answered (i := .read part inst idx) (s := s) hphase rfl rfl
  exact ⟨hans, ht.toDid.unchanged (accept_unchanged hs), ht.work, hans.onlyStores hframed nofun⟩

/-- Settles O19: one read, the queue drained by it; the working registers and the frame by the body's lines. -/
theorem readAnswersTheRegister : Obligations.ReadAnswersTheRegister := by
  refine fun s part inst idx => ⟨rfl, (read_throughPartition s part inst idx).imp fun hmap t hx hgood => ?_⟩
  obtain ⟨v, hans, hunchanged, hwork, hstores⟩ := hgood
  refine (execRead_oneRead hmap hx).imp_left fun ⟨w, h⟩ => ?_
  obtain rfl : w = v := h.rval.symm.trans hans.rval
  exact ⟨w, hans, hunchanged, h.drained, hwork, hstores, h.known⟩

/-! ### WRITE (R125), and a posted write where nobody moves (R68) -/

/-- From `s` to `t` the block queued the writes `l`; where no agent moves and the script covers it, none of WQ has been
observed and the target is as it was. -/
def Posted (s : State) (l : List WEntry) (t : State) : Prop :=
  s.undisturbed → t.undisturbed ∧ (t.script ≠ [] → s.script ≠ [] ∧ t.wq = s.wq ++ l ∧ t.target = s.target)

theorem Posted.trans {u : State} {l m : List WEntry} (h : Posted s l t) (k : Posted t m u) : Posted s (l ++ m) u := by
  intro hs
  obtain ⟨ht, hst⟩ := h hs
  obtain ⟨hu, htu⟩ := k ht
  refine ⟨hu, fun hn => ?_⟩
  obtain ⟨htn, hwq, htarget⟩ := htu hn
  obtain ⟨hsn, hwq', htarget'⟩ := hst htn
  exact ⟨hsn, by rw [hwq, hwq', List.append_assoc], htarget.trans htarget'⟩

theorem turn_posted (s : State) : wp turn (fun _ t => Posted s [] t) (fun _ _ => True) s := by
  by_cases hu : s.undisturbed
  · refine wp_turn_undisturbed hu (fun t ht hkept _ => ⟨ht, fun hn => ?_⟩) fun _ _ => trivial
    rw [List.append_nil]
    exact hkept hn
  · exact wp_turn (fun _ _ _ h => absurd h hu) fun _ _ _ => trivial

theorem Did.turnPosted {Q : Unit → State → Prop} (h : Did E b s es)
    (k : ∀ t, Did E b t es → Posted s [] t → Q () t) : wp Machine.turn Q E s :=
  wp_mono (wp_and (h.turn fun _ ht => ht) (turn_posted s)) (fun _ t ht => k t ht.1 ht.2) fun _ _ he => he.1

theorem Did.entry (h : Did E b s es) (p : Port) (a : Addr) (v : Word) : s.entry p a v = b.entry p a v := by
  simp only [State.entry, h.requests]

theorem Did.instWritePosted {v : Word} {Q : Unit → State → Prop} (h : Did E b s es) (hp : b.partitionOk part = true)
    (ha : aligned (b.effAddr part inst idx) = true)
    (k : ∀ t, Did E b t (.mmioWrite (b.effAddr part inst idx) v :: es) →
      Posted s [b.entry .mmio (b.effAddr part inst idx) v] t → Q () t) :
    wp (Machine.instWrite v part inst idx) Q E s := by
  rw [wp_instWrite (by rwa [h.partitionOk]), h.effAddr, wp_memWrite ha]
  refine (h.work _).turnPosted fun u hu hposted => k _ (hu.write (.mmioWrite _ v) ⟨.mmio, _, v⟩ rfl) ?_
  refine hposted.trans (l := []) fun hquiet => ⟨hquiet, fun hn => ⟨hn, ?_, rfl⟩⟩
  rw [← hu.entry]

theorem Did.respondPosted {st : Status} {v : Word} {Q : Unit → State → Prop} (h : Did E b s es)
    (k : ∀ t, Did E { b with res := st.code, rval := v, mode := .ready } t (.respond st v :: es) → t.phase = none →
      Posted s [] t → Q () t) : wp (Machine.respond st v) Q E s := by
  rw [wp_respond_iff]
  exact h.turnPosted fun t ht hposted => k _ (ht.responded st v) rfl hposted

/-- Settles O20: the body makes the one write, and neither it nor the response takes an entry off WQ. -/
theorem writeIsPosted : Obligations.WriteIsPosted := by
  intro s value part inst idx
  refine (((instWrite_opensAt value part inst idx).bind _).afterLine _).throughPartition rfl fun hs hp ha hstart => ?_
  simp only [wp_bind, wp_line]
  refine (hstart.phase _).instWritePosted hp ha fun u hu hwrite => ?_
  refine (hu.phase _).respondPosted fun t ht hphase hrespond hframed => ?_
  have hans := ht.answered (i := .write value part inst idx) (s := s) hphase rfl rfl
  refine ⟨hans, ht.unchanged (accept_unchanged hs), hans.onlyStores hframed (stores_of_writesOf_eq rfl),
    fun hquiet hn => ?_⟩
  exact ((hwrite.trans hrespond hquiet).2 hn).2

/-! ### RMW (R126) -/

/-- The read-modify-write, with what its read finds where the contents are known (R123; log 9). -/
theorem Did.instRmwKnown {mask bits : Word} {Q : Word → State → Prop} (h : Did E b s es)
    (hp : b.partitionOk part = true) (ha : aligned (b.effAddr part inst idx) = true)
    (k : ∀ old t, Did E b t (.mmioWrite (b.effAddr part inst idx) (merge old mask bits) ::
      .mmioRead (b.effAddr part inst idx) old :: es) →
      (s.undisturbed → s.script ≠ [] → ∀ w, settled s (regKey .mmio (b.effAddr part inst idx)) = some w → old = w) →
      Q (merge old mask bits) t) : wp (Machine.instRmw mask bits part inst idx) Q E s := by
  simp only [Machine.instRmw, wp_bind]
  refine h.instRead hp ha fun old t ht hread => ht.setWork fun t ht => ht.setWork fun t ht => ?_
  exact ht.instWrite hp ha fun t ht => k old t ht hread.known

/-- Settles O21: the body's read and write, and the response with the merged word. -/
theorem rmwMergesTheRegister : Obligations.RmwMergesTheRegister := by
  intro s mask bits part inst idx
  refine (((instRmw_opensAt mask bits part inst idx).bind _).afterLine _).throughPartition rfl fun hs hp ha hstart => ?_
  simp only [wp_bind, wp_line]
  refine (hstart.phase _).instRmwKnown hp ha fun old u hu hknown => ?_
  refine (hu.phase _).respond fun t ht hphase hframed => ⟨old, ?_⟩
  have hans := ht.answered (i := .rmw mask bits part inst idx) (s := s) hphase rfl rfl
  refine ⟨hans, ht.unchanged (accept_unchanged hs), hans.onlyStores hframed (stores_of_writesOf_eq rfl),
    fun hquiet hn w hw => ?_⟩
  exact hknown hquiet (mt ht.script hn) w ((readsAs_eq s .mmio _).symm.trans hw)

/-! ### WRITE then READ (R129) -/

/-- A WRITE that was not cut short is its write and its response, and a reset that cuts a later command short was asked
for since the WRITE began. -/
theorem execWrite_did {value : Word} (hmap : s.MappedPartition part) (hx : execWrite value part inst idx s = .next t) :
    Did (CutAt s) { s.accept (.write value part inst idx) with res := Status.ok.code, rval := 0, mode := .ready } t
      [.respond .ok 0, .mmioWrite (s.effAddr part inst idx) value] ∨ CutShort s t := by
  have hp := (partitionOk_iff s part).mpr hmap
  refine command_cutAt (P := fun u => Did _ _ u _) ?_ hx
  simp only [wp_bind, wp_line]
  cases ha : aligned (s.effAddr part inst idx) with
  | false => exact wp_instWrite_misaligned hp ha fun _ => cutAt_refuse _ _ _
  | true =>
    refine ((Did.cutAt s _).phase _).instWrite hp ha fun u hu => ?_
    exact (hu.phase _).respond fun _ ht _ => ht

/-- Settles O24: READ's one read comes right after WRITE's one write, where R74 is asked of it. -/
theorem writeThenReadReturnsTheValue : Obligations.WriteThenReadReturnsTheValue := by
  intro s t u value part inst idx _ hmap hwrite hread hholds
  obtain hdid | hcut := execWrite_did hmap hwrite
  · have hmap' : t.MappedPartition part :=
      (partitionOk_iff t part).mp ((hdid.partitionOk part).trans ((partitionOk_iff s part).mpr hmap))
    obtain ⟨v, hone⟩ | hcut := execRead_oneRead (inst := inst) (idx := idx) hmap' hread
    · rw [hone.events, hdid.effAddr, hdid.events] at hholds
      obtain ⟨-, hlast, -⟩ := hholds
      exact .inl ⟨hone.res, hone.rval.trans (hlast v value rfl (if_pos rfl))⟩
    · exact .inr (hdid.cutLater hcut rfl)
  · exact .inr (hcut.later (exec_grown hread))

end Sys2Proof.Machine
end

section
/-! PROOFS. The reset lines (R140 to R147): RST_IS_ASSERTED, RST_ASSERT and RST_DEASSERT, each by its body, line by
line; and the events of RST_DEASSERT counted from its trace. -/

namespace Sys2Proof

theorem boolWord_bitSet (v : Word) (shift : Shift) :
    Machine.boolWord (bitSet v shift) = if (v >>> shift.toNat) &&& 1#32 = 1#32 then 1 else 0 := by
  simp only [Machine.boolWord, bitSet_iff]

theorem bitSet_eq_false_iff (v : Word) (shift : Shift) :
    bitSet v shift = false ↔ (v >>> shift.toNat) &&& 1#32 = 0#32 := by
  have hbit : ((v >>> shift.toNat) &&& 1#32).toNat = (v >>> shift.toNat).toNat % 2 := Nat.and_one_is_mod _
  rw [← Bool.not_eq_true, bitSet_iff, ← BitVec.toNat_inj, ← BitVec.toNat_inj, hbit]
  show ¬_ = 1 ↔ _ = 0
  omega

end Sys2Proof

namespace Sys2Proof.Machine

variable {s t b : State} {i : Instr} {E : Stop → State → Prop} {es polls : List Event} {w : Work}
  {shift : Shift} {part : PartId} {inst off : Addr}

/-! ### RST_IS_ASSERTED and RST_ASSERT (R142, R144) -/

/-- Settles O26: the body makes the one read and answers the bit that it finds. -/
theorem isAssertedTestsTheBit : Obligations.IsAssertedTestsTheBit := by
  intro s shift part inst off
  refine (((isAsserted_opensAt shift part inst off).bind _).afterLine _).throughPartition rfl fun hs hp ha hstart => ?_
  simp only [wp_bind]
  refine hstart.line fun u hu => hu.isAsserted hp ha fun v u hu => hu.setWork fun u hu => hu.line fun u hu => ?_
  refine hu.respond fun t ht hphase hframed => ⟨v, ?_⟩
  have hans := ht.answered (i := .rstIsAsserted shift part inst off) (s := s) hphase rfl rfl
  exact ⟨boolWord_bitSet v shift ▸ hans, ht.unchanged (accept_unchanged hs), hans.onlyStores hframed nofun⟩

/-- Settles O27: the body's read-modify-write has the line's mask as mask and bits. -/
theorem assertSetsTheBit : Obligations.AssertSetsTheBit := by
  intro s shift part inst off
  refine (((((instRmw_opensAt _ _ part inst off).bind _).afterLine _).afterSetWork _).afterLine _).throughPartition rfl
    fun hs hp ha hstart => ?_
  simp only [wp_bind]
  refine hstart.line fun u hu => hu.setWork fun u hu => hu.line fun u hu => hu.instRmw hp ha fun v u hu => ?_
  rw [merge_set] at hu
  refine hu.line fun u hu => hu.respond fun t ht hphase hframed => ⟨v, ?_⟩
  have hans := ht.answered (i := .rstAssert shift part inst off) (s := s) hphase rfl rfl
  exact ⟨hans, ht.unchanged (accept_unchanged hs), hans.onlyStores hframed (stores_of_writesOf_eq rfl)⟩

/-! ### RST_DEASSERT (R146) -/

/-- The read-modify-writes of lines DA3 and DA4 of RST_DEASSERT: the status bit cleared by writing exactly the mask,
then the control bit cleared with the other bits as read (R146). -/
def clearingEvents (ctrl st : Addr) (mask stv c : Word) : List Event :=
  [.mmioWrite ctrl (c &&& ~~~mask), .mmioRead ctrl c, .mmioWrite st mask, .mmioRead st stv]

theorem writesOf_asserted {ctrl st : Addr} {mask v stv c : Word} (hpolls : writesOf polls = []) :
    writesOf (polls ++ (clearingEvents ctrl st mask stv c ++ [.mmioRead ctrl v])) =
      [⟨.mmio, ctrl, c &&& ~~~mask⟩, ⟨.mmio, st, mask⟩] := by
  rw [writesOf_append, hpolls]
  rfl

theorem stores_of_writesOf_eq_pair {a c : Addr} {v x : Word} (h : writesOf es = [⟨.mmio, a, v⟩, ⟨.mmio, c, x⟩]) :
    ∀ w ∈ writesOf es, (w.port, w.addr) ∈ [(Port.mmio, a), (Port.mmio, c)] := by
  simp [h]

theorem StatusPolls.noWrites {c : Config} {a : Addr} {ok : Bool} (h : StatusPolls c a shift ok polls) :
    writesOf polls = [] := PollTrace.noWrites h fun _ => rfl

/-- Lines DA2 to DA6 of RST_DEASSERT. -/
theorem Worked.deassertAsserted {Q : Unit → State → Prop} (h : Worked E b s es w) (hadm : b.cfg.admitted = true)
    (hp : b.partitionOk part = true) (ha : aligned (b.effAddr part inst off) = true)
    (k : ∀ stv c ok polls last t, StatusPolls b.cfg (b.effAddr part inst (off + 4)) shift ok polls →
      polls.find? Event.isMmioRead = some (.mmioRead (b.effAddr part inst (off + 4)) last) →
      Worked E { b with res := (if ok then Status.ok else .busy).code, rval := 0, mode := .ready } t
        (.respond (if ok then .ok else .busy) 0 :: (polls ++
          (clearingEvents (b.effAddr part inst off) (b.effAddr part inst (off + 4)) (bitMask shift) stv c ++ es)))
        { w with
          ea := some (b.effAddr part inst (off + 4))
          v := some last
          m := some (bitMask shift)
          cnt := some (BitVec.ofNat 32 (polls.countP Event.isDelay))
          okf := some ok } → t.phase = none → Q () t) :
    wp (Machine.deassertAsserted shift part inst off) Q E s := by
  have hst : b.cfg.statusOffset off = off + 4 := congrArg (off + ·) (admitted_fixed hadm).2
  have hast : aligned (b.effAddr part inst (off + 4)) = true :=
    hst ▸ (aligned_status b part inst off (admitted_fixed hadm).2).trans ha
  simp only [Machine.deassertAsserted, wp_bind, wp_get]
  refine h.line fun u hu => hu.setWork fun u hu => hu.line fun u hu => ?_
  rw [hu.cfg, hst]
  refine hu.instRmw hp hast fun stv u hu => hu.line fun u hu => hu.instRmw hp ha fun c u hu => hu.line fun u hu => ?_
  rw [merge_all, merge_clear] at hu
  refine hu.statusPolls hp hast (admitted_budgets hadm).1 fun ok polls last u hpolls hlast hu => ?_
  refine hu.line fun u hu => ?_
  cases ok with
  | true => exact hu.respond fun t => k stv c true polls last t hpolls hlast
  | false => exact hu.respond fun t => k stv c false polls last t hpolls hlast

/-- Settles O28: one read decides between the answer ALREADY_DEASSERTED and lines DA2 to DA6. -/
theorem deassertProtocol : Obligations.DeassertProtocol := by
  intro s shift part inst off
  refine (((isAsserted_opensAt shift part inst off).bind _).afterLine _).throughPartition rfl fun hs hp ha hstart => ?_
  simp only [wp_bind]
  refine Worked.line ⟨hstart, rfl⟩ fun u hu => hu.isAsserted hp ha fun v u hu => ?_
  cases hv : bitSet v shift with
  | false =>
    refine hu.respond fun t ht hphase hframed => ?_
    have hans := ht.toDid.answered (i := .rstDeassert shift part inst off) (s := s) hphase rfl rfl
    refine ⟨ht.toDid.unchanged (accept_unchanged hs), v, fun _ => ⟨hans, ht.work, hans.onlyStores hframed nofun⟩,
      fun hset => ?_⟩
    exact absurd ((bitSet_iff v shift).mpr hset) (by simp [hv])
  | true =>
    refine hu.deassertAsserted hs.2 hp ha fun stv c ok polls last t hpolls hlast ht hphase hframed => ?_
    have hans := ht.toDid.answered (i := .rstDeassert shift part inst off) (s := s) hphase rfl rfl
    refine ⟨ht.toDid.unchanged (accept_unchanged hs), v, fun hclear => ?_, fun _ => ?_⟩
    · exact absurd ((bitSet_eq_false_iff v shift).mpr hclear) (by simp [hv])
    · exact ⟨stv, c, ok, polls, hpolls, hans, ⟨last, hlast, ht.work⟩,
        hans.onlyStores hframed (stores_of_writesOf_eq_pair (writesOf_asserted hpolls.noWrites))⟩

/-! ### The events of RST_DEASSERT, counted (R147) -/

theorem failedReads_countP (delayUs : Nat) (a : Addr) (l : List Word) :
    (failedChecks delayUs (l.map (.mmioRead a))).countP Event.isMmioRead = l.length ∧
      (failedChecks delayUs (l.map (.mmioRead a))).countP Event.isDelay = l.length := by
  induction l with
  | nil => exact ⟨rfl, rfl⟩
  | cons v l ih =>
    obtain ⟨hreads, hdelays⟩ := ih
    exact ⟨by simpa [failedChecks, List.countP_cons, Event.isMmioRead] using hreads,
      by simpa [failedChecks, List.countP_cons, Event.isDelay] using hdelays⟩

/-- The reads and the delays of the polls: each check that failed has one of both, a check that held is one read more
(R143). -/
theorem StatusPolls.counts {c : Config} {a : Addr} {ok : Bool} (h : StatusPolls c a shift ok polls) :
    (ok = true → polls.countP Event.isDelay < c.hardresetBudget.toNat ∧
      polls.countP Event.isMmioRead = polls.countP Event.isDelay + 1) ∧
    (ok = false → polls.countP Event.isDelay = c.hardresetBudget.toNat ∧
      polls.countP Event.isMmioRead = c.hardresetBudget.toNat) := by
  obtain ⟨failed, -, ⟨rfl, hlen, rfl⟩ | ⟨rfl, hlen, v, -, rfl⟩⟩ := h
  all_goals obtain ⟨hreads, hdelays⟩ := failedReads_countP c.hardresetDelayUs a failed
  · exact ⟨nofun, fun _ => ⟨hdelays.trans hlen, hreads.trans hlen⟩⟩
  · rw [List.countP_cons, List.countP_cons, hreads, hdelays]
    exact ⟨fun _ => ⟨hlen, rfl⟩, nofun⟩

/-- The events of an answered RST_DEASSERT that went on to lines DA2 to DA6, counted. -/
theorem asserted_counts {ctrl st : Addr} {mask v stv c : Word} {r : Status} (hpolls : writesOf polls = [])
    (hes : es = .respond r 0 :: (polls ++ (clearingEvents ctrl st mask stv c ++ [.mmioRead ctrl v]))) :
    es.countP Event.isMmioRead = polls.countP Event.isMmioRead + 3 ∧ (writesOf es).length = 2 ∧
      es.countP Event.isDelay = polls.countP Event.isDelay := by
  subst hes
  refine ⟨?_, ?_, ?_⟩
  · simp [clearingEvents, List.countP_cons, Event.isMmioRead]
  · rw [writesOf_cons, writesOf_asserted hpolls]
    rfl
  · simp [clearingEvents, Event.isDelay]

/-- Settles O29: `deassertProtocol` gives the events of each result; they are counted here. -/
theorem deassertEventCounts : Obligations.DeassertEventCounts := by
  intro s t shift part inst off hs hmap hx
  obtain ⟨-, hrefused, hgood⟩ := deassertProtocol s shift part inst off hs
  cases ha : aligned (s.effAddr part inst off) with
  | false => exact absurd (hx.symm.trans (hrefused hmap ha)) nofun
  | true =>
  obtain ⟨u, hu, ⟨-, v, hclear, hset⟩ | hcut⟩ := hgood hmap ha
  all_goals cases hx.symm.trans hu
  · refine .inl ?_
    cases hv : bitSet v shift with
    | false =>
      obtain ⟨hans, -⟩ := hclear ((bitSet_eq_false_iff v shift).mp hv)
      refine ⟨_, hans.events, ?_⟩
      simp [hans.res, Status.code, Event.isMmioRead, Event.isDelay, writesOf, Event.written]
    | true =>
      obtain ⟨stv, c, ok, polls, hpolls, hans, -⟩ := hset ((bitSet_iff v shift).mp hv)
      obtain ⟨hreads, hwrites, hdelays⟩ := asserted_counts hpolls.noWrites rfl
      obtain ⟨hok, hbusy⟩ := hpolls.counts
      refine ⟨_, hans.events, ?_⟩
      cases ok with
      | true =>
        obtain ⟨hlt, hone⟩ := hok rfl
        rw [hans.res]
        refine ⟨nofun, fun _ => ⟨polls.countP Event.isDelay + 1, ?_⟩, nofun, .inr (.inl rfl)⟩
        exact ⟨by omega, hlt, hreads.trans (by omega), hwrites, hdelays⟩
      | false =>
        obtain ⟨hdelay, hread⟩ := hbusy rfl
        rw [hans.res]
        exact ⟨nofun, nofun, fun _ => ⟨hreads.trans (by omega), hwrites, hdelays.trans hdelay⟩, .inr (.inr rfl)⟩
  · exact .inr hcut

end Sys2Proof.Machine
end

section
/-! PROOFS. The global sequences WARM_RESET and COLD_RESET (R148 to R152, R243). `Tracked b rest s es` follows a command
through turns in which nobody moves, with its events and the block's writes, up to its response or to the turn in which
the SoC resets. -/

namespace Sys2Proof.Machine

variable {s t b : State} {i : Instr} {E : Stop → State → Prop} {es : List Event} {rest : List (List Move)}
  {keep : List Bool} {part : PartId} {inst idx : Addr}

/-! ### Quiet turns, with the events and the writes -/

/-- As `Quiet`, with the events `es` since `b`, whose writes are those the block has issued since, and CMD as in `b`. -/
structure Tracked (b : State) (rest : List (List Move)) (s : State) (es : List Event) : Prop
    extends Quiet b rest s where
  cmd : s.cmd = b.cmd
  events : s.events = es ++ b.events
  issued : s.issued = writesOf es ++ b.issued

theorem Tracked.accept (i : Instr) (h : s.script = rest) : Tracked s rest (s.accept i) [] :=
  ⟨⟨h, rfl, rfl⟩, rfl, rfl, rfl⟩

/-- Passing a line and setting working registers. -/
theorem Tracked.lines (h : Tracked b rest s es) (p : Option Phase) (w : Work) :
    Tracked b rest { s with phase := p, work := w } es :=
  ⟨⟨h.script, h.cfg, h.base⟩, h.cmd, h.events, h.issued⟩

theorem Tracked.turn {Q : Unit → State → Prop} (h : Tracked b ([] :: rest) s es)
    (k : ∀ t, Tracked b rest t es → t.wq = s.wq → Q () t) : wp turn Q E s := by
  rw [wp_turn_quiet h.script]
  exact k _ ⟨⟨rfl, h.cfg, h.base⟩, h.cmd, h.events, h.issued⟩ rfl

theorem Tracked.drain (h : Tracked b rest s es) : Tracked b rest s.drain es :=
  have hd := drain_envOnly s
  ⟨⟨(drain_script s).trans h.script, hd.cfg.trans h.cfg, hd.base.trans h.base⟩, hd.cmd.trans h.cmd,
    hd.events.trans h.events, (drain_issued s).trans h.issued⟩

theorem Tracked.tick (h : Tracked b rest s es) (n : Nat) : Tracked b rest { s with tick := n } es :=
  ⟨⟨h.script, h.cfg, h.base⟩, h.cmd, h.events, h.issued⟩

/-- An event that issues no write. -/
theorem Tracked.event (h : Tracked b rest s es) (e : Event) (he : e.written = none) :
    Tracked b rest { s with hist := (s.phase, e) :: s.hist } (e :: es) :=
  ⟨⟨h.script, h.cfg, h.base⟩, h.cmd, congrArg (List.cons e) h.events, by rw [writesOf_cons, he]; exact h.issued⟩

theorem Tracked.write (h : Tracked b rest s es) (e : Event) (x : WEntry) (he : e.written = some x.toWrite) :
    Tracked b rest { s with wq := s.wq ++ [x], hist := (s.phase, e) :: s.hist } (e :: es) := by
  refine ⟨⟨h.script, h.cfg, h.base⟩, h.cmd, congrArg (List.cons e) h.events, ?_⟩
  rw [issued_eq_entries, entries_push, writesOf_cons, he]
  exact congrArg (List.cons x.toWrite) h.issued

/-- A target that is asked answers something. -/
theorem wp_targetAnswer {p : Port} {a : Addr} {Q : Word → State → Prop} (k : ∀ v n, Q v { s with tick := n }) :
    wp (targetAnswer p a) Q E s := by
  simp only [targetAnswer, wp_bind, wp_get]
  cases s.target.get p a with
  | some v => exact k v s.tick
  | none => exact k _ _

theorem wp_memRead {a : Addr} {Q : Word → State → Prop} (ha : aligned a = true) :
    wp (memRead a) Q E s ↔ wp turn (fun _ t => wp (targetAnswer .mmio a)
      (fun v u => Q v { u with hist := (u.phase, .mmioRead a v) :: u.hist }) E t.drain) E s := by
  simp only [memRead, targetRead, requireAligned, ha, if_true, wp_bind, wp_pure, wp_modify, wp_emit]

theorem Tracked.instRead {Q : Word → State → Prop} (h : Tracked b ([] :: rest) s es) (hp : b.partitionOk part = true)
    (ha : aligned (b.effAddr part inst idx) = true)
    (k : ∀ v t, Tracked b rest t (.mmioRead (b.effAddr part inst idx) v :: es) → t.wq = [] → Q v t) :
    wp (instRead part inst idx) Q E s := by
  rw [wp_instRead (by rwa [h.partitionOk]), h.effAddr, wp_memRead ha]
  refine (h.lines _ _).turn fun t ht _ => wp_targetAnswer fun v n => ?_
  exact k v _ ((ht.drain.tick n).event _ rfl) (drain_wq t)

theorem Quiet.entry (h : Quiet b rest s) (p : Port) (a : Addr) (v : Word) : s.entry p a v = b.entry p a v := by
  simp only [State.entry, State.requestsGlobalReset, State.globalCtrl, h.effAddr, State.baseOf, h.cfg, h.base]

theorem Tracked.instWrite {v : Word} {Q : Unit → State → Prop} (h : Tracked b ([] :: rest) s es)
    (hp : b.partitionOk part = true) (ha : aligned (b.effAddr part inst idx) = true)
    (k : ∀ t, Tracked b rest t (.mmioWrite (b.effAddr part inst idx) v :: es) →
      t.wq = s.wq ++ [b.entry .mmio (b.effAddr part inst idx) v] → Q () t) :
    wp (instWrite v part inst idx) Q E s := by
  rw [wp_instWrite (by rwa [h.partitionOk]), h.effAddr, wp_memWrite ha]
  refine (h.lines _ _).turn fun t ht hq => k _ (ht.write _ _ rfl) ?_
  rw [hq, ht.entry]

theorem Tracked.delay {us : Nat} {Q : Unit → State → Prop} (h : Tracked b ([] :: rest) s es)
    (k : ∀ t, Tracked b rest t (.delay us :: es) → Q () t) : wp (delay us) Q E s := by
  simp only [Machine.delay, wp_bind]
  exact h.turn fun t ht _ => k _ (ht.event _ rfl)

theorem Tracked.respond {st : Status} {v : Word} {Q : Unit → State → Prop} (h : Tracked b ([] :: rest) s es)
    (k : ∀ t, Tracked b rest t (.respond st v :: es) → Q () t) : wp (respond st v) Q E s := by
  rw [wp_respond_iff]
  exact h.turn fun t ht _ => k _ ⟨⟨ht.script, ht.cfg, ht.base⟩, ht.cmd, congrArg (List.cons _) ht.events, ht.issued⟩

/-- No reset is among the tracked events. -/
theorem Tracked.not_resetSince (h : Tracked b rest s es) (hes : ∀ e ∈ es, e.isReset = false) : ¬ResetSince b s := by
  rintro ⟨es', e, hev, he, hreset⟩
  obtain rfl := List.append_cancel_right (hev.symm.trans h.events)
  exact absurd (hreset.symm.trans (hes e he)) nofun

/-- A command in whose turns no reset comes ends as it completes. -/
theorem ThroughPartition.of_not_resetSince {ea : Addr} {good : State → Prop} (h : ThroughPartition i s part ea good)
    (hs : s.takesCommand) (hmap : s.MappedPartition part) (ha : aligned ea = true)
    (hx : ∃ t, exec i s = .next t ∧ ¬ResetSince s t) : ∃ t, exec i s = .next t ∧ good t := by
  obtain ⟨-, -, hgood⟩ := h hs
  obtain ⟨t, hx, hnot⟩ := hx
  obtain ⟨u, hu, hends⟩ := hgood hmap ha
  cases hx.symm.trans hu
  exact ⟨t, hx, hends.resolve_right fun hcut => hnot hcut.1⟩

/-! ### The SoC's reset, once the target has observed the request (R243) -/

theorem SocResetEnd.since {u : State} (h : SocResetEnd u t []) (he : u.events = es ++ s.events) (hcfg : u.cfg = s.cfg)
    (hcmd : u.cmd = s.cmd) : SocResetEnd s t es :=
  ⟨h.events.trans (congrArg (List.cons _) he), h.wq, h.regs, h.txdone, h.armed, hcfg ▸ h.base, hcfg ▸ h.vpen,
    hcfg ▸ h.msgCnt, hcfg ▸ h.recCnt, h.mode, h.vpstate, h.phase, h.work, h.cfg.trans hcfg, h.cmd.trans hcmd⟩

/-- With WQ empty the SoC's reset loses no write. -/
theorem socReset_issued (h : s.wq = []) (keep : List Bool) : (s.socReset keep).issued = s.issued := by
  simp [State.issued, State.socReset, State.settleQueue, h]

/-- A turn in which the target observes the one queued write, a request, and the SoC resets. -/
theorem Tracked.turn_socReset {Q : Unit → State → Prop} {e : WEntry}
    (h : Tracked b ([.env .observe, .socReset keep] :: rest) s es) (hq : s.wq = [e]) (he : e.request = true)
    (k : ∀ t, SocResetEnd b t es → t.issued = writesOf es ++ b.issued → E .cut t) : wp Machine.turn Q E s := by
  obtain ⟨u, hu⟩ : ∃ u, u = ({ s with script := rest } : State).observeOldest := ⟨_, rfl⟩
  have hobs : EnvOnly { s with script := rest } u := hu ▸ observeOldest_envOnly _
  have harmed : u.target.armed = true := by simp [hu, State.observeOldest, hq, State.observeEntry, he]
  have hempty : u.wq = [] := by simp [hu, State.observeOldest, hq, State.observeEntry]
  have hissued : u.issued = s.issued := hu ▸ envMove_issued { s with script := rest } .observe
  have hturn : s.takeTurn = (u.socReset keep, true) := by
    simp only [State.takeTurn, h.script, runMoves, State.envMove, ← hu, harmed, if_true]
  simp only [wp, Machine.turn, hturn, if_true]
  exact k _ ((socReset_end u u.script keep).since (hobs.events.trans h.events) (hobs.cfg.trans h.cfg)
    (hobs.cmd.trans h.cmd)) ((socReset_issued hempty keep).trans (hissued.trans h.issued))

/-- The SoC's reset in the turn of a read, which is not made. -/
theorem Tracked.instRead_socReset {Q : Word → State → Prop} {e : WEntry}
    (h : Tracked b ([.env .observe, .socReset keep] :: rest) s es) (hp : b.partitionOk part = true)
    (ha : aligned (b.effAddr part inst idx) = true) (hq : s.wq = [e]) (he : e.request = true)
    (k : ∀ t, SocResetEnd b t es → t.issued = writesOf es ++ b.issued → E .cut t) :
    wp (Machine.instRead part inst idx) Q E s := by
  rw [wp_instRead (by rwa [h.partitionOk]), h.effAddr, wp_memRead ha]
  exact (h.lines _ _).turn_socReset hq he k

/-- A write that sets the warm or cold bit of the global control register is a request (R49, R243). -/
theorem entry_globalCtrl_request {v : Word} (hmap : s.MappedPartition s.cfg.partPrm)
    (hv : setsResetBit s.cfg v = true) : (s.entry .mmio s.globalCtrl v).request = true := by
  obtain ⟨-, -, hbase⟩ := hmap
  simp [State.requestsGlobalReset, hbase, hv]

/-- The request of a global sequence, which drained WQ before it, and the read back in whose turn the SoC resets. -/
theorem Tracked.request_socReset {u : State} {v : Word} {p : Option Phase} {Q : Word → State → Prop}
    (h : Tracked s ([] :: [.env .observe, .socReset keep] :: rest) u es) (hq : u.wq = [])
    (hmap : s.MappedPartition s.cfg.partPrm) (ha : aligned s.globalCtrl = true) (hv : setsResetBit s.cfg v = true)
    (k : ∀ t, SocResetEnd s t (.mmioWrite s.globalCtrl v :: es) →
      t.issued = writesOf (.mmioWrite s.globalCtrl v :: es) ++ s.issued → E .cut t) :
    wp (Machine.instWrite v s.cfg.partPrm s.cfg.globalInst s.cfg.grst.ctrl)
      (fun _ t => wp (Machine.instRead s.cfg.partPrm s.cfg.globalInst s.cfg.grst.ctrl) Q E { t with phase := p })
      E u := by
  have hp := (partitionOk_iff s _).mpr hmap
  refine h.instWrite hp ha fun t ht hqueue => ?_
  have hone : t.wq = [s.entry .mmio s.globalCtrl v] := hqueue.trans (congrArg (· ++ _) hq)
  exact (ht.lines _ _).instRead_socReset hp ha hone (entry_globalCtrl_request hmap hv) k

/-! ### WARM_RESET (R150) -/

/-- The events of WARM_RESET up to its request (R150). -/
def warmRequest (s : State) (v : Word) : List Event :=
  [.mmioWrite s.globalCtrl (v ||| bitMask s.cfg.grst.warmBit), .mmioRead s.globalCtrl v]

theorem warmReset_throughPartition (s : State) :
    ThroughPartition .warmReset s s.cfg.partPrm s.globalCtrl (WarmAnswers s) := by
  refine (((instRead_opensAt _ _ _).bind _).afterLine _).throughPartition rfl fun hs hp ha hstart => ?_
  simp only [wp_bind]
  refine hstart.line fun u hu => hu.instRead hp ha fun v u hu _ => hu.setWork fun u hu => ?_
  refine hu.line fun u hu => hu.instWrite hp ha fun u hu => hu.line fun u hu => ?_
  refine hu.instRead hp ha fun v' u hu hread => hu.setWorkQueue hread.drained fun u hu hq => ?_
  refine hu.lineQueue hq fun u hu hq => hu.respondDrained hq fun t ht hphase hq hframed => ⟨v, v', ?_⟩
  have hans := ht.answered (i := .warmReset) (s := s) hphase rfl rfl
  exact ⟨hans, ht.unchanged (accept_unchanged hs), hq, hans.onlyStores hframed (stores_of_writesOf_eq rfl)⟩

/-- WARM_RESET in quiet turns. -/
theorem warmReset_quiet (hs : s.takesCommand) (hp : s.partitionOk s.cfg.partPrm = true)
    (ha : aligned s.globalCtrl = true) (hscript : s.script = [] :: [] :: [] :: [] :: rest) :
    ∃ t, exec .warmReset s = .next t ∧ ¬ResetSince s t := by
  refine command_next hs.1 hs.2 ?_
  simp only [wp_bind, wp_line, wp_setWork]
  refine ((Tracked.accept .warmReset hscript).lines _ _).instRead hp ha fun v u hu _ => ?_
  refine (hu.lines _ _).instWrite hp ha fun u hu _ => (hu.lines _ _).instRead hp ha fun v' u hu _ => ?_
  exact (hu.lines _ _).respond fun t ht => ht.not_resetSince (by simp [Event.isReset])

/-- WARM_RESET, where the SoC resets in the turn of the read back. -/
theorem warmReset_socReset (hs : s.takesCommand) (hmap : s.MappedPartition s.cfg.partPrm)
    (ha : aligned s.globalCtrl = true) (hscript : s.script = [] :: [] :: [.env .observe, .socReset keep] :: rest) :
    ∃ t, exec .warmReset s = .next t ∧
      ∃ v, SocResetEnd s t (warmRequest s v) ∧ t.issued = writesOf (warmRequest s v) ++ s.issued := by
  have hp := (partitionOk_iff s _).mpr hmap
  refine command_next hs.1 hs.2 ?_
  simp only [wp_bind, wp_line, wp_setWork]
  refine ((Tracked.accept .warmReset hscript).lines _ _).instRead hp ha fun v u hu hq => ?_
  have hv : setsResetBit s.cfg (v ||| bitMask s.cfg.grst.warmBit) = true := by simp [setsResetBit, bitSet_or_mask]
  exact (hu.lines _ _).request_socReset hq hmap ha hv fun t hend hissued => ⟨rfl, v, hend, hissued⟩

/-- Settles O30: the body's lines; in four quiet turns no reset is met; and a reset in the third turn finds the request
observed. -/
theorem warmResetSequence : Obligations.WarmResetSequence := by
  refine ⟨warmReset_throughPartition, fun s rest hs hmap ha hscript => ?_,
    fun s keep rest hm hadm hmap ha hscript => ?_⟩
  · exact (warmReset_throughPartition s).of_not_resetSince hs hmap ha
      (warmReset_quiet hs ((partitionOk_iff s _).mpr hmap) ha hscript)
  · obtain ⟨t, hx, v, hend⟩ := warmReset_socReset ⟨hm, hadm⟩ hmap ha hscript
    exact ⟨v, t, hx, hend⟩

/-! ### COLD_RESET (R152) -/

/-- The events of COLD_RESET up to its request (R152). -/
def coldRequest (s : State) (v : Word) : List Event :=
  [.mmioWrite s.globalCtrl (v ||| bitMask s.cfg.grst.coldBit), .mmioRead s.globalCtrl v,
    .mmioWrite s.globalStatus (bitMask s.cfg.grst.coldStBit)]

theorem coldReset_throughPartition (s : State) (hctrl : aligned s.globalCtrl = true) :
    ThroughPartition .coldReset s s.cfg.partPrm s.globalStatus (ColdAnswers s) := by
  refine (((instWrite_opensAt _ _ _ _).bind _).afterLine _).throughPartition rfl fun hs hp ha hstart => ?_
  simp only [wp_bind]
  refine hstart.line fun u hu => hu.instWrite hp ha fun u hu => hu.line fun u hu => ?_
  refine hu.instRead hp hctrl fun v u hu _ => hu.setWork fun u hu => ?_
  refine hu.line fun u hu => hu.instWrite hp hctrl fun u hu => hu.line fun u hu => ?_
  refine hu.instRead hp hctrl fun v' u hu hread => hu.setWorkQueue hread.drained fun u hu hq => ?_
  refine hu.lineQueue hq fun u hu hq => hu.delayDrained hq fun u hu hq => hu.lineQueue hq fun u hu hq => ?_
  refine hu.respondDrained hq fun t ht hphase hq hframed => ⟨v, v', ?_⟩
  have hans := ht.answered (i := .coldReset) (s := s) hphase rfl rfl
  exact ⟨hans, ht.unchanged (accept_unchanged hs), hq, hans.onlyStores hframed (stores_of_writesOf_eq_pair rfl)⟩

/-- COLD_RESET in quiet turns. -/
theorem coldReset_quiet (hs : s.takesCommand) (hp : s.partitionOk s.cfg.partPrm = true)
    (ha : aligned s.globalCtrl = true) (hst : aligned s.globalStatus = true)
    (hscript : s.script = [] :: [] :: [] :: [] :: [] :: [] :: rest) :
    ∃ t, exec .coldReset s = .next t ∧ ¬ResetSince s t := by
  refine command_next hs.1 hs.2 ?_
  simp only [wp_bind, wp_line, wp_setWork]
  refine ((Tracked.accept .coldReset hscript).lines _ _).instWrite hp hst fun u hu _ => ?_
  refine (hu.lines _ _).instRead hp ha fun v u hu _ => (hu.lines _ _).instWrite hp ha fun u hu _ => ?_
  refine (hu.lines _ _).instRead hp ha fun v' u hu _ => (hu.lines _ _).delay fun u hu => ?_
  exact (hu.lines _ _).respond fun t ht => ht.not_resetSince (by simp [Event.isReset])

/-- COLD_RESET is refused at the first of its registers that is misaligned (R63; log 10). -/
theorem coldReset_refuses (hs : s.takesCommand) (hp : s.partitionOk s.cfg.partPrm = true)
    (ha : aligned s.globalCtrl = false) : Refuses .coldReset s .misaligned := by
  refine command_refuses hs fun hstart => ?_
  simp only [wp_bind]
  refine hstart.line fun u hu => ?_
  cases hst : aligned s.globalStatus with
  | false => exact wp_instWrite_misaligned ((hu.partitionOk _).trans hp) (hu.effAddr _ _ _ ▸ hst) fun _ => .inl rfl
  | true =>
    refine hu.instWrite hp hst fun u hu => hu.line fun u hu => ?_
    exact wp_instRead_misaligned ((hu.partitionOk _).trans hp) (hu.effAddr _ _ _ ▸ ha) fun _ => .inl rfl

/-- COLD_RESET, where the SoC resets in the turn of the read back. -/
theorem coldReset_socReset (hs : s.takesCommand) (hmap : s.MappedPartition s.cfg.partPrm)
    (ha : aligned s.globalCtrl = true) (hst : aligned s.globalStatus = true)
    (hscript : s.script = [] :: [] :: [] :: [.env .observe, .socReset keep] :: rest) :
    ∃ t, exec .coldReset s = .next t ∧
      ∃ v, SocResetEnd s t (coldRequest s v) ∧ t.issued = writesOf (coldRequest s v) ++ s.issued := by
  have hp := (partitionOk_iff s _).mpr hmap
  refine command_next hs.1 hs.2 ?_
  simp only [wp_bind, wp_line, wp_setWork]
  refine ((Tracked.accept .coldReset hscript).lines _ _).instWrite hp hst fun u hu _ => ?_
  refine (hu.lines _ _).instRead hp ha fun v u hu hq => ?_
  have hv : setsResetBit s.cfg (v ||| bitMask s.cfg.grst.coldBit) = true := by simp [setsResetBit, bitSet_or_mask]
  exact (hu.lines _ _).request_socReset hq hmap ha hv fun t hend hissued => ⟨rfl, v, hend, hissued⟩

/-- Settles O31: as for WARM_RESET, in six turns, the status register first; and the refusal at the control register. -/
theorem coldResetSequence : Obligations.ColdResetSequence := by
  refine ⟨coldReset_throughPartition, fun s rest hs hmap ha hst hscript => ?_, fun s hs hmap ha => ?_,
    fun s keep rest hm hadm hmap ha hst hscript => ?_⟩
  · exact (coldReset_throughPartition s ha).of_not_resetSince hs hmap hst
      (coldReset_quiet hs ((partitionOk_iff s _).mpr hmap) ha hst hscript)
  · exact coldReset_refuses hs ((partitionOk_iff s _).mpr hmap) ha
  · obtain ⟨t, hx, v, hend⟩ := coldReset_socReset ⟨hm, hadm⟩ hmap ha hst hscript
    exact ⟨v, t, hx, hend⟩

end Sys2Proof.Machine
end

section
/-! PROOFS. The Voltage Processor's short commands (R164 to R169): the domain operand, how a command that answered is
said to end, and each command by its body, line by line. -/

namespace Sys2Proof.Machine

variable {s s' b u : State} {i : Instr} {E : Stop → State → Prop} {es : List Event} {c : Config} {d : DomId}
  {vp : Vp} {f : PmicFn}

/-! ### The domain operand (R40, R180) -/

theorem readVoltCaps_eq_some_iff : c.readVoltCaps d = some (vp, f) ↔ ∃ dom pmic, HasDomain c d dom ∧
    dom.vp = some vp ∧ dom.hasRead = true ∧ dom.pmic = some pmic ∧ pmic.vselToUv = some f := by
  simp only [Config.readVoltCaps, Option.bind_eq_bind, Option.bind_eq_some_iff, dom_iff, Option.ite_none_right_eq_some,
    Option.some.injEq, Prod.mk.injEq]
  grind

theorem txCaps_eq_some_iff : c.txCaps d = some vp ↔ ∃ dom, HasDomain c d dom ∧ dom.vp = some vp := by
  simp only [Config.txCaps, Option.bind_eq_bind, Option.bind_eq_some_iff, dom_iff]

theorem errgainCaps_eq_some_iff :
    c.errgainCaps d = some vp ↔ ∃ dom, HasDomain c d dom ∧ dom.vp = some vp ∧ dom.hasRmw = true := by
  simp only [Config.errgainCaps, Option.bind_eq_bind, Option.bind_eq_some_iff, dom_iff, Option.ite_none_right_eq_some,
    Option.some.injEq]
  grind

theorem initCaps_eq_some_iff {k : InitCaps} : c.initCaps d = some k ↔ ∃ dom pmic vp vc vpp f g, HasDomain c d dom ∧
    dom.pmic = some pmic ∧ pmic.uvToVsel = some f ∧ pmic.vselToUv = some g ∧ dom.hasRead = true ∧ dom.hasWrite = true ∧
    dom.vp = some vp ∧ dom.vcParam = some vc ∧ dom.vpParam = some vpp ∧ k = ⟨dom, vp, pmic, f, vc, vpp⟩ := by
  simp only [Config.initCaps, Dom.initCaps, Option.bind_eq_bind, Option.bind_eq_some_iff, dom_iff,
    Option.ite_none_right_eq_some, Option.some.injEq, Bool.and_eq_true]
  grind

/-! ### How a command that answered ends -/

/-- A command completes as its body does, with the frame of the target. -/
theorem completes_of_body {body : Act Unit} {good : State → Prop} (hb : exec i s = command i s body)
    (hs : s.takesCommand)
    (h : Did (CutOnly s) (s.accept i) (s.accept i) [] →
      wp body (fun _ t => (s.undisturbed → Framed s t) → good t) (CutOnly s) (s.accept i)) : Completes i s good := by
  rw [Completes, hb]
  exact command_completes hs (fun _ hx hu => exec_framed (hb.trans hx) hu) h

/-- The response to a command that left the registers of `s` as in `s'` and wrote to the registers of `l` only. -/
theorem Did.respondEnds {st : Status} {v : Word} {l : List (Port × Addr)} {good : State → Prop} (h : Did E b u es)
    (hl : b.latch = latchOf i) (he : b.events = s.events) (hb : Unchanged s' { b with mode := .ready })
    (hw : ∀ w ∈ writesOf es, (w.port, w.addr) ∈ l)
    (k : ∀ t, Did E { b with res := st.code, rval := v, mode := .ready } t (.respond st v :: es) →
      Answered i s t st v es → Unchanged s' t → OnlyStores s t l → good t) :
    wp (Machine.respond st v) (fun _ t => (s.undisturbed → Framed s t) → good t) E u :=
  h.respond fun t ht hphase hframed =>
    have hans := ht.answered (i := i) (s := s) hphase hl he
    k t ht hans (ht.unchanged hb) (hans.onlyStores hframed hw)

/-- As `Did.respondEnds`, where the command left every register but those of its own as they were. -/
theorem Did.respondOnly {st : Status} {v : Word} {l : List (Port × Addr)} {good : State → Prop}
    (h : Did E (s.accept i) u es) (hs : s.takesCommand) (hw : ∀ w ∈ writesOf es, (w.port, w.addr) ∈ l)
    (k : ∀ t, Did E { s.accept i with res := st.code, rval := v, mode := .ready } t (.respond st v :: es) →
      Answered i s t st v es → Unchanged s t → OnlyStores s t l → good t) :
    wp (Machine.respond st v) (fun _ t => (s.undisturbed → Framed s t) → good t) E u :=
  h.respondEnds rfl rfl (accept_unchanged hs) hw k

/-- A command that only logs a missing capability (R164, R166, R176, R178). -/
theorem Did.logsOnly {kind : LogKind} (h : Did E (s.accept i) u []) (hs : s.takesCommand) :
    wp (Machine.log kind d) (fun _ => wp (Machine.respond .ok 0) (fun _ t => (s.undisturbed → Framed s t) →
      Answered i s t .ok 0 [.log kind d] ∧ Unchanged s t ∧ OnlyStores s t []) E) E u :=
  h.log fun _ hu => hu.respondOnly hs nofun fun _ _ hans hunchanged hstores => ⟨hans, hunchanged, hstores⟩

/-! ### VP_READ_VOLT (R164) -/

/-- Settles O32: the body reads the one register, or logs; the read is refused where it is misaligned. -/
theorem readVoltConvertsTheSelector : Obligations.ReadVoltConvertsTheSelector := by
  intro s d hs
  refine ⟨fun dom vp pmic f hd hvp hread hpmic hf => ?_, fun hmissing => ?_⟩
  · have hcaps := readVoltCaps_eq_some_iff.mpr ⟨dom, pmic, hd, hvp, hread, hpmic, hf⟩
    refine ⟨fun ha => completes_of_body rfl hs fun hstart => ?_, fun ha => command_refused hs.1 hs.2 ?_⟩
    all_goals simp only [hcaps, wp_bind]
    · refine hstart.line fun u hu => hu.line fun u hu => hu.domRead ha fun v u hu hread => ?_
      refine hu.setWorkQueue hread.drained fun u hu hq => hu.lineQueue hq fun u hu hq => ?_
      refine hu.setWorkQueue hq fun u hu hq => hu.lineQueue hq fun u hu hq => ?_
      refine hu.respondDrained hq fun t ht hphase hq hframed => ⟨v, ?_⟩
      have hans := ht.answered (i := .vpReadVolt d) (s := s) hphase rfl rfl
      exact ⟨hans, ht.unchanged (accept_unchanged hs), hq, hans.onlyStores hframed nofun⟩
    · exact wp_domRead_misaligned ha rfl
  · have hcaps : s.cfg.readVoltCaps d = none := Option.eq_none_iff_forall_ne_some.mpr fun ⟨vp, f⟩ h => by
      obtain ⟨dom, pmic, h⟩ := readVoltCaps_eq_some_iff.mp h
      exact hmissing ⟨dom, vp, pmic, f, h⟩
    refine completes_of_body rfl hs fun hstart => ?_
    simp only [hcaps, wp_bind]
    exact hstart.line fun u hu => hu.logsOnly hs

/-! ### VP_TXDONE and VP_TXCLR (R167, R168) -/

theorem txCaps_eq_none (h : ¬∃ dom vp, HasDomain c d dom ∧ dom.vp = some vp) : c.txCaps d = none :=
  Option.eq_none_iff_forall_ne_some.mpr fun vp hvp =>
    have ⟨dom, hdom⟩ := txCaps_eq_some_iff.mp hvp
    h ⟨dom, vp, hdom⟩

/-- Settles O35: the body makes the one call and answers what it was told. -/
theorem txdoneAsksTheCallback : Obligations.TxdoneAsksTheCallback := by
  intro s d hs
  refine ⟨fun dom vp hd hvp => completes_of_body rfl hs fun hstart => ?_,
    fun hmissing => command_refused hs.1 hs.2 ?_⟩
  · simp only [txCaps_eq_some_iff.mpr ⟨dom, hd, hvp⟩, wp_bind]
    refine hstart.line fun u hu => hu.callCheckTxdone fun x u hu => hu.setWork fun u hu => hu.line fun u hu => ?_
    exact hu.respondOnly hs nofun fun t _ hans hunchanged hstores => ⟨x, hans, hunchanged, hstores⟩
  · simp only [txCaps_eq_none hmissing, wp_bind, wp_line, wp_refuse]

/-- Settles O36: the body makes the one call. -/
theorem txclrCallsTheCallback : Obligations.TxclrCallsTheCallback := by
  intro s d hs
  refine ⟨fun dom vp hd hvp => completes_of_body rfl hs fun hstart => ?_,
    fun hmissing => command_refused hs.1 hs.2 ?_⟩
  · simp only [txCaps_eq_some_iff.mpr ⟨dom, hd, hvp⟩, wp_bind]
    refine hstart.line fun u hu => hu.callClearTxdone fun u hu => hu.line fun u hu => ?_
    exact hu.respondOnly hs nofun fun t _ hans hunchanged hstores => ⟨hans, hunchanged, hstores⟩
  · simp only [txCaps_eq_none hmissing, wp_bind, wp_line, wp_refuse]

/-! ### VP_ERRGAIN (R169) -/

/-- Settles O37: the body's one read-modify-write, refused where the gain is placed or where the register is reached. -/
theorem errgainUpdatesTheField : Obligations.ErrgainUpdatesTheField := by
  intro s d hs
  refine ⟨fun dom vp td hd hvp hrmw => ?_, fun td hmissing => ?_⟩
  · have hcaps := errgainCaps_eq_some_iff.mpr ⟨dom, hd, hvp, hrmw⟩
    refine ⟨fun gain hgain => ⟨fun ha => ?_, fun ha => command_refused hs.1 hs.2 ?_⟩,
      fun hgain => command_refused hs.1 hs.2 ?_⟩
    · refine completes_of_body rfl hs fun hstart => ?_
      simp only [hcaps, wp_bind, wp_line]
      refine Did.placeIn hgain (((hstart.phase _).phase _).domRmw ha fun old u hu _ hknown => ?_)
      refine (hu.phase _).respondOnly hs ?_ fun t ht hans hunchanged hstores => ⟨old, hans, hunchanged, hstores, ?_⟩
      · simp [writesOf, Event.written]
      · intro hquiet hn w hw
        exact hknown hquiet (mt ht.script hn) w ((readsAs_eq s _ _).symm.trans hw)
    · simp only [hcaps, wp_bind, wp_line]
      exact Did.placeIn hgain (wp_domRmw_misaligned ha rfl)
    · simp only [hcaps, wp_bind, wp_line]
      exact wp_placeIn_none hgain rfl
  · refine completes_of_body rfl hs fun hstart => ?_
    simp only [wp_bind]
    refine hstart.line fun u hu => ?_
    split
    next vp td hcaps =>
      obtain ⟨dom, hdom⟩ := errgainCaps_eq_some_iff.mp hcaps
      exact (hmissing.resolve_left nofun ⟨dom, vp, hdom⟩).elim
    next =>
      exact hu.respondOnly hs nofun fun t _ hans hunchanged hstores => ⟨hans, hunchanged, hstores⟩

end Sys2Proof.Machine
end

section
/-! PROOFS. VP_INIT (R165, R166): the values that it computes, and its four writes, by its body, line by line. -/

namespace Sys2Proof

/-! ### The values of VP_INIT (R165) -/

theorem maxWord_toNat (a b : Word) : (maxWord a b).toNat = max a.toNat b.toNat := by
  unfold maxWord
  split <;> omega

theorem minWord_toNat (a b : Word) : (minWord a b).toNat = min a.toNat b.toNat := by
  unfold minWord
  split <;> omega

/-- A quotient rounded up is the least number of divisors that reaches the dividend (R165). -/
theorem roundedUp_le_iff {a n w : Nat} (hn : 0 < n) : (a + (n - 1)) / n ≤ w ↔ a ≤ w * n := by
  rw [← Nat.add_sub_assoc hn, ← Nat.ceilDiv_eq_add_pred_div, ceilDiv_le_iff_le_mul hn, Nat.mul_comm]

/-- Settles O34: the wait time is a quotient rounded up, the bounds are the larger and the smaller of the limits. -/
theorem initValuesFormulas : Obligations.InitValuesFormulas := by
  intro c k hformulas hslew
  have hden : 0 < 1000 * k.pmic.slewRate := by omega
  simp only [Config.initValues, hformulas, initCycles]
  refine ⟨trivial, ⟨(roundedUp_le_iff hden).mp le_rfl, fun w => (roundedUp_le_iff hden).mpr⟩, _, _, rfl, rfl, ?_,
    minWord_toNat _ _⟩
  rw [maxWord_toNat, maxWord_toNat]

end Sys2Proof

namespace Sys2Proof.Machine

variable {s b u : State} {E : Stop → State → Prop} {es : List Event} {c : Config} {d : DomId} {k : InitCaps}
  {x : InitValues}

/-! ### VP_INIT (R166) -/

/-- The fields that VP_INIT writes, placed (R166, IN4 to IN7). -/
structure InitFields where
  off : Word
  minWait : Word
  minStep : Word
  maxWait : Word
  maxStep : Word
  vmax : Word
  vmin : Word
  tmo : Word

/-- The fields hold the values `x` of VP_INIT and those of its PMIC. -/
structure InitFields.Placed (p : InitFields) (k : InitCaps) (x : InitValues) : Prop where
  off : place k.pmic.erroroffset k.vp.cfgErroroffset = some p.off
  minWait : place x.wait k.vp.sminWait = some p.minWait
  minStep : place k.pmic.vstepmin k.vp.sminStep = some p.minStep
  maxWait : place x.wait k.vp.smaxWait = some p.maxWait
  maxStep : place k.pmic.vstepmax k.vp.smaxStep = some p.maxStep
  vmax : place x.vmax.toNat k.vp.limVddmax = some p.vmax
  vmin : place x.vmin.toNat k.vp.limVddmin = some p.vmin
  tmo : place x.tmo k.vp.limTimeout = some p.tmo

/-- The four writes of VP_INIT, newest first. -/
def InitFields.events (p : InitFields) (d : DomId) (vp : Vp) : List Event :=
  [.domWrite d vp.vlimitto (p.vmax ||| p.vmin ||| p.tmo), .domWrite d vp.vstepmax (p.maxWait ||| p.maxStep),
    .domWrite d vp.vstepmin (p.minWait ||| p.minStep), .domWrite d vp.vpconfig (p.off ||| vp.cfgTimeouten)]

/-- The registers that VP_INIT writes. -/
def initRegisters (vp : Vp) : List Addr := [vp.vpconfig, vp.vstepmin, vp.vstepmax, vp.vlimitto]

theorem InitFields.stores (p : InitFields) (d : DomId) (vp : Vp) :
    ∀ w ∈ writesOf (p.events d vp), (w.port, w.addr) ∈
      [(.dom d, vp.vpconfig), (.dom d, vp.vstepmin), (.dom d, vp.vstepmax), (.dom d, vp.vlimitto)] := by
  simp [InitFields.events, writesOf, Event.written]

/-- In an admitted configuration every value of VP_INIT fits its field (R56). -/
theorem admitted_initFields (hadm : c.admitted = true) (hk : c.initCaps d = some k) :
    ∃ p : InitFields, p.Placed k (c.initValues k) := by
  obtain ⟨dom, hdom, hk⟩ := Option.bind_eq_some_iff.mp hk
  rw [dom_iff] at hdom
  have fits : ∀ p ∈ c.initPlaces k, ∃ w, place p.1 p.2 = some w := fun p => admitted_places hadm hdom.mem hdom.2 hk
  simp only [Config.initPlaces, List.forall_mem_cons] at fits
  obtain ⟨⟨off, hoff⟩, ⟨w1, hw1⟩, ⟨s1, hs1⟩, ⟨w2, hw2⟩, ⟨s2, hs2⟩, ⟨hi, hhi⟩, ⟨lo, hlo⟩, ⟨tmo, htmo⟩, -⟩ := fits
  exact ⟨⟨off, w1, s1, w2, s2, hi, lo, tmo⟩, ⟨hoff, hw1, hs1, hw2, hs2, hhi, hlo, htmo⟩⟩

/-- A write, where a misaligned address is refused (R63). -/
theorem Did.domWriteOr {a : Addr} {v : Word} {Q : Unit → State → Prop} (h : Did E b s es)
    (hrefused : aligned a = false → ∀ t, E (.refuse .misaligned) t)
    (hk : aligned a = true → ∀ t, Did E b t (.domWrite d a v :: es) → Q () t) : wp (Machine.domWrite d a v) Q E s := by
  cases ha : aligned a with
  | false => exact wp_domWrite_misaligned ha (hrefused ha s)
  | true => exact h.domWrite ha (hk ha)

/-- Lines IN2 to IN8 of VP_INIT, to its response or to the first register that is misaligned. -/
theorem Did.initWrites {p : InitFields} {Q : Unit → State → Prop} (h : Did E b s es) (hp : p.Placed k x)
    (hrefused : ∀ a ∈ initRegisters k.vp, aligned a = false → ∀ t, E (.refuse .misaligned) t)
    (hk : (∀ a ∈ initRegisters k.vp, aligned a = true) →
      ∀ t, Did E (b.withVpen d false) t (p.events d k.vp ++ es) → wp (Machine.respond .ok 0) Q E t) :
    wp (Machine.initWrites d k x) Q E s := by
  simp only [initRegisters, List.forall_mem_cons] at hrefused hk
  obtain ⟨rconfig, rmin, rmax, rlimit, -⟩ := hrefused
  simp only [Machine.initWrites, wp_bind, wp_modify]
  refine h.line fun t ht => (ht.setVpen d false).line fun t ht => ht.setWork fun t ht => ht.line fun t ht => ?_
  refine Did.placeIn hp.off (ht.domWriteOr rconfig fun aconfig t ht => ht.line fun t ht => ?_)
  refine Did.placeIn hp.minWait (Did.placeIn hp.minStep (ht.domWriteOr rmin fun amin t ht => ht.line fun t ht => ?_))
  refine Did.placeIn hp.maxWait (Did.placeIn hp.maxStep (ht.domWriteOr rmax fun amax t ht => ht.line fun t ht => ?_))
  refine Did.placeIn hp.vmax (Did.placeIn hp.vmin (Did.placeIn hp.tmo (ht.domWriteOr rlimit fun alimit t ht => ?_)))
  exact ht.line (hk ⟨aconfig, amin, amax, alimit, nofun⟩)

theorem execVpInit_completes {p : InitFields} (hs : s.takesCommand) (hcaps : s.cfg.initCaps d = some k)
    (hp : p.Placed k (s.cfg.initValues k)) (ha : ∀ a ∈ initRegisters k.vp, aligned a = true) :
    Completes (.vpInit d) s fun t => Answered (.vpInit d) s t .ok 0 (p.events d k.vp) ∧
      Unchanged { s with vpen := s.vpen.set d.toNat false } t ∧
      OnlyStores s t [(.dom d, k.vp.vpconfig), (.dom d, k.vp.vstepmin), (.dom d, k.vp.vstepmax),
        (.dom d, k.vp.vlimitto)] := by
  refine completes_of_body rfl hs fun hstart => ?_
  simp only [hcaps, wp_bind]
  refine hstart.line fun u hu => hu.initWrites hp (fun a hmem hmis => ?_) fun _ u hu => ?_
  · exact absurd ((ha a hmem).symm.trans hmis) nofun
  · refine hu.respondEnds rfl rfl ?_ (p.stores d k.vp) fun _ _ hans hunchanged hstores => ⟨hans, hunchanged, hstores⟩
    exact ⟨rfl, rfl, rfl, rfl, hs.1.symm, rfl, rfl, rfl, rfl, rfl⟩

theorem execVpInit_refuses (hs : s.takesCommand) (hcaps : s.cfg.initCaps d = some k)
    (hmis : ¬∀ a ∈ initRegisters k.vp, aligned a = true) : Refuses (.vpInit d) s .misaligned := by
  obtain ⟨p, hp⟩ := admitted_initFields hs.2 hcaps
  refine command_refuses hs fun hstart => ?_
  simp only [hcaps, wp_bind]
  exact hstart.line fun u hu => hu.initWrites hp (fun _ _ _ _ => .inl rfl) fun ha => absurd ha hmis

theorem execVpInit_logs (hs : s.takesCommand) (hcaps : s.cfg.initCaps d = none) :
    Completes (.vpInit d) s fun t =>
      Answered (.vpInit d) s t .ok 0 [.log .configError d] ∧ Unchanged s t ∧ OnlyStores s t [] := by
  refine completes_of_body rfl hs fun hstart => ?_
  simp only [hcaps, wp_bind]
  exact hstart.line fun u hu => hu.logsOnly hs

/-- Settles O33: the body's four writes, refused at the first register that is misaligned; what is admitted fits. -/
theorem initWritesFourRegisters : Obligations.InitWritesFourRegisters := by
  refine ⟨fun s d hs => ⟨?_, fun hmissing => ?_⟩, ?_⟩
  · intro dom pmic vp vc vpp f g hd hpmic hf hg hread hwrite hvp hvc hvpp x
    have hcaps := initCaps_eq_some_iff.mpr
      ⟨dom, pmic, vp, vc, vpp, f, g, hd, hpmic, hf, hg, hread, hwrite, hvp, hvc, hvpp, rfl⟩
    obtain ⟨p, hp⟩ := admitted_initFields hs.2 hcaps
    refine ⟨fun hconfig hmin hmax hlimit => ?_, fun hmis => execVpInit_refuses hs hcaps fun ha => ?_⟩
    · exact ⟨p.off, p.minWait, p.minStep, p.maxWait, p.maxStep, p.vmax, p.vmin, p.tmo, hp.off, hp.minWait, hp.minStep,
        hp.maxWait, hp.maxStep, hp.vmax, hp.vmin, hp.tmo,
        execVpInit_completes hs hcaps hp (by simp [initRegisters, hconfig, hmin, hmax, hlimit])⟩
    · simp only [initRegisters, List.forall_mem_cons] at ha
      simp [ha] at hmis
  · refine execVpInit_logs hs (Option.eq_none_iff_forall_ne_some.mpr fun k h => ?_)
    obtain ⟨dom, pmic, vp, vc, vpp, f, g, hd, hpmic, hf, hg, hread, hwrite, hvp, hvc, hvpp, -⟩ :=
      initCaps_eq_some_iff.mp h
    exact hmissing ⟨dom, pmic, vp, vc, vpp, f, g, hd, hpmic, hf, hg, hread, hwrite, hvp, hvc, hvpp⟩
  · intro s d i dom pmic vp vc vpp f g hm hd hpmic hf hg hread hwrite hvp hvc hvpp x hunfit
    have hcaps := initCaps_eq_some_iff.mpr
      ⟨dom, pmic, vp, vc, vpp, f, g, hd, hpmic, hf, hg, hread, hwrite, hvp, hvc, hvpp, rfl⟩
    refine exec_configNotAdmitted hm (Bool.eq_false_iff.mpr fun hadm => ?_)
    obtain ⟨p, hp⟩ := admitted_initFields hadm hcaps
    simp [x, hp.off, hp.minWait, hp.minStep, hp.maxWait, hp.maxStep, hp.vmax, hp.vmin, hp.tmo] at hunfit

end Sys2Proof.Machine
end

section
/-! PROOFS. VP_ENABLE and VP_DISABLE (R176 to R178), by their bodies, line by line: one law for each of the two bodies,
from its first event to its response or to its refusal. -/

namespace Sys2Proof.Machine

variable {s t b : State} {i : Instr} {E : Stop → State → Prop} {es : List Event} {c : Config} {d : DomId} {dom : Dom}
  {vp : Vp} {f : PmicFn} {ok : Bool} {td : TD}

theorem enableCaps_eq_some_iff : c.enableCaps d = some (vp, f) ↔ ∃ dom pmic, HasDomain c d dom ∧
    dom.vp = some vp ∧ dom.hasRead = true ∧ dom.hasWrite = true ∧ dom.pmic = some pmic ∧ pmic.uvToVsel = some f := by
  simp only [Config.enableCaps, Option.bind_eq_bind, Option.bind_eq_some_iff, dom_iff, Option.ite_none_right_eq_some,
    Option.some.injEq, Prod.mk.injEq, Bool.and_eq_true]
  grind

theorem disableCaps_eq_some_iff : c.disableCaps d = some (dom, vp) ↔
    HasDomain c d dom ∧ dom.vp = some vp ∧ dom.hasRead = true ∧ dom.hasWrite = true := by
  simp only [Config.disableCaps, Option.bind_eq_bind, Option.bind_eq_some_iff, dom_iff, Option.ite_none_right_eq_some,
    Option.some.injEq, Prod.mk.injEq, Bool.and_eq_true]
  grind

/-! ### The reports of the waits (R200), in the terms of the state before the command -/

theorem reportedUnless_accept : (s.accept i).reportedUnless ok dom = (s.reportedUnless ok dom).accept i := by
  cases ok <;> rfl

theorem reportedUnless_mode : (s.reportedUnless ok dom).mode = s.mode := by cases ok <;> rfl

theorem reportedUnless_vpen : (s.reportedUnless ok dom).vpen = s.vpen := by cases ok <;> rfl

/-! ### VP_DISABLE (R178) -/

/-- An idle wait, where a misaligned status register is refused (R63). -/
theorem Did.waitIdleOr {Q : Bool → State → Prop} (h : Did E b s es) (hbudget : b.cfg.vpIdleBudget ≠ 0)
    (hrefused : aligned vp.vstatus = false → ∀ t, E (.refuse .misaligned) t)
    (hk : aligned vp.vstatus = true → ∀ ok w t, IdleWait b.cfg d vp ok w → Did E b t (w ++ es) → Q ok t) :
    wp (Machine.waitIdle d vp) Q E s := by
  cases ha : aligned vp.vstatus with
  | false => exact wp_waitIdle_misaligned (by rwa [h.cfg]) ha (hrefused ha)
  | true => exact h.waitIdle ha (hk ha)

/-- A read, where a misaligned address is refused (R63). -/
theorem Did.domReadOr {a : Addr} {Q : Word → State → Prop} (h : Did E b s es)
    (hrefused : aligned a = false → ∀ t, E (.refuse .misaligned) t)
    (hk : aligned a = true → ∀ v t, Did E b t (.domRead d a v :: es) → Q v t) : wp (Machine.domRead d a) Q E s := by
  cases ha : aligned a with
  | false => exact wp_domRead_misaligned ha (hrefused ha s)
  | true => exact h.domRead ha fun v t ht _ => hk ha v t ht

/-- The events of a VP_DISABLE of an enabled VP before its response (R178). -/
def disableEvents (s : State) (d : DomId) (dom : Dom) (vp : Vp) (idle : Bool) (wait : List Event) (v : Word)
    (idle' : Bool) (wait' : List Event) : List Event :=
  (s.reportedUnless idle dom).reportUnlessTrace idle' d dom vp ++ wait' ++
    .domWrite d vp.vpconfig (v &&& ~~~vp.cfgVpenable) :: .domRead d vp.vpconfig v ::
    s.reportUnlessTrace idle d dom vp ++ wait

theorem disableEvents_stores {idle idle' : Bool} {wait wait' : List Event} {v : Word} (hw : IdleWait c d vp idle wait)
    (hw' : IdleWait c d vp idle' wait') : ∀ w ∈ writesOf (disableEvents s d dom vp idle wait v idle' wait'),
      (w.port, w.addr) ∈ [(Port.dom d, vp.vpconfig)] := by
  have hwaits : writesOf wait = [] ∧ writesOf wait' = [] := ⟨hw.noWrites fun _ => rfl, hw'.noWrites fun _ => rfl⟩
  simp [disableEvents, writesOf_append, writesOf_cons, reportUnlessTrace_noWrites, hwaits, Event.written]

/-- Lines DS3 to DS7 of VP_DISABLE, to its response or to the register that is misaligned. -/
theorem Did.disableEnabled {Q : Unit → State → Prop} (h : Did E b s es) (hbudget : b.cfg.vpIdleBudget ≠ 0)
    (hstatus : aligned vp.vstatus = false → ∀ t, E (.refuse .misaligned) t)
    (hconfig : aligned vp.vpconfig = false → ∀ t, E (.refuse .misaligned) t)
    (hk : aligned vp.vstatus = true → aligned vp.vpconfig = true → ∀ idle wait v idle' wait' t,
      IdleWait b.cfg d vp idle wait → IdleWait b.cfg d vp idle' wait' →
      Did E (((b.reportedUnless idle dom).reportedUnless idle' dom).withVpen d false) t
        (disableEvents b d dom vp idle wait v idle' wait' ++ es) → wp (Machine.respond .ok 0) Q E t) :
    wp (Machine.disableEnabled d dom vp) Q E s := by
  simp only [Machine.disableEnabled, wp_bind, wp_modify]
  refine h.line fun t ht => ht.waitIdleOr hbudget hstatus fun astatus idle wait t hwait ht => ?_
  refine ht.reportUnless fun t ht => ht.line fun t ht => ht.domReadOr hconfig fun aconfig v t ht => ?_
  refine ht.setWork fun t ht => ht.domWrite aconfig fun t ht => ht.line fun t ht => ?_
  refine ht.waitIdle astatus fun idle' wait' t hwait' ht => ht.reportUnless fun t ht => ht.line fun t ht => ?_
  refine (ht.setVpen d false).line fun t ht => ?_
  refine hk astatus aconfig idle wait v idle' wait' t hwait ?_ ?_
  · rwa [reportedUnless_cfg] at hwait'
  · simpa [disableEvents] using ht

theorem execVpDisable_completes (hs : s.takesCommand) (hcaps : s.cfg.disableCaps d = some (dom, vp))
    (hon : s.vpenOf d = true) (hstatus : aligned vp.vstatus = true) (hconfig : aligned vp.vpconfig = true) :
    Completes (.vpDisable d) s fun t => ∃ idle wait v idle' wait', IdleWait s.cfg d vp idle wait ∧
      IdleWait s.cfg d vp idle' wait' ∧
      Answered (.vpDisable d) s t .ok 0 (disableEvents s d dom vp idle wait v idle' wait') ∧
      Unchanged { (s.reportedUnless idle dom).reportedUnless idle' dom with vpen := s.vpen.set d.toNat false } t ∧
      OnlyStores s t [(.dom d, vp.vpconfig)] := by
  refine completes_of_body rfl hs fun hstart => ?_
  simp only [hcaps, hon, if_true, wp_bind]
  refine hstart.line fun u hu => hu.line fun u hu => ?_
  refine hu.disableEnabled (admitted_budgets hs.2).2.1 (fun h => absurd (hstatus.symm.trans h) nofun)
    (fun h => absurd (hconfig.symm.trans h) nofun) fun _ _ idle wait v idle' wait' u hw hw' hu => ?_
  rw [disableEvents, reportUnlessTrace_accept, reportUnlessTrace_accept_twice, reportedUnless_accept,
    reportedUnless_accept, List.append_nil] at hu
  have hvpen : ((s.reportedUnless idle dom).reportedUnless idle' dom).vpen = s.vpen :=
    reportedUnless_vpen.trans reportedUnless_vpen
  have hmode : ((s.reportedUnless idle dom).reportedUnless idle' dom).mode = .ready :=
    reportedUnless_mode.trans (reportedUnless_mode.trans hs.1)
  refine hu.respondEnds rfl ?_ ?_ (disableEvents_stores hw hw') fun t _ hans hunchanged hstores =>
    ⟨idle, wait, v, idle', wait', hw, hw', hans, hunchanged, hstores⟩
  · exact (reportedUnless_events _ _ _).trans (reportedUnless_events s idle dom)
  · exact ⟨rfl, congrArg (·.set d.toNat false) hvpen, rfl, rfl, hmode.symm, rfl, rfl, rfl, rfl, rfl⟩

theorem execVpDisable_refuses (hs : s.takesCommand) (hcaps : s.cfg.disableCaps d = some (dom, vp))
    (hon : s.vpenOf d = true) (hmis : aligned vp.vstatus = false ∨ aligned vp.vpconfig = false) :
    Refuses (.vpDisable d) s .misaligned := by
  refine command_refuses hs fun hstart => ?_
  simp only [hcaps, hon, if_true, wp_bind]
  refine hstart.line fun u hu => hu.line fun u hu => ?_
  refine hu.disableEnabled (admitted_budgets hs.2).2.1 (fun _ _ => .inl rfl) (fun _ _ => .inl rfl) ?_
  intro hstatus hconfig
  simp [hstatus, hconfig] at hmis

/-- Settles O43: one law of lines DS3 to DS7 for both ends; the other two branches log and respond. -/
theorem disableDisarmsTheVp : Obligations.DisableDisarmsTheVp := by
  intro s d hs
  refine ⟨fun dom vp hd hvp hread hwrite => ?_, fun hmissing => ?_⟩
  · have hcaps := disableCaps_eq_some_iff.mpr ⟨hd, hvp, hread, hwrite⟩
    refine ⟨fun hoff => ?_, execVpDisable_completes hs hcaps, execVpDisable_refuses hs hcaps⟩
    refine completes_of_body rfl hs fun hstart => ?_
    simp only [hcaps, hoff, Bool.false_eq_true, if_false, wp_bind]
    exact hstart.line fun u hu => hu.line fun u hu => hu.logsOnly hs
  · have hcaps : s.cfg.disableCaps d = none := Option.eq_none_iff_forall_ne_some.mpr fun ⟨dom, vp⟩ h =>
      hmissing ⟨dom, vp, disableCaps_eq_some_iff.mp h⟩
    refine completes_of_body rfl hs fun hstart => ?_
    simp only [hcaps, wp_bind]
    exact hstart.line fun u hu => hu.logsOnly hs

/-! ### VP_ENABLE (R176) -/

/-- The pulse, where a misaligned register and a selector that does not fit are refused (R63, R13). -/
theorem Did.setInitVoltageOr {volt : Word} {Q : Word → State → Prop} (h : Did E b s es)
    (hmis : aligned vp.vpconfig = false → ∀ t, E (.refuse .misaligned) t)
    (hover : aligned vp.vpconfig = true → place (f.apply volt).toNat vp.cfgInitvoltage = none →
      ∀ t, E (.refuse .fieldOverflow) t)
    (hk : aligned vp.vpconfig = true → ∀ sel, place (f.apply volt).toNat vp.cfgInitvoltage = some sel →
      ∀ v t, Did E b t (pulseTrace d vp v sel ++ es) → Q (pulseValue vp v sel) t) :
    wp (Machine.setInitVoltage d vp f volt) Q E s := by
  cases ha : aligned vp.vpconfig with
  | false => exact wp_setInitVoltage_misaligned ha (hmis ha)
  | true =>
  cases hplaced : place (f.apply volt).toNat vp.cfgInitvoltage with
  | none => exact h.setInitVoltage_overflow ha hplaced (hover ha hplaced)
  | some sel => exact h.setInitVoltage ha hplaced (hk ha sel hplaced)

theorem HostAnswers.exists_lookupGives (h : HostAnswers) : ∃ r h', h.LookupGives r h' := by
  cases hl : h.lookup with
  | nil => exact ⟨none, h, by simp [LookupGives, hl]⟩
  | cons r rest => exact ⟨r, { h with lookup := rest }, by simp [LookupGives, hl]⟩

/-- The events of a VP_ENABLE that armed the VP before its response (R176). -/
def enableEvents (d : DomId) (vp : Vp) (td : TD) (v sel : Word) : List Event :=
  .domWrite d vp.vpconfig (pulseValue vp v sel ||| vp.cfgVpenable) :: pulseTrace d vp v sel ++
    [.call (.getCurrentVoltageData d (some td))]

theorem enableEvents_stores {v sel : Word} :
    ∀ w ∈ writesOf (enableEvents d vp td v sel), (w.port, w.addr) ∈ [(Port.dom d, vp.vpconfig)] := by
  simp [enableEvents, pulseTrace, writesOf, Event.written]

/-- The selector of a target descriptor, placed in the initial-voltage field (R160, R163). -/
def placedSelector (c : Config) (f : PmicFn) (td : TD) (vp : Vp) : Option Word :=
  place (f.apply (c.operationVoltage td)).toNat vp.cfgInitvoltage

/-- Why the pulse to the voltage of a target descriptor is refused (R63, R13). -/
def PulseRefused (c : Config) (td : TD) (vp : Vp) (f : PmicFn) (x : Refusal) : Prop :=
  aligned vp.vpconfig = false ∧ x = .misaligned ∨
    aligned vp.vpconfig = true ∧ placedSelector c f td vp = none ∧ x = .fieldOverflow

/-- How VP_ENABLE of a disabled VP ends: without data it logs, with data it arms the VP (R176). -/
def EnableEnds (s : State) (d : DomId) (vp : Vp) (f : PmicFn) (t : State) : Prop :=
  ∃ host, (s.host.LookupGives none host ∧
      Answered (.vpEnable d) s t .ok 0 [.log .configError d, .call (.getCurrentVoltageData d none)] ∧
      Unchanged { s with host := host } t ∧ OnlyStores s t []) ∨
    ∃ td sel v, s.host.LookupGives (some td) host ∧ aligned vp.vpconfig = true ∧
      placedSelector s.cfg f td vp = some sel ∧ Answered (.vpEnable d) s t .ok 0 (enableEvents d vp td v sel) ∧
      Unchanged { s with vpen := s.vpen.set d.toNat true, host := host } t ∧ OnlyStores s t [(.dom d, vp.vpconfig)]

/-- VP_ENABLE of a disabled VP ends in one of the two ways, or is refused. -/
theorem execVpEnable_ends (hs : s.takesCommand) (hcaps : s.cfg.enableCaps d = some (vp, f))
    (hoff : s.vpenOf d = false) :
    (∃ t, exec (.vpEnable d) s = .next t ∧ (EnableEnds s d vp f t ∨ CutShort s t)) ∨
      ∃ x, exec (.vpEnable d) s = .refused x ∧
        ∃ td host, s.host.LookupGives (some td) host ∧ PulseRefused s.cfg td vp f x := by
  refine command_ends hs (fun _ hx => exec_framed (i := .vpEnable d) hx) fun hstart => ?_
  simp only [hcaps, hoff, Bool.false_eq_true, if_false, enableDisabled, wp_bind]
  refine hstart.line fun u hu => hu.line fun u hu => hu.line fun u hu => hu.callLookup fun r host u hr hu => ?_
  cases r with
  | none =>
    simp only [wp_bind]
    refine hu.log fun u hu => hu.respondEnds rfl rfl ?_ nofun fun t _ hans hunchanged hstores =>
      ⟨host, .inl ⟨hr, hans, hunchanged, hstores⟩⟩
    exact ⟨rfl, rfl, rfl, rfl, hs.1.symm, rfl, rfl, rfl, rfl, rfl⟩
  | some td =>
    simp only [wp_bind, wp_get, wp_modify]
    refine hu.line fun u hu => ?_
    rw [hu.cfg]
    refine hu.setInitVoltageOr (fun ha _ => .inl ⟨_, rfl, td, host, hr, .inl ⟨ha, rfl⟩⟩)
      (fun ha hplaced _ => .inl ⟨_, rfl, td, host, hr, .inr ⟨ha, hplaced, rfl⟩⟩) fun ha sel hplaced v u hu => ?_
    refine hu.line fun u hu => hu.domWrite ha fun u hu => ?_
    refine hu.line fun u hu => (hu.setVpen d true).line fun u hu => ?_
    refine hu.respondEnds rfl rfl ?_ enableEvents_stores fun t _ hans hunchanged hstores =>
      ⟨host, .inr ⟨td, sel, v, hr, ha, hplaced, hans, hunchanged, hstores⟩⟩
    exact ⟨rfl, rfl, rfl, rfl, hs.1.symm, rfl, rfl, rfl, rfl, rfl⟩

/-- VP_ENABLE of an enabled VP makes no event but its response. -/
theorem execVpEnable_enabled (hs : s.takesCommand) (hcaps : s.cfg.enableCaps d = some (vp, f))
    (hon : s.vpenOf d = true) : Completes (.vpEnable d) s fun t =>
      Answered (.vpEnable d) s t .ok 0 [] ∧ Unchanged s t ∧ OnlyStores s t [] := by
  refine completes_of_body rfl hs fun hstart => ?_
  simp only [hcaps, hon, if_true, wp_bind]
  refine hstart.line fun u hu => hu.line fun u hu => ?_
  exact hu.respondOnly hs nofun fun _ _ hans hunchanged hstores => ⟨hans, hunchanged, hstores⟩

/-- Settles O41: the lookup's answer is the one that the command's end shows, and any where a reset cut it; the other
two branches respond, or log and respond. -/
theorem enableArmsTheVp : Obligations.EnableArmsTheVp := by
  intro s d hs
  refine ⟨fun dom vp pmic f hd hvp hread hwrite hpmic hf => ?_, fun hmissing => ?_⟩
  · have hcaps := enableCaps_eq_some_iff.mpr ⟨dom, pmic, hd, hvp, hread, hwrite, hpmic, hf⟩
    refine ⟨execVpEnable_enabled hs hcaps, fun hoff => ?_⟩
    obtain ⟨t, hx, ⟨host, ⟨hr, hend⟩ | ⟨td, sel, v, hr, ha, hplaced, hend⟩⟩ | hcut⟩ | ⟨x, hx, td, host, hr, hwhy⟩ :=
      execVpEnable_ends hs hcaps hoff
    · exact ⟨none, host, hr, fun _ => ⟨t, hx, .inl hend⟩, nofun⟩
    · refine ⟨some td, host, hr, nofun, fun _ htd => ?_⟩
      cases htd
      exact ⟨fun _ sel' hsel => ⟨t, hx, .inl ⟨v, Option.some.inj (hplaced.symm.trans hsel) ▸ hend⟩⟩,
        fun _ hnone => absurd (hplaced.symm.trans hnone) nofun, fun hmis => absurd (ha.symm.trans hmis) nofun⟩
    · obtain ⟨r, host, hr⟩ := s.host.exists_lookupGives
      exact ⟨r, host, hr, fun _ => ⟨t, hx, .inr hcut⟩, fun td _ => ⟨fun _ _ _ => ⟨t, hx, .inr hcut⟩,
        fun _ _ => .inr ⟨t, hx, hcut⟩, fun _ => .inr ⟨t, hx, hcut⟩⟩⟩
    · refine ⟨some td, host, hr, nofun, fun _ htd => ?_⟩
      cases htd
      obtain ⟨hmis, rfl⟩ | ⟨ha, hplaced, rfl⟩ := hwhy
      · exact ⟨fun ha => absurd (ha.symm.trans hmis) nofun, fun ha => absurd (ha.symm.trans hmis) nofun,
          fun _ => .inl hx⟩
      · exact ⟨fun _ sel hsel => absurd (hplaced.symm.trans hsel) nofun, fun _ _ => .inl hx,
          fun hmis => absurd (ha.symm.trans hmis) nofun⟩
  · have hcaps : s.cfg.enableCaps d = none := Option.eq_none_iff_forall_ne_some.mpr fun ⟨vp, f⟩ h => by
      obtain ⟨dom, pmic, h⟩ := enableCaps_eq_some_iff.mp h
      exact hmissing ⟨dom, vp, pmic, f, h⟩
    refine completes_of_body rfl hs fun hstart => ?_
    simp only [hcaps, wp_bind]
    exact hstart.line fun u hu => hu.logsOnly hs

/-! ### VP_ENABLE twice (R177) -/

/-- A command that goes through no partition leaves READY, by its response or by the reset that cuts it. -/
theorem exec_ready_after (hi : usesPartition i = false) (hx : exec i s = .next t) : t.mode = .ready := by
  have kept : Kept (fun _ => False) (fun _ => True) fun u => u.mode = .ready :=
    .of (R := fun u => u.mode = .ready) (fun _ h => h) (fun _ _ _ _ => trivial) (fun _ _ h hu => h.mode.trans hu)
      (fun _ _ h _ => h.mode) (fun _ _ h _ => h.mode) (fun _ _ _ _ _ => trivial) (fun _ _ _ _ _ _ => trivial)
      (fun _ _ _ => trivial) (fun _ _ h => h.elim) (fun _ _ _ _ => rfl)
  exact kept.exec (fun hp => absurd (hi.symm.trans hp) nofun) (fun _ _ _ _ => trivial) (fun _ _ _ _ => trivial)
    (fun _ _ _ _ => trivial) (fun _ _ _ _ _ _ => trivial)
    (fun _ => kept.reportError (fun _ _ _ => trivial) fun _ _ _ => trivial) trivial hx

/-- Settles O42: after the first VP_ENABLE the block is in READY, with the same configuration and the VP enabled. -/
theorem enableTwiceWritesOnce : Obligations.EnableTwiceWritesOnce := by
  intro s t d hs hx hcaps hon
  obtain ⟨⟨vp, f⟩, hcaps⟩ := Option.ne_none_iff_exists'.mp hcaps
  have hcfg := exec_cfg hx
  have hready : t.takesCommand := ⟨exec_ready_after rfl hx, by rw [hcfg]; exact hs.2⟩
  obtain ⟨u, hu, hend⟩ := execVpEnable_enabled hready (by rwa [hcfg]) hon
  refine ⟨u, hu, hend.imp_left fun ⟨hans, hunchanged, _⟩ => ⟨hans.events, ?_⟩⟩
  rwa [State.vpenOf, hunchanged.vpen]

end Sys2Proof.Machine
end

section
/-! PROOFS. VP_SCALE (R170 to R175): its arguments, and its four ends, each with the events, counters, VPSTATE and
stores that its lines leave. -/

namespace Sys2Proof.Machine

variable {s u : State} {i : Instr} {E : Stop → State → Prop} {es : List Event} {c : Config} {d : DomId}
  {dom : Dom} {vp : Vp} {f : PmicFn} {td : TD} {host : HostAnswers} {volt tsel csel : Word}

/-! ### The arguments (R170, R171, R180) -/

theorem scaleCaps_eq_some_iff :
    c.scaleCaps d = some (dom, vp) ↔ HasDomain c d dom ∧ dom.hasWrite = true ∧ dom.vp = some vp := by
  simp only [Config.scaleCaps, Option.bind_eq_bind, Option.bind_eq_some_iff, dom_iff, Option.ite_none_right_eq_some,
    Option.some.injEq, Prod.mk.injEq]
  grind

theorem scaleRelied_eq_some_iff : scaleRelied dom = some f ↔
    ∃ pmic, dom.hasRead = true ∧ dom.pmic = some pmic ∧ pmic.uvToVsel = some f := by
  simp only [scaleRelied, Option.bind_eq_bind, Option.bind_eq_some_iff, Option.ite_none_right_eq_some,
    Option.some.injEq]
  grind

/-- The state inside a VP_SCALE: the registers of `s`, but for the latch, MODE, VPSTATE and HOST's answers. -/
def scaling (i : Instr) (s : State) (host : HostAnswers) (x : VpState) : State :=
  { s.accept i with vpstate := x, host := host }

theorem Did.setScaling {x : VpState} (h : Did E (scaling i s host x) u es) (y : VpState) :
    Did E (scaling i s host y) { u with vpstate := y } es := h.setVpstate y

/-- The report of a best-effort phase, inside a VP_SCALE. -/
theorem Did.reportScaling {x : VpState} {ok : Bool} {Q : Unit → State → Prop} (h : Did E (scaling i s host x) u es)
    (k : ∀ t, Did E (scaling i (s.reportedUnless ok dom) host x) t (s.reportUnlessTrace ok d dom vp ++ es) → Q () t) :
    wp (Machine.reportUnless ok d dom vp) Q E u :=
  h.reportUnless fun t ht => k t (by cases ok <;> exact ht)

/-- The response to a VP_SCALE that left the counters of `r`. -/
theorem Did.respondScaling {r : State} {x : VpState} {st : Status} {v : Word} {l : List (Port × Addr)}
    {good : State → Prop} (h : Did E (scaling i r host x) u es) (hm : r.mode = .ready) (he : r.events = s.events)
    (hw : ∀ w ∈ writesOf es, (w.port, w.addr) ∈ l)
    (k : ∀ t, Answered i s t st v es → Unchanged { r with vpstate := x, host := host } t → OnlyStores s t l → good t) :
    wp (Machine.respond st v) (fun _ t => (s.undisturbed → Framed s t) → good t) E u :=
  have hkept : Unchanged { r with vpstate := x, host := host } { scaling i r host x with mode := .ready } :=
    ⟨rfl, rfl, rfl, rfl, hm.symm, rfl, rfl, rfl, rfl, rfl⟩
  h.respondEnds rfl he hkept hw fun t _ => k t

/-- Settles O38: lines S0 and S1 test the arguments before they rely on anything. -/
theorem scaleChecksItsArguments : Obligations.ScaleChecksItsArguments := by
  intro s d td hs
  refine ⟨fun hinvalid => ?_, fun dom vp htd hd hwrite hvp hlacks => command_refused hs.1 hs.2 ?_⟩
  · refine completes_of_body rfl hs fun hstart => ?_
    simp only [wp_bind, wp_setVpstate]
    refine hstart.line fun u hu => (hu.setVpstate .idle).line fun u hu => ?_
    split
    next dom vp td hcaps _ =>
      exact (hinvalid.resolve_left nofun ⟨dom, vp, scaleCaps_eq_some_iff.mp hcaps⟩).elim
    next =>
      simp only [wp_bind, wp_setVpstate]
      exact (hu.setScaling (host := s.host) _).respondScaling hs.1 rfl nofun fun _ hans hunchanged hstores =>
        ⟨hans, hunchanged, hstores⟩
  · have hrelied : scaleRelied dom = none := Option.eq_none_iff_forall_ne_some.mpr fun f h => by
      obtain ⟨pmic, h⟩ := scaleRelied_eq_some_iff.mp h
      exact hlacks ⟨pmic, f, h⟩
    obtain ⟨td, rfl⟩ := Option.ne_none_iff_exists'.mp htd
    simp only [wp_bind, wp_line, wp_setVpstate, scaleCaps_eq_some_iff.mpr ⟨hd, hwrite, hvp⟩, hrelied, wp_refuse]

/-! ### The ends that store nothing (R171, R172) -/

/-- A timeout at step 2 or 4: reported, then answered. -/
theorem Did.scaleTimeoutEnds {x : VpState} {good : State → Prop} (h : Did E (scaling i s host x) u es)
    (hs : s.takesCommand) (hes : writesOf es = [])
    (k : ∀ t, Answered i s t .timeout 0 (s.reportTrace d dom vp ++ es) →
      Unchanged { s.reported dom with vpstate := .failed .timeout, host := host } t → OnlyStores s t [] → good t) :
    wp (Machine.scaleTimeout d dom vp) (fun _ t => (s.undisturbed → Framed s t) → good t) E u := by
  simp only [Machine.scaleTimeout, wp_bind, wp_setVpstate]
  refine h.reportScaling (ok := false) fun u hu => (hu.setScaling _).respondScaling hs.1 rfl ?_ k
  simp [writesOf_append, reportUnlessTrace_noWrites, hes]

/-! ### The ramp (R170, R173, R174) -/

/-- What steps 5 to 11 found: the configuration register, its selector, and how the waits of steps 7 and 9 went. -/
structure Ramp where
  sel : Word
  read : Word
  done : Bool
  tx : List Event
  cleared : Bool
  clear : List Event

/-- The ramp to `volt` can be: the selector fits, and the waits are those of the rules. -/
structure Ramp.Valid (r : Ramp) (c : Config) (vp : Vp) (f : PmicFn) (volt : Word) : Prop where
  aligned : aligned vp.vpconfig = true
  placed : place (f.apply volt).toNat vp.cfgInitvoltage = some r.sel
  tx : TxWait c vp r.done r.tx
  clear : ClearTrace c vp r.cleared r.clear

/-- The counters after the ramp (R174). -/
def Ramp.reported (r : Ramp) (s : State) (dom : Dom) : State :=
  (s.reportedUnless r.done dom).reportedUnless r.cleared dom

/-- The events of steps 5 to 10, newest first. -/
def Ramp.events (r : Ramp) (s : State) (d : DomId) (dom : Dom) (vp : Vp) (td : TD) (volt tsel csel : Word) :
    List Event :=
  .domWrite d vp.vpconfig (pulseValue vp r.read r.sel) ::
    (s.reportedUnless r.done dom).reportUnlessTrace r.cleared d dom vp ++ r.clear ++
    .call (.postScale d volt td tsel csel) :: s.reportUnlessTrace r.done d dom vp ++ r.tx ++
    .domWrite d vp.vpconfig (pulseValue vp r.read r.sel ||| vp.cfgForceupdate) :: pulseTrace d vp r.read r.sel

theorem writesOf_nil : writesOf [] = [] := rfl

/-- The ramp writes the configuration register exactly five times. -/
theorem Ramp.Valid.writesOf_events {r : Ramp} (h : r.Valid c vp f volt) :
    writesOf (r.events s d dom vp td volt tsel csel) = [⟨.dom d, vp.vpconfig, pulseValue vp r.read r.sel⟩,
      ⟨.dom d, vp.vpconfig, pulseValue vp r.read r.sel ||| vp.cfgForceupdate⟩,
      ⟨.dom d, vp.vpconfig, pulseValue vp r.read r.sel⟩,
      ⟨.dom d, vp.vpconfig, pulseValue vp r.read r.sel ||| vp.cfgInitvdd⟩,
      ⟨.dom d, vp.vpconfig, pulseValue vp r.read r.sel⟩] := by
  have hwaits : writesOf r.tx = [] ∧ writesOf r.clear = [] := ⟨h.tx.noWrites fun _ => rfl, h.clear.noWrites⟩
  simp [Ramp.events, pulseTrace, writesOf_append, writesOf_cons, reportUnlessTrace_noWrites, hwaits, Event.written,
    writesOf_nil]

/-- Steps 5 to 11, to the response or to the refusal at step 5. -/
theorem Did.scaleRampEnds {x : VpState} {good : State → Prop} (h : Did E (scaling i s host x) u es)
    (hs : s.takesCommand) (hes : writesOf es = [])
    (hmis : aligned vp.vpconfig = false → ∀ t, E (.refuse .misaligned) t)
    (hover : aligned vp.vpconfig = true → place (f.apply volt).toNat vp.cfgInitvoltage = none →
      ∀ t, E (.refuse .fieldOverflow) t)
    (k : ∀ r t, Ramp.Valid r s.cfg vp f volt → Answered i s t .ok 0 (r.events s d dom vp td volt tsel csel ++ es) →
      Unchanged { r.reported s dom with vpstate := .idle, host := host } t →
      OnlyStores s t [(.dom d, vp.vpconfig)] → good t) :
    wp (Machine.scaleRamp d dom vp f td volt tsel csel) (fun _ t => (s.undisturbed → Framed s t) → good t) E u := by
  simp only [Machine.scaleRamp, wp_bind, wp_setVpstate, wp_get]
  refine h.line fun u hu => (hu.setScaling _).setInitVoltageOr hmis hover fun ha sel hplaced v u hu => ?_
  refine hu.line fun u hu => hu.domWrite ha fun u hu => (hu.setScaling .transactionPending).line fun u hu => ?_
  rw [hu.cfg]
  refine hu.txWait fun done tx u htx hu => hu.reportScaling fun u hu => hu.line fun u hu => ?_
  refine hu.callPostScale fun u hu => hu.line fun u hu => hu.clearTxDone fun cleared clear u hclear hu => ?_
  refine hu.reportScaling fun u hu => hu.line fun u hu => hu.domWrite ha fun u hu => hu.line fun u hu => ?_
  replace hclear : ClearTrace (s.reportedUnless done dom).cfg vp cleared clear := hclear
  rw [reportedUnless_cfg] at hclear
  have hvalid : (Ramp.mk sel v done tx cleared clear).Valid s.cfg vp f volt := ⟨ha, hplaced, htx, hclear⟩
  have hend : Did E (scaling i ((s.reportedUnless done dom).reportedUnless cleared dom) host .transactionPending) u
      ((Ramp.mk sel v done tx cleared clear).events s d dom vp td volt tsel csel ++ es) := by
    simpa [Ramp.events] using hu
  refine (hend.setScaling .idle).respondScaling ?_ ?_ ?_ fun t => k _ t hvalid
  · exact reportedUnless_mode.trans (reportedUnless_mode.trans hs.1)
  · exact (reportedUnless_events _ _ _).trans (reportedUnless_events _ _ _)
  · simp [writesOf_append, hvalid.writesOf_events, hes]

/-! ### The four ends (R170) -/

/-- How VP_SCALE of a valid domain ends where no reset comes and nothing is refused (R170 to R174). -/
inductive ScaleEnds (s : State) (d : DomId) (td : TD) (dom : Dom) (vp : Vp) (f : PmicFn) (t : State) : Prop where
  | idleTimeout (wait : List Event) (hwait : IdleWait s.cfg d vp false wait)
      (hans : Answered (.vpScale d (some td)) s t .timeout 0 (s.reportTrace d dom vp ++ wait))
      (hunchanged : Unchanged { s.reported dom with vpstate := .failed .timeout } t) (hstores : OnlyStores s t [])
  | hookError (wait : List Event) (e : Word) (host : HostAnswers) (hwait : IdleWait s.cfg d vp true wait)
      (hhook : s.host.PreScaleGives (.err e) host)
      (hans : Answered (.vpScale d (some td)) s t .hookError e
        (.call (.preScale d (s.cfg.operationVoltage td) td (.err e)) :: wait))
      (hunchanged : Unchanged { s with vpstate := .failed .hookError, host := host } t) (hstores : OnlyStores s t [])
  | clearTimeout (wait : List Event) (tsel csel : Word) (host : HostAnswers) (clear : List Event)
      (hwait : IdleWait s.cfg d vp true wait) (hhook : s.host.PreScaleGives (.ok tsel csel) host)
      (hclear : ClearTrace s.cfg vp false clear)
      (hans : Answered (.vpScale d (some td)) s t .timeout 0 (s.reportTrace d dom vp ++ clear ++
        .call (.preScale d (s.cfg.operationVoltage td) td (.ok tsel csel)) :: wait))
      (hunchanged : Unchanged { s.reported dom with vpstate := .failed .timeout, host := host } t)
      (hstores : OnlyStores s t [])
  | ramped (wait : List Event) (tsel csel : Word) (host : HostAnswers) (clear : List Event) (r : Ramp)
      (hwait : IdleWait s.cfg d vp true wait) (hhook : s.host.PreScaleGives (.ok tsel csel) host)
      (hclear : ClearTrace s.cfg vp true clear) (hvalid : r.Valid s.cfg vp f (s.cfg.operationVoltage td))
      (hans : Answered (.vpScale d (some td)) s t .ok 0
        (r.events s d dom vp td (s.cfg.operationVoltage td) tsel csel ++ clear ++
          .call (.preScale d (s.cfg.operationVoltage td) td (.ok tsel csel)) :: wait))
      (hunchanged : Unchanged { r.reported s dom with vpstate := .idle, host := host } t)
      (hstores : OnlyStores s t [(.dom d, vp.vpconfig)])

/-- Steps 3 to 11, after an idle wait that found the VP idle. -/
theorem Did.scaleIdleEnds {wait : List Event} (h : Did E (scaling (.vpScale d (some td)) s s.host .idle) u wait)
    (hs : s.takesCommand) (hwait : IdleWait s.cfg d vp true wait)
    (hrefused : ∀ x t, PulseRefused s.cfg td vp f x → E (.refuse x) t) :
    wp (Machine.scaleIdle d dom vp f td) (fun _ t => (s.undisturbed → Framed s t) → ScaleEnds s d td dom vp f t)
      E u := by
  have hwaits : writesOf wait = [] := hwait.noWrites fun _ => rfl
  simp only [Machine.scaleIdle, wp_bind, wp_get]
  refine h.line fun u hu => ?_
  rw [show u.cfg = s.cfg from hu.cfg]
  refine hu.setWork fun u hu => hu.callPreScale fun r host u hhook hu => ?_
  cases r with
  | err e =>
    simp only [wp_bind, wp_setVpstate]
    exact (hu.setScaling (.failed .hookError)).respondScaling hs.1 rfl (by simp [writesOf_cons, Event.written, hwaits])
      fun t => .hookError wait e host hwait hhook
  | ok tsel csel =>
    simp only [wp_bind]
    refine hu.setWork fun u hu => hu.line fun u hu => hu.clearTxDone fun cleared clear u hclear hu => ?_
    have hwrites := hclear.noWrites
    cases cleared with
    | false =>
      refine hu.scaleTimeoutEnds hs ?_ fun t hans =>
        .clearTimeout wait tsel csel host clear hwait hhook hclear (by simpa using hans)
      simp [writesOf_append, writesOf_cons, Event.written, hwaits, hwrites]
    | true =>
      refine hu.scaleRampEnds hs ?_ (fun ha t => hrefused _ t (.inl ⟨ha, rfl⟩))
        (fun ha hplaced t => hrefused _ t (.inr ⟨ha, hplaced, rfl⟩)) fun r t hvalid hans =>
          .ramped wait tsel csel host clear r hwait hhook hclear hvalid (by simpa using hans)
      simp [writesOf_append, writesOf_cons, Event.written, hwaits, hwrites]

theorem execVpScale_ends (hs : s.takesCommand) (hcaps : s.cfg.scaleCaps d = some (dom, vp))
    (hrelied : scaleRelied dom = some f) (hstatus : aligned vp.vstatus = true) :
    (∃ t, exec (.vpScale d (some td)) s = .next t ∧ (ScaleEnds s d td dom vp f t ∨ CutShort s t)) ∨
      ∃ x, exec (.vpScale d (some td)) s = .refused x ∧ PulseRefused s.cfg td vp f x := by
  refine command_ends hs (fun _ hx => exec_framed (i := .vpScale d (some td)) hx) fun hstart => ?_
  simp only [hcaps, hrelied, wp_bind, wp_setVpstate]
  refine hstart.line fun u hu => (hu.setVpstate .idle).line fun u hu => hu.line fun u hu => ?_
  refine hu.waitIdle hstatus fun idle wait u hwait hu => ?_
  replace hu : Did _ (scaling (.vpScale d (some td)) s s.host .idle) u wait := List.append_nil wait ▸ hu
  cases idle with
  | false => exact hu.scaleTimeoutEnds hs (hwait.noWrites fun _ => rfl) fun t => .idleTimeout wait hwait
  | true => exact hu.scaleIdleEnds hs hwait fun x t hx => .inl ⟨x, rfl, hx⟩

/-- A misaligned status register is refused at the idle wait (R63). -/
theorem execVpScale_misaligned (hs : s.takesCommand) (hcaps : s.cfg.scaleCaps d = some (dom, vp))
    (hrelied : scaleRelied dom = some f) (hstatus : aligned vp.vstatus = false) :
    exec (.vpScale d (some td)) s = .refused .misaligned := by
  refine command_refused hs.1 hs.2 ?_
  simp only [hcaps, hrelied, wp_bind, wp_line, wp_setVpstate]
  exact wp_waitIdle_misaligned (admitted_budgets hs.2).2.1 hstatus fun _ => rfl

/-- Settles O39: the four ends of the body, its refusals at the idle wait and at step 5, and the reset that cuts it. -/
theorem scaleRunsTheProtocol : Obligations.ScaleRunsTheProtocol := by
  intro s d td dom vp pmic f hs hd hwrite hvp hread hpmic hf i volt placed
  have hcaps := scaleCaps_eq_some_iff.mpr ⟨hd, hwrite, hvp⟩
  have hrelied := scaleRelied_eq_some_iff.mpr ⟨pmic, hread, hpmic, hf⟩
  refine ⟨execVpScale_misaligned hs hcaps hrelied, fun hstatus => ?_⟩
  obtain ⟨t, hx, hend | hcut⟩ | ⟨x, hx, hwhy⟩ := execVpScale_ends (td := td) hs hcaps hrelied hstatus
  · cases hend with
    | idleTimeout wait hwait hans hunchanged hstores =>
      exact .inl ⟨t, wait, hx, hwait, hans, hunchanged, hstores⟩
    | hookError wait e host hwait hhook hans hunchanged hstores =>
      exact .inr (.inl ⟨t, wait, e, host, hx, hwait, hhook, hans, hunchanged, hstores⟩)
    | clearTimeout wait tsel csel host clear hwait hhook hclear hans hunchanged hstores =>
      exact .inr (.inr (.inl ⟨t, wait, tsel, csel, host, clear, hx, hwait, hhook, hclear, hans, hunchanged, hstores⟩))
    | ramped wait tsel csel host clear r hwait hhook hclear hvalid hans hunchanged hstores =>
      exact .inr (.inr (.inr (.inl ⟨t, wait, tsel, csel, host, clear, r.sel, r.read, r.done, r.tx, r.cleared, r.clear,
        hvalid.aligned, hvalid.placed, hx, hwait, hhook, hclear, hvalid.tx, hvalid.clear, hans, hunchanged, hstores⟩)))
  · exact .inr (.inr (.inr (.inr (.inr (.inr ⟨t, hx, hcut⟩)))))
  · obtain ⟨ha, rfl⟩ | ⟨ha, hplaced, rfl⟩ := hwhy
    · exact .inr (.inr (.inr (.inr (.inl ⟨ha, hx⟩))))
    · exact .inr (.inr (.inr (.inr (.inr (.inl ⟨ha, hplaced, hx⟩)))))

end Sys2Proof.Machine
end

section
/-! PROOFS. VP_SCALE completes (R170 to R173, testable property S5): `Ahead E b s es rest` is `Did E b s es` with the
turns `rest` ahead, for the turns before step 5, in which nobody moves; then the ramp, whatever the others do. -/

namespace Sys2Proof.Machine

variable {s b : State} {E : Stop → State → Prop} {es : List Event} {c : Config} {d : DomId}
  {dom : Dom} {vp : Vp} {f : PmicFn} {td : TD} {volt tsel csel : Word}
  {rest : List (List Move)} {ok : Bool}

/-! ### Quiet turns -/

/-- As `Did`, with the turns `rest` ahead. -/
structure Ahead (E : Stop → State → Prop) (b s : State) (es : List Event) (rest : List (List Move)) : Prop
    extends Did E b s es where
  ahead : s.script = rest

/-- Passing lines and setting working registers. -/
theorem Ahead.lines (h : Ahead E b s es rest) (p : Option Phase) (w : Work) :
    Ahead E b { s with phase := p, work := w } es rest := ⟨(h.toDid.phase p).work w, h.ahead⟩

theorem Ahead.line {l : Label} {Q : Unit → State → Prop} (h : Ahead E b s es rest)
    (k : ∀ t, Ahead E b t es rest → Q () t) : wp (line l) Q E s := k _ (h.lines _ s.work)

theorem Ahead.subLine {l : SubLabel} {Q : Unit → State → Prop} (h : Ahead E b s es rest)
    (k : ∀ t, Ahead E b t es rest → Q () t) : wp (subLine l) Q E s := k _ (h.lines _ s.work)

theorem Ahead.setWork {g : Work → Work} {Q : Unit → State → Prop} (h : Ahead E b s es rest)
    (k : ∀ t, Ahead E b t es rest → Q () t) : wp (setWork g) Q E s := k _ (h.lines s.phase _)

/-- A turn in which nobody moves takes itself off the script, and nothing else happens. -/
theorem Ahead.turn {Q : Unit → State → Prop} (h : Ahead E b s es ([] :: rest))
    (k : Ahead E b { s with script := rest } es rest → Q () { s with script := rest }) : wp turn Q E s := by
  have honward : Onward s { s with script := rest } :=
    ⟨fun hcalm => by simpa [State.noResets, State.requestPending, h.ahead, Move.isEnv] using hcalm,
      fun hnil => absurd (h.ahead.symm.trans hnil) nofun⟩
  exact (wp_turn_quiet h.ahead).mpr (k ⟨h.toDid.env (.of_fields s List.suffix_rfl rest s.target s.tick) honward, rfl⟩)

/-- A read in a quiet turn finds what is known (R66, R70; log 9). -/
theorem Ahead.domRead {a : Addr} {v : Word} {Q : Word → State → Prop} (h : Ahead E b s es ([] :: rest))
    (ha : aligned a = true) (hv : settled s (regKey (.dom d) a) = some v)
    (k : ∀ t, Ahead E b t (.domRead d a v :: es) rest → Q v t) : wp (domRead d a) Q E s := by
  simp only [Machine.domRead, targetRead, requireAligned, ha, if_true, wp_bind, wp_pure, wp_modify]
  refine h.turn fun hu => ?_
  have hget : ({ s with script := rest } : State).drain.target.get (.dom d) a = some v := (readsAs_eq _ _ _).trans hv
  have hdrain : Ahead E b ({ s with script := rest } : State).drain es rest :=
    ⟨hu.toDid.env (drain_envOnly _) ⟨(drain_noResets _).trans, (drain_script _).trans⟩, drain_script _⟩
  simp only [targetAnswer, wp_bind, wp_get, hget, wp_pure, wp_emit]
  exact k _ ⟨hdrain.toDid.emit _, hdrain.ahead⟩

/-- The pre-scale hook in a quiet turn, with HOST's answer prepared. -/
theorem Ahead.callPreScale {r : PreScaleResult} {answers : List PreScaleResult} {Q : PreScaleResult → State → Prop}
    (h : Ahead E b s es ([] :: rest)) (hr : b.host.preScale = r :: answers)
    (k : ∀ t, Ahead E { b with host := { b.host with preScale := answers } } t
      (.call (.preScale d volt td r) :: es) rest → Q r t) : wp (callPreScale d volt td) Q E s := by
  simp only [Machine.callPreScale, wp_bind]
  refine h.turn fun hu => ?_
  have hhost : s.host = b.host := hu.host
  simp only [preScaleAnswer, wp_bind, wp_get, hhost, hr, wp_set, wp_pure, wp_emit]
  exact k _ ⟨(hu.toDid.setHost _).emit _, rfl⟩

theorem txdoneOf_setTxdone (t : Target) (id : Nat) (x : Bool) : (t.setTxdone id x).txdoneOf id = some x := by
  simp [Target.txdoneOf, Target.setTxdone]

/-- The clear callback in a quiet turn: the indication is down after it (R78; log 22). -/
theorem Ahead.callClearTxdone {id : Nat} {Q : Unit → State → Prop} (h : Ahead E b s es ([] :: rest))
    (k : ∀ t, Ahead E b t (.call (.clearTxdone id) :: es) rest → t.target.txdoneOf id = some false → Q () t) :
    wp (callClearTxdone id) Q E s := by
  simp only [Machine.callClearTxdone, wp_bind]
  refine h.turn fun hu => ?_
  simp only [wp_modify, wp_emit]
  exact k _ ⟨(hu.toDid.setTxdone id false).emit _, rfl⟩ (txdoneOf_setTxdone _ _ _)

/-- The check callback in a quiet turn, where the indication is known (log 22). -/
theorem Ahead.callCheckTxdone {id : Nat} {x : Bool} {Q : Bool → State → Prop} (h : Ahead E b s es ([] :: rest))
    (hx : s.target.txdoneOf id = some x)
    (k : ∀ t, Ahead E b t (.call (.checkTxdone id x) :: es) rest → Q x t) : wp (callCheckTxdone id) Q E s := by
  simp only [Machine.callCheckTxdone, wp_bind]
  refine h.turn fun hu => ?_
  simp only [txdoneAnswer, wp_bind, wp_get, hx, wp_pure, wp_emit]
  exact k _ ⟨hu.toDid.emit _, rfl⟩

/-! ### Waits that are over at once -/

theorem exists_succ_of_ne_zero {n : Word} (h : n ≠ 0) : ∃ left, n.toNat = left + 1 :=
  Nat.exists_eq_succ_of_ne_zero fun hz => h (BitVec.eq_of_toNat_eq hz)

/-- The idle wait, where the idle bit is known to be set (R161). -/
theorem Ahead.waitIdle {w : Word} {Q : Bool → State → Prop} (h : Ahead E b s es ([] :: rest))
    (hbudget : b.cfg.vpIdleBudget ≠ 0) (ha : aligned vp.vstatus = true)
    (hw : settled s (regKey (.dom d) vp.vstatus) = some w) (hidle : w &&& vp.stIdle ≠ 0)
    (k : ∀ t, Ahead E b t (.domRead d vp.vstatus w :: es) rest → Q true t) : wp (waitIdle d vp) Q E s := by
  obtain ⟨left, hleft⟩ := exists_succ_of_ne_zero hbudget
  simp only [Machine.waitIdle, wp_bind, wp_get]
  rw [h.cfg]
  simp only [pollUntil, hleft, pollLoop, idleCheck, wp_bind, wp_subLine, wp_setWork]
  refine (h.lines _ _).domRead ha hw fun t ht => ?_
  simp only [bne_iff_ne.mpr hidle, if_true, wp_bind, wp_pure, wp_setWork, wp_endSub]
  exact k _ (ht.lines _ _)

/-- The first attempt to clear the transaction-done indication succeeds (R162). -/
theorem Ahead.clearTxDone {Q : Bool → State → Prop} (h : Ahead E b s es ([] :: [] :: rest))
    (hbudget : b.cfg.vpTxclearBudget ≠ 0)
    (k : ∀ t, Ahead E b t (.call (.checkTxdone vp.id false) :: .call (.clearTxdone vp.id) :: es) rest → Q true t) :
    wp (clearTxDone vp) Q E s := by
  obtain ⟨left, hleft⟩ := exists_succ_of_ne_zero hbudget
  simp only [Machine.clearTxDone, wp_bind, wp_get]
  refine h.subLine fun t ht => ht.setWork fun t ht => ?_
  rw [ht.cfg, hleft]
  simp only [clearLoop, wp_bind]
  refine ht.subLine fun t ht => ht.callClearTxdone fun t ht hx => ?_
  rw [wp_subLine]
  refine (ht.lines _ _).callCheckTxdone hx fun t ht => ?_
  simp only [Bool.false_eq_true, if_false, wp_bind, wp_pure, wp_setWork, wp_endSub]
  exact k _ (ht.lines _ _)

/-! ### The post-scale call of the ramp -/

theorem PollTrace.mem {α : Type} {n delayUs : Nat} {check : α → Event} {holds : α → Bool} {e : Event}
    (h : PollTrace n delayUs check holds ok es) (he : e ∈ es) : e = .delay delayUs ∨ ∃ v, e = check v := by
  have failed : ∀ l : List α, e ∈ failedChecks delayUs (l.map check) → e = .delay delayUs ∨ ∃ v, e = check v := by
    intro l hl
    simp only [failedChecks, List.mem_flatMap, List.mem_map, List.mem_cons, List.not_mem_nil, or_false] at hl
    grind
  obtain ⟨l, -, ⟨-, -, rfl⟩ | ⟨-, -, v, -, rfl⟩⟩ := h
  · exact failed l he
  · exact (List.mem_cons.mp he).elim (fun hv => .inr ⟨v, hv⟩) (failed l)

theorem failedClears_mem {id delayUs n : Nat} {e : Event} (he : e ∈ failedClears id delayUs n) :
    e = .delay delayUs ∨ e = .call (.checkTxdone id true) ∨ e = .call (.clearTxdone id) := by
  induction n with
  | zero => cases he
  | succ n ih =>
    rw [failedClears, List.mem_append] at he
    exact he.elim ih (by simp)

theorem TxWait.noPostScale (h : TxWait c vp ok es) : es.filter Event.isPostScale = [] :=
  List.filter_eq_nil_iff.mpr fun e he => by
    obtain rfl | ⟨v, rfl⟩ := PollTrace.mem h he <;> simp [Event.isPostScale]

theorem ClearTrace.noPostScale (h : ClearTrace c vp ok es) : es.filter Event.isPostScale = [] := by
  have hfailed : ∀ n, (failedClears vp.id c.vpDelayUs n).filter Event.isPostScale = [] := fun n =>
    List.filter_eq_nil_iff.mpr fun e he => by
      obtain rfl | rfl | rfl := failedClears_mem he <;> simp [Event.isPostScale]
  obtain ⟨n, ⟨-, -, rfl⟩ | ⟨-, -, rfl⟩⟩ := h
  · exact hfailed n
  · simp [hfailed, Event.isPostScale]

theorem reportUnlessTrace_noPostScale (s : State) (ok : Bool) (d : DomId) (dom : Dom) (vp : Vp) :
    (s.reportUnlessTrace ok d dom vp).filter Event.isPostScale = [] := by
  unfold State.reportUnlessTrace State.reportTrace
  split
  · rfl
  · split <;> rfl

/-- The ramp calls the post-scale hook exactly once. -/
theorem Ramp.Valid.postScale_events {r : Ramp} (h : r.Valid c vp f volt) :
    (r.events s d dom vp td volt tsel csel).filter Event.isPostScale = [.call (.postScale d volt td tsel csel)] := by
  simp [Ramp.events, pulseTrace, List.filter_cons, reportUnlessTrace_noPostScale, h.tx.noPostScale,
    h.clear.noPostScale, Event.isPostScale]

/-! ### The command (R170) -/

/-- Settles O40: four quiet turns lead to the ramp, with the hook's selectors. -/
theorem scaleCompletes : Obligations.ScaleCompletes := by
  intro s d td dom vp pmic f sel w tsel csel answers moves hs hd hwrite hvp hread hpmic hf hstatus hconfig hplaced hw
    hidle hhook hscript
  have hcaps := scaleCaps_eq_some_iff.mpr ⟨hd, hwrite, hvp⟩
  have hrelied := scaleRelied_eq_some_iff.mpr ⟨pmic, hread, hpmic, hf⟩
  obtain ⟨-, hidleBudget, hclearBudget, -⟩ := admitted_budgets hs.2
  refine completes_of_body rfl hs fun hstart => ?_
  simp only [hcaps, hrelied, wp_bind, wp_setVpstate, wp_line]
  have hidleAhead : Ahead (CutOnly s) (scaling (.vpScale d (some td)) s s.host .idle) _ [] _ :=
    ⟨hstart.setVpstate .idle, hscript⟩
  refine (hidleAhead.lines _ _).waitIdle hidleBudget hstatus ((readsAs_eq s _ _).symm.trans hw) hidle fun u hu => ?_
  simp only [if_true, scaleIdle, wp_bind, wp_get]
  refine hu.line fun u hu => ?_
  rw [show u.cfg = s.cfg from hu.cfg]
  refine hu.setWork fun u hu => hu.callPreScale hhook fun u hu => ?_
  simp only [wp_bind]
  refine hu.setWork fun u hu => hu.line fun u hu => hu.clearTxDone hclearBudget fun u hu => ?_
  have hramp : Did _ (scaling (.vpScale d (some td)) s { s.host with preScale := answers } .idle) u _ := hu.toDid
  refine hramp.scaleRampEnds hs rfl (fun ha => absurd (hconfig.symm.trans ha) nofun)
    (fun _ hnone => absurd (hplaced.symm.trans hnone) nofun) fun r t hvalid hans hunchanged _ => ?_
  refine ⟨_, r.read, hans, hunchanged.vpstate, ?_, ?_⟩
  · rw [List.filter_append, hvalid.postScale_events]
    rfl
  · rw [writesOf_append, hvalid.writesOf_events]
    cases hplaced.symm.trans hvalid.placed
    rfl

end Sys2Proof.Machine
end

section
/-! PROOFS. The error/recovery path (R200 to R205): one `ReportError`, any sequence of them from the reset values of the
counters, and the commands that leave the counters alone. -/

namespace Sys2Proof.Machine

variable {s b : State} {E : Stop → State → Prop} {es : List Event}

/-! ### One invocation (R200 to R202) -/

/-- `ReportError` on its own, outside a command: it starts where its account begins. -/
theorem Did.alone (s : State) : Did (CutOnly s) s s [] := .start s fun _ hcut => ⟨rfl, hcut⟩

theorem reportTrace_append (s : State) (d : DomId) (dom : Dom) (vp : Vp) (es : List Event) :
    s.reportTrace d dom vp ++ es =
      (if dom.hasRecover = true ∧ s.recCnt - 1 = 0 then [.call (.recover vp.id)] else []) ++
        .log (if s.msgCnt ≠ 0 then .errFull else .errRateLimited) d :: es := by
  simp [State.reportTrace, reportLog]

/-- Settles O45: the law of `ReportError`, run on its own from any state. -/
theorem reportErrorOnce : Obligations.ReportErrorOnce := by
  intro s d dom vp
  have hrun : wp (reportError d dom vp)
      (fun _ t => Did (CutOnly s) (s.reported dom) t (s.reportTrace d dom vp ++ [])) (CutOnly s) s :=
    (Did.alone s).reportError fun _ ht => ht
  refine (wp_cutOnly_cases hrun).imp_left fun ⟨_, t, hok, ht⟩ => ?_
  have hevents : t.events = s.reportTrace d dom vp ++ s.events := List.append_nil (s.reportTrace d dom vp) ▸ ht.events
  exact ⟨t, hok, ht.msgCnt, ht.recCnt, hevents.trans (reportTrace_append s d dom vp s.events), ht.base, ht.vpen,
    ht.mode, ht.vpstate, ht.cfg, ht.latch⟩

/-! ### A sequence of invocations (R204) -/

/-- The counters after a sequence of invocations. -/
def State.reportedAll (s : State) : List (DomId × Dom × Vp) → State
  | [] => s
  | (_, dom, _) :: rest => (s.reported dom).reportedAll rest

/-- The events of a sequence of invocations, newest first. -/
def State.reportAllTrace (s : State) : List (DomId × Dom × Vp) → List Event
  | [] => []
  | (d, dom, vp) :: rest => (s.reported dom).reportAllTrace rest ++ s.reportTrace d dom vp

theorem reportedAll_cfg (s : State) (calls : List (DomId × Dom × Vp)) : (s.reportedAll calls).cfg = s.cfg := by
  induction calls generalizing s with
  | nil => rfl
  | cons call rest ih => exact ih (s.reported call.2.1)

theorem reportedAll_events (s : State) (calls : List (DomId × Dom × Vp)) :
    (s.reportedAll calls).events = s.events := by
  induction calls generalizing s with
  | nil => rfl
  | cons call rest ih => exact ih (s.reported call.2.1)

theorem Did.reportAll {calls : List (DomId × Dom × Vp)} {Q : Unit → State → Prop} (h : Did E b s es)
    (k : ∀ t, Did E (b.reportedAll calls) t (b.reportAllTrace calls ++ es) → Q () t) :
    wp (reportAll calls) Q E s := by
  induction calls generalizing b s es with
  | nil => exact k s h
  | cons call rest ih =>
    obtain ⟨d, dom, vp⟩ := call
    simp only [Machine.reportAll, wp_bind]
    refine h.reportError fun t ht => ih ht fun u hu => k u ?_
    rwa [State.reportAllTrace, List.append_assoc]

/-! The message half (R201): each invocation is one log, in full while MSG lasts. -/

theorem msgAfter_eq (msg : Counter) : msgAfter msg = msg - 1 := by
  unfold msgAfter
  split
  · rw [‹msg = 0›]
  · rfl

theorem reportedAll_msgCnt (s : State) (calls : List (DomId × Dom × Vp)) :
    (s.reportedAll calls).msgCnt = s.msgCnt - calls.length := by
  induction calls generalizing s with
  | nil => rfl
  | cons call rest ih =>
    have hmsg : (s.reported call.2.1).msgCnt = s.msgCnt - 1 := msgAfter_eq s.msgCnt
    rw [State.reportedAll, ih, hmsg, List.length_cons, Nat.sub_sub, Nat.add_comm]

theorem reportTrace_fullLogs (s : State) (d : DomId) (dom : Dom) (vp : Vp) :
    (s.reportTrace d dom vp).countP Event.isFullLog = if s.msgCnt = 0 then 0 else 1 := by
  unfold State.reportTrace reportLog
  split <;> split <;> rfl

theorem reportAllTrace_fullLogs (s : State) (calls : List (DomId × Dom × Vp)) :
    (s.reportAllTrace calls).countP Event.isFullLog = min s.msgCnt calls.length := by
  induction calls generalizing s with
  | nil => exact (Nat.min_zero _).symm
  | cons call rest ih =>
    have hmsg : (s.reported call.2.1).msgCnt = s.msgCnt - 1 := msgAfter_eq s.msgCnt
    rw [State.reportAllTrace, List.countP_append, ih, hmsg, reportTrace_fullLogs, List.length_cons]
    unfold Counter at * -- `omega` reads `Nat` only
    split <;> omega

/-! The recovery half (R202): an invocation for a domain with a callback takes one off REC, and each call of the
callback puts N2 back. -/

theorem reportTrace_recovers (s : State) (d : DomId) (dom : Dom) (vp : Vp) :
    (s.reportTrace d dom vp).countP Event.isRecover =
      if dom.hasRecover = true ∧ s.recCnt - 1 = 0 then 1 else 0 := by
  rw [← List.append_nil (s.reportTrace d dom vp), reportTrace_append]
  split <;> rfl

theorem recAfter_inRange {rc n2 : Counter} (hn : n2 ≠ 0) (hle : rc ≤ n2) :
    recAfter rc n2 ≠ 0 ∧ recAfter rc n2 ≤ n2 := by
  unfold recAfter
  split
  · exact ⟨hn, Nat.le_refl _⟩
  · exact ⟨‹_›, (Nat.sub_le _ _).trans hle⟩

theorem recAfter_balance {rc : Counter} (hrec : rc ≠ 0) (n2 : Counter) :
    recAfter rc n2 + 1 = rc + n2 * if rc - 1 = 0 then 1 else 0 := by
  unfold recAfter Counter at *
  split <;> omega

theorem reported_countersInRange (dom : Dom) (h : s.countersInRange) : (s.reported dom).countersInRange := by
  obtain ⟨hn, hrec, hle, hmsg⟩ := h
  have hmsg' : msgAfter s.msgCnt ≤ s.cfg.n1 := (msgAfter_eq s.msgCnt).le.trans ((Nat.sub_le _ _).trans hmsg)
  simp only [State.countersInRange, State.reported]
  split
  · obtain ⟨hrec', hle'⟩ := recAfter_inRange hn hle
    exact ⟨hn, hrec', hle', hmsg'⟩
  · exact ⟨hn, hrec, hle, hmsg'⟩

/-- One invocation, as a balance: what REC loses and what the callback's reload gives it. -/
theorem reported_balance (d : DomId) (dom : Dom) (vp : Vp) (h : s.countersInRange) :
    (s.reported dom).recCnt + (if dom.hasRecover then 1 else 0) =
      s.recCnt + s.cfg.n2 * (s.reportTrace d dom vp).countP Event.isRecover := by
  obtain ⟨-, hrec, -, -⟩ := h
  rw [reportTrace_recovers]
  simp only [State.reported]
  cases dom.hasRecover with
  | false => simp
  | true => simpa using recAfter_balance hrec s.cfg.n2

theorem reportedAll_countersInRange (calls : List (DomId × Dom × Vp)) (h : s.countersInRange) :
    (s.reportedAll calls).countersInRange := by
  induction calls generalizing s with
  | nil => exact h
  | cons call rest ih => exact ih (reported_countersInRange call.2.1 h)

/-- A sequence of invocations, as a balance. -/
theorem reportedAll_balance (calls : List (DomId × Dom × Vp)) (h : s.countersInRange) :
    (s.reportedAll calls).recCnt + calls.countP (fun call => call.2.1.hasRecover) =
      s.recCnt + s.cfg.n2 * (s.reportAllTrace calls).countP Event.isRecover := by
  induction calls generalizing s with
  | nil => rfl
  | cons call rest ih =>
    obtain ⟨d, dom, vp⟩ := call
    have hfirst := reported_balance d dom vp h
    have hrest := ih (reported_countersInRange dom h)
    rw [show (s.reported dom).cfg = s.cfg from rfl] at hrest
    simp only [State.reportedAll, State.reportAllTrace, List.countP_append, List.countP_cons, Nat.mul_add]
    unfold Counter at *
    omega

/-- A balance from REC = N2 is a division with remainder by N2. -/
theorem rounds_of_balance {rc n2 n fired : Nat} (hrec : rc ≠ 0) (hle : rc ≤ n2) (h : rc + n = n2 + n2 * fired) :
    fired = n / n2 ∧ rc = n2 - n % n2 := by
  have hn : 0 < n2 := (Nat.pos_of_ne_zero hrec).trans_le hle
  obtain ⟨hdiv, hmod⟩ := (Nat.div_mod_unique hn).mpr ⟨show n2 - rc + n2 * fired = n by omega, by omega⟩
  exact ⟨hdiv.symm, by omega⟩

/-- From the reset values: the callback has fired once per N2 invocations, and REC has what is left of the round. -/
theorem reportedAll_rounds (calls : List (DomId × Dom × Vp)) (h : s.countersInRange) (hrec : s.recCnt = s.cfg.n2) :
    (s.reportAllTrace calls).countP Event.isRecover = calls.countP (fun call => call.2.1.hasRecover) / s.cfg.n2 ∧
      (s.reportedAll calls).recCnt = s.cfg.n2 - calls.countP (fun call => call.2.1.hasRecover) % s.cfg.n2 := by
  obtain ⟨-, hpos, hle, -⟩ := reportedAll_countersInRange calls h
  have hbalance := reportedAll_balance calls h
  rw [reportedAll_cfg] at hle
  rw [hrec] at hbalance
  exact rounds_of_balance hpos hle hbalance

/-! A reset on the way (R240): only at a turn can `ReportError` be cut. -/

/-- A reset in a turn leaves the block at its reset values. -/
theorem turn_resetValues (c : Config) : Keeps (fun u => u.cfg = c) (ResetValues c) turn := by
  have moves : MovesKeep (fun u => u.cfg = c) (ResetValues c) :=
    .of (fun _ _ h hu => h.cfg.trans hu) (fun _ _ h hu => hu.env h) (fun _ _ h hu => hu ▸ h.values)
      fun _ _ h hu => hu.cfg ▸ h.values
  exact fun u hu => wp_mono (moves.turn u hu) (fun _ _ hv => hv) fun _ _ hv _ => hv

theorem reportMessage_resetValues (c : Config) (d : DomId) :
    Keeps (fun u => u.cfg = c) (ResetValues c) (reportMessage d) :=
  .bind (.modify fun _ hu => hu) fun _ => Keeps.get.bind fun _ =>
    .bind (.bind (turn_resetValues c) fun _ => .modify fun _ hu => hu) fun _ => .modify fun _ hu => hu

theorem reportRecovery_resetValues (c : Config) (id : Nat) :
    Keeps (fun u => u.cfg = c) (ResetValues c) (reportRecovery id) :=
  .bind (.modify fun _ hu => hu) fun _ => Keeps.get.bind fun _ => .bind (.modify fun _ hu => hu) fun _ =>
    .ite (.bind (.bind (turn_resetValues c) fun _ => .modify fun _ hu => hu) fun _ => .modify fun _ hu => hu) (.pure _)

theorem reportError_resetValues (c : Config) (d : DomId) (dom : Dom) (vp : Vp) :
    Keeps (fun u => u.cfg = c) (ResetValues c) (reportError d dom vp) :=
  (reportMessage_resetValues c d).bind fun _ =>
    (Keeps.ite (reportRecovery_resetValues c vp.id) (.pure _)).bind fun _ => .modify fun _ hu => hu

theorem reportAll_resetValues (c : Config) (calls : List (DomId × Dom × Vp)) :
    Keeps (fun u => u.cfg = c) (ResetValues c) (reportAll calls) := by
  induction calls with
  | nil => exact .pure _
  | cons call rest ih => exact (reportError_resetValues c call.1 call.2.1 call.2.2).bind fun _ => ih

/-- Settles O46: the trace of the sequence, its logs and callbacks counted; a reset on the way loads both counters. -/
theorem countingLaw : Obligations.CountingLaw := by
  intro s calls hn hrec hmsg
  have hrun : wp (reportAll calls)
      (fun _ t => Did (CutOnly s) (s.reportedAll calls) t (s.reportAllTrace calls ++ [])) (CutOnly s) s :=
    (Did.alone s).reportAll fun _ ht => ht
  obtain ⟨_, t, hok, ht⟩ | ⟨t, hcutAt, hcut⟩ := wp_cutOnly_cases hrun
  · rw [List.append_nil] at ht
    have hrange : s.countersInRange := ⟨hn, hrec.trans_ne hn, hrec.le, hmsg.le⟩
    obtain ⟨hfired, hround⟩ := reportedAll_rounds calls hrange hrec
    refine .inl ⟨t, s.reportAllTrace calls, hok, reportedAll_events s calls ▸ ht.events, hfired,
      ht.recCnt.trans hround, ?_, ?_⟩
    · rw [ht.msgCnt, reportedAll_msgCnt, hmsg]
    · rw [reportAllTrace_fullLogs, hmsg]
  · have hreset := reportAll_resetValues s.cfg calls s rfl
    rw [wp, hcutAt] at hreset
    have hvalues := hreset rfl
    exact .inr ⟨t, hcutAt, hcut, hvalues.recCnt, hvalues.msgCnt⟩

/-! ### The commands that report (R205) -/

/-- Settles O47: the frame of the two counters, which only `ReportError` would break. -/
theorem countersOnlyThroughReport : Obligations.CountersOnlyThroughReport := by
  intro i s t hx hscale hdisable
  have kept := frame_kept s (Frame := fun u => u.msgCnt = s.msgCnt ∧ u.recCnt = s.recCnt) fun u v h hu =>
    ⟨(congrArg Registers.msgCnt h).trans hu.1, (congrArg Registers.recCnt h).trans hu.2⟩
  have noReport : ¬((∃ d td, i = .vpScale d td) ∨ ∃ d, i = .vpDisable d) := by
    rintro (⟨d, td, hi⟩ | ⟨d, hi⟩)
    · exact hscale d td hi
    · exact hdisable d hi
  exact kept.exec (fun _ => trivial) (fun _ _ _ hu => hu) (fun _ _ _ hu => hu) (fun _ _ _ hu => hu)
    (fun _ _ _ _ _ hu => hu) (fun hi => absurd hi noReport) ⟨⟨rfl, rfl⟩, [], rfl⟩ hx

end Sys2Proof.Machine
end

section
/-! PROOFS. Which commands end in FATAL (R211 to R213): one whose partition is invalid faults before it touches anything;
every other command goes on to its response or to a reset, and either leaves READY. -/

namespace Sys2Proof.Machine

variable {s t : State} {i : Instr}

theorem Responded.mode (h : Responded s t) : t.mode = .ready := by
  obtain ⟨_, _, _, _, _, _, hready, _⟩ := h
  exact hready

/-- A command that meets no invalid partition leaves READY (R100, R213, R242). -/
theorem exec_leaves_ready (hmap : usesPartition i = true → s.MappedPartition (s.partitionOf i))
    (hx : exec i s = .next t) : t.mode = .ready := by
  have hok : usesPartition i = true → s.partitionOk (s.partitionOf i) = true := fun hi =>
    (partitionOk_iff s _).mpr (hmap hi)
  obtain hresponded | ⟨hreset, -⟩ := exec_responded_or_reset hok hx
  · exact hresponded.mode
  · exact (exec_resetValues hx hreset).mode

theorem exec_fatal_iff (hx : exec i s = .next t) :
    t.mode = .fatal ↔ usesPartition i = true ∧ ¬s.MappedPartition (s.partitionOf i) := by
  constructor
  · intro hfatal
    refine Classical.not_imp.mp fun hmap => ?_
    exact absurd (hfatal.symm.trans (exec_leaves_ready hmap hx)) nofun
  · rintro ⟨hi, hinvalid⟩
    exact (exec_fatalEntry hi (partitionOk_eq_false_iff.mpr hinvalid) hx).mode

/-- Settles O15: FATAL comes from an invalid partition only, and that fault is raised before any event. -/
theorem onlyInvalidPartitionIsFatal : Obligations.OnlyInvalidPartitionIsFatal := by
  intro i s t hx
  refine ⟨exec_fatal_iff hx, fun hfatal => ?_⟩
  obtain ⟨hi, hinvalid⟩ := (exec_fatal_iff hx).mp hfatal
  exact exec_fatalEntry hi (partitionOk_eq_false_iff.mpr hinvalid) hx

end Sys2Proof.Machine
end

section
/-! PROOFS. Global reset requests (R79, R243): no agent but the block makes one, a command makes one only by a write at
the register's address as BASE has it, and the SoC's reset comes only once the target has observed one. -/

namespace Sys2Proof.Machine

variable {s t u v : State} {i : Instr} {e : Event} {es : List Event}

/-! ### The SoC resets only after an observed request -/

theorem Event.isReset_of_written {w : Write} (h : e.written = some w) : e.isReset = false := by
  cases e <;> cases h <;> rfl

theorem Event.ne_socReset (h : e.isReset = false) : e ≠ .socReset := by
  rintro rfl
  cases h

/-- The target forgets no write, so it is enough that nothing new arms the reset and no SoC reset is new. -/
theorem State.resetWasRequested.mono (h : u.resetWasRequested) (hseen : u.target.seen ⊆ v.target.seen)
    (hcause : v.target.armed = true ∨ .socReset ∈ v.events → u.target.armed = true ∨ .socReset ∈ u.events) :
    v.resetWasRequested := by
  intro hv
  obtain ⟨x, hx, hreq⟩ := h (hcause hv)
  exact ⟨x, hseen hx, hreq⟩

theorem State.resetWasRequested.event (h : u.resetWasRequested) (he : e ≠ .socReset) (p : Option Phase)
    (q : List WEntry) : ({ u with wq := q, hist := (p, e) :: u.hist } : State).resetWasRequested :=
  h.mono (List.Subset.refl _) fun hv => hv.imp_right fun hmem => (List.mem_cons.mp hmem).resolve_left he.symm

/-- The write that arms the SoC reset is itself the observed request. -/
theorem observeEntry_resetWasRequested (x : WEntry) (h : u.resetWasRequested) :
    (u.observeEntry x).resetWasRequested := by
  have hseen : (u.observeEntry x).target.seen = x :: u.target.seen := absorb_seen u.target x
  cases hx : x.request with
  | true => exact fun _ => ⟨x, hseen ▸ List.mem_cons_self, hx⟩
  | false =>
    refine h.mono (hseen ▸ List.subset_cons_self _ _) (Or.imp_left fun harmed => ?_)
    simpa [State.observeEntry, hx] using harmed

theorem foldl_observeEntry_resetWasRequested (l : List WEntry) (h : u.resetWasRequested) :
    (l.foldl State.observeEntry u).resetWasRequested := by
  induction l generalizing u with
  | nil => exact h
  | cons x rest ih => exact ih (observeEntry_resetWasRequested x h)

theorem drain_resetWasRequested (h : u.resetWasRequested) : u.drain.resetWasRequested :=
  foldl_observeEntry_resetWasRequested (u := { u with wq := [] }) u.wq h

theorem envMove_resetWasRequested (m : EnvMove) (h : u.resetWasRequested) : (u.envMove m).resetWasRequested := by
  cases m with
  | observe =>
    simp only [State.envMove, State.observeOldest]
    split
    · exact h
    next x rest hq => exact observeEntry_resetWasRequested (u := { u with wq := rest }) x h
  | poke p a v => exact h
  | txdone id b => exact h

theorem settleQueue_resetWasRequested (keep : List Bool) (h : u.resetWasRequested) :
    (u.settleQueue keep).resetWasRequested := by
  unfold State.settleQueue
  rw [← List.foldl_map]
  exact foldl_observeEntry_resetWasRequested (u := { u with wq := [] }) _ h

theorem blockReset_resetWasRequested (keep : List Bool) (h : u.resetWasRequested) :
    (u.blockReset keep).resetWasRequested :=
  (settleQueue_resetWasRequested keep h).event (e := .blockReset) nofun u.phase []

/-- A SoC reset that comes had been asked for, and what the target has seen outlives it. -/
theorem socReset_resetWasRequested (keep : List Bool) (h : u.resetWasRequested) (harmed : u.target.armed = true) :
    (u.socReset keep).resetWasRequested := by
  intro _
  obtain ⟨x, hx, hreq⟩ := h (.inl harmed)
  obtain ⟨l, -, hseen⟩ := settleQueue_seen u keep
  have hmem : x ∈ (u.settleQueue keep).target.seen := hseen ▸ List.mem_append_right _ hx
  exact ⟨x, hmem, hreq⟩

theorem resetWasRequested_movesKeep : MovesKeep State.resetWasRequested State.resetWasRequested where
  script _ _ h := h
  tick _ _ h := h
  env _ m h := envMove_resetWasRequested m h
  block _ keep h := blockReset_resetWasRequested keep h
  soc _ keep h harmed := socReset_resetWasRequested keep h harmed
  envAfter _ m h := envMove_resetWasRequested m h
  blockAfter _ keep h := blockReset_resetWasRequested keep h
  socAfter _ keep h harmed := socReset_resetWasRequested keep h harmed

theorem resetWasRequested_kept : Kept (fun _ => True) State.resetWasRequested State.resetWasRequested where
  phase _ _ h := h
  work _ _ h := h
  tick _ _ h := h
  host _ _ h := h
  txdone _ _ _ h := h
  emit u _ _ _ hreset _ _ h := h.event (Event.ne_socReset hreset) u.phase u.wq
  write u _ _ hw _ h := h.event (Event.ne_socReset (Event.isReset_of_written hw)) u.phase _
  drain _ h := drain_resetWasRequested h
  turn := resetWasRequested_movesKeep.turn
  fatal _ _ _ _ h := h
  finish u st v h := h.event (e := .respond st v) nofun u.phase u.wq

theorem step_resetWasRequested (hs : s.resetWasRequested) (hx : step s = .next t) : t.resetWasRequested :=
  step_kept resetWasRequested_kept resetWasRequested_movesKeep (fun _ _ _ h _ => h) (fun _ _ h _ => h)
    (fun _ _ h => h) (fun _ _ _ h => h) (fun _ _ h => h)
    (resetWasRequested_kept.reportError (fun _ _ h => h) fun _ _ h => h) hs hx

/-! ### Where requests come from -/

theorem mem_entries_iff {x : WEntry} : x ∈ s.entries ↔ x ∈ s.wq ++ s.target.seen := by
  simp [State.entries]

theorem requestsGlobalReset_iff {a : Addr} {v : Word} : s.requestsGlobalReset a v = true ↔
    s.baseOf s.cfg.partPrm ≠ 0 ∧ a = s.globalCtrl ∧
      ((v >>> s.cfg.grst.warmBit.toNat) &&& 1#32 = 1#32 ∨ (v >>> s.cfg.grst.coldBit.toNat) &&& 1#32 = 1#32) := by
  simp [State.requestsGlobalReset, setsResetBit, bitSet_iff, and_assoc]

/-- BASE and the configuration are all that tells whether a write asks for a global reset. -/
theorem requestsGlobalReset_of_base_eq (hbase : u.base = s.base) (hcfg : u.cfg = s.cfg) (a : Addr) (v : Word) :
    u.requestsGlobalReset a v = s.requestsGlobalReset a v := by
  simp [State.requestsGlobalReset, State.globalCtrl, State.effAddr, State.baseOf, hbase, hcfg]

theorem Event.eq_mmioWrite_of_written {w : Write} (h : e.written = some w) (hport : w.port = .mmio) :
    e = .mmioWrite w.addr w.value := by
  cases e with
  | mmioWrite a v => cases h; rfl
  | domWrite d a v => cases h; cases hport
  | domRmw d a mask bits new => cases h; cases hport
  | _ => cases h

/-- The write is among the events and asks for a global reset, with BASE as it is in `s`. -/
def RequestedBy (s : State) (es : List Event) (x : WEntry) : Prop :=
  .mmioWrite x.addr x.value ∈ es ∧ x.port = .mmio ∧ s.requestsGlobalReset x.addr x.value = true

theorem RequestedBy.append {x : WEntry} (h : RequestedBy s es x) (xs : List Event) : RequestedBy s (xs ++ es) x :=
  ⟨List.mem_append_right xs h.1, h.2⟩

/-- Every request queued or observed in `u` was so in `s`, or is a write of the block since. -/
def RequestsAccounted (s u : State) : Prop :=
  ∃ es, u.events = es ++ s.events ∧ ∀ x ∈ u.entries, x.request = true → x ∈ s.entries ∨ RequestedBy s es x

theorem RequestsAccounted.refl (s : State) : RequestsAccounted s s := ⟨[], rfl, fun _ hx _ => .inl hx⟩

/-- What adds no write needs no account. -/
theorem RequestsAccounted.mono (h : RequestsAccounted s u) (hgrown : Grown u v) (hsub : v.entries ⊆ u.entries) :
    RequestsAccounted s v := by
  obtain ⟨es, hes, hall⟩ := h
  obtain ⟨xs, hxs⟩ := hgrown
  refine ⟨xs ++ es, by rw [hxs, hes, List.append_assoc], fun x hx hreq => ?_⟩
  exact (hall x (hsub hx) hreq).imp_right fun hby => hby.append xs

theorem RequestsAccounted.event (h : RequestsAccounted s u) (e : Event) (hv : v.events = e :: u.events)
    (hentries : v.entries = u.entries) : RequestsAccounted s v :=
  h.mono ⟨[e], hv⟩ (hentries ▸ List.Subset.refl _)

theorem RequestsAccounted.envMove (m : EnvMove) (h : RequestsAccounted s u) : RequestsAccounted s (u.envMove m) :=
  h.mono ⟨[], (envMove_envOnly u m).events⟩ (envMove_entries u m ▸ List.Subset.refl _)

theorem RequestsAccounted.blockReset (keep : List Bool) (h : RequestsAccounted s u) :
    RequestsAccounted s (u.blockReset keep) :=
  h.mono ⟨[.blockReset], blockReset_events u keep⟩ (settleQueue_seen_sublist u keep).subset

theorem RequestsAccounted.socReset (keep : List Bool) (h : RequestsAccounted s u) :
    RequestsAccounted s (u.socReset keep) :=
  h.mono ⟨[.socReset], socReset_events u keep⟩ (settleQueue_seen_sublist u keep).subset

/-- A write of the block is accounted for while BASE is as it was. -/
theorem RequestsAccounted.write (h : RequestsAccounted s u) (hbase : u.base = s.base) (hcfg : u.cfg = s.cfg)
    {w : Write} (hw : e.written = some w) :
    RequestsAccounted s
      { u with wq := u.wq ++ [u.entry w.port w.addr w.value], hist := (u.phase, e) :: u.hist } := by
  obtain ⟨es, hes, hall⟩ := h
  refine ⟨e :: es, congrArg (List.cons e) hes, fun x hx hreq => ?_⟩
  rw [entries_push, List.mem_cons] at hx
  obtain rfl | hx := hx
  · rw [entry_request, Bool.and_eq_true, beq_iff_eq, requestsGlobalReset_of_base_eq hbase hcfg] at hreq
    obtain ⟨hport, hrequest⟩ := hreq
    exact .inr ⟨Event.eq_mmioWrite_of_written hw hport ▸ List.mem_cons_self, hport, hrequest⟩
  · exact (hall x hx hreq).imp_right fun hby => hby.append [e]

theorem requestsAccounted_movesKeep (s : State) : MovesKeep (RequestsAccounted s) (RequestsAccounted s) where
  script _ _ h := h
  tick _ _ h := h
  env _ m h := h.envMove m
  block _ keep h := h.blockReset keep
  soc _ keep h _ := h.socReset keep
  envAfter _ m h := h.envMove m
  blockAfter _ keep h := h.blockReset keep
  socAfter _ keep h _ := h.socReset keep

/-- While a command runs that leaves BASE alone, its requests are those of BASE as it was; a reset, which clears BASE,
ends the command. -/
theorem requestsAccounted_kept (s : State) : Kept (fun _ => True)
    (fun u => u.base = s.base ∧ u.cfg = s.cfg ∧ RequestsAccounted s u) (RequestsAccounted s) where
  phase _ _ h := h
  work _ _ h := h
  tick _ _ h := h
  host _ _ h := h
  txdone _ _ _ h := h
  emit _ e _ _ _ _ _ := fun ⟨hbase, hcfg, h⟩ => ⟨hbase, hcfg, h.event e rfl rfl⟩
  write _ _ _ hw _ := fun ⟨hbase, hcfg, h⟩ => ⟨hbase, hcfg, h.write hbase hcfg hw⟩
  drain u := fun ⟨hbase, hcfg, h⟩ =>
    have hd := drain_envOnly u
    ⟨hd.base.trans hbase, hd.cfg.trans hcfg, h.mono ⟨[], hd.events⟩ (drain_entries u ▸ List.Subset.refl _)⟩
  turn u := fun ⟨hbase, hcfg, h⟩ =>
    have henv : wp turn (fun _ v => EnvOnly u v) (fun _ _ => True) u := wp_turn (fun _ hv _ => hv) fun _ _ _ => trivial
    wp_mono (wp_and ((requestsAccounted_movesKeep s).turn u h) henv)
      (fun _ _ ⟨hv, he⟩ => ⟨he.base.trans hbase, he.cfg.trans hcfg, hv⟩) fun _ _ hv => hv.1
  fatal _ _ _ _ := fun ⟨_, _, h⟩ => h
  finish _ st v := fun ⟨_, _, h⟩ => h.event (.respond st v) rfl rfl

/-- INIT_BASES rebinds BASE, and its only event after that is its response. -/
theorem execInitBases_requestsAccounted {bases : List Addr} (hx : execInitBases bases s = .next t) :
    RequestsAccounted s t := by
  refine command_post hx ?_
  simp only [wp_bind, wp_modify, wp_line, wp_respond_iff]
  exact wp_mono ((requestsAccounted_movesKeep s).turn _ (.refl s)) (fun _ _ h => h.event (.respond .ok 0) rfl rfl)
    fun _ _ h _ => h

theorem exec_requestsAccounted (hx : exec i s = .next t) : RequestsAccounted s t := by
  by_cases hi : ∃ bases, i = .initBases bases
  · obtain ⟨bases, rfl⟩ := hi
    exact execInitBases_requestsAccounted hx
  · have kept := requestsAccounted_kept s
    exact kept.exec (fun _ => trivial) (fun bases hb => absurd ⟨bases, hb⟩ hi) (fun _ _ _ h => h) (fun _ _ _ h => h)
      (fun _ _ _ _ _ h => h) (fun _ => kept.reportError (fun _ _ h => h) fun _ _ h => h) ⟨rfl, rfl, .refl s⟩ hx

theorem step_requestsAccounted (hx : step s = .next t) : RequestsAccounted s t := by
  have moves := requestsAccounted_movesKeep s
  obtain ⟨keep, -, rfl⟩ | ⟨-, -, hreset, rfl⟩ | ⟨-, -, -, rfl⟩ | ⟨ws, rest, i, -, -, -, -, he⟩ |
    ⟨ws, rest, r, -, -, -, -, he⟩ := step_cases hx
  · exact moves.block s keep (.refl s)
  · exact moves.awaitReset s.script s (.refl s) hreset
  · exact moves.idleTurn (.refl s)
  · exact exec_requestsAccounted (s := { s with cmd := rest }) he
  · exact (requestsAccounted_kept s).answerIllegal (s := { s with cmd := rest }) ⟨rfl, rfl, .refl s⟩ he

/-- Settles O59: an invariant of the target's record for the first part; for the second, the account of every request
since the step began. -/
theorem globalResetWasRequested : Obligations.GlobalResetWasRequested := by
  intro s t hx
  refine ⟨fun hs => step_resetWasRequested hs hx, fun x hx' hreq => ?_⟩
  obtain ⟨es, hes, hall⟩ := step_requestsAccounted hx
  refine (hall x (mem_entries_iff.mpr hx') hreq).imp mem_entries_iff.mp fun hby => ?_
  obtain ⟨hmem, hport, hrequest⟩ := hby
  obtain ⟨hmapped, haddr, hbit⟩ := requestsGlobalReset_iff.mp hrequest
  exact ⟨es, hes, hmem, hport, hmapped, haddr, hbit⟩

end Sys2Proof.Machine
end

section
/-! PROOFS. The block without a command (R19, R241), and the queued writes at a reset (R242). -/

namespace Sys2Proof.Machine

variable {s t : State}

/-! ### Waiting in READY (R241) -/

/-- What a turn ensures, cut or not, holds after a turn in which the block waits. -/
theorem idleTurn_of_turn {Q : State → Prop} (h : wp turn (fun _ t => Q t) (fun _ t => Q t) s) : Q s.idleTurn := by
  unfold wp turn at h
  unfold State.idleTurn
  cases hcut : s.takeTurn.2 <;> simpa [hcut] using h

theorem EnvOnly.unchanged (h : EnvOnly s t) : Unchanged s t :=
  ⟨h.base, h.vpen, h.msgCnt, h.recCnt, h.mode, h.vpstate, h.cfg, h.cmd, h.resetPin, h.host⟩

theorem EnvOnly.runEnded (h : EnvOnly s t) (hs : s.runEnded) : t.runEnded := by
  obtain ⟨hmode, hphase, hwq⟩ := hs
  exact ⟨h.mode.trans hmode, h.phase.trans hphase, List.suffix_nil.mp (hwq ▸ h.wq)⟩

theorem WasReset.runEnded (h : WasReset s t) : t.runEnded := ⟨h.mode, h.phase, h.wq⟩

/-- No move of the other agents, a reset among them, puts anything into WQ or starts a command (R19). -/
theorem runEnded_movesKeep : MovesKeep State.runEnded State.runEnded :=
  .of (fun _ _ => EnvOnly.runEnded) (fun _ _ => EnvOnly.runEnded) (fun _ _ h _ => h.runEnded) fun _ _ h _ => h.runEnded

theorem idleTurn_onlyStores (henv : EnvOnly s s.idleTurn) : OnlyStores s s.idleTurn [] :=
  Framed.onlyStores (es := []) (fun hu => idleTurn_of_turn (Framed.refl hu).turn) henv.events nofun

/-- Settles O10: the step is one turn of the other agents, which is moves of ENV only or has a reset in it. -/
theorem waitsForACommand : Obligations.WaitsForACommand := by
  intro s hm hpin htake
  refine ⟨s.idleTurn, by simp only [step, hpin, hm, htake], runEnded_movesKeep.idleTurn, ?_⟩
  obtain ⟨-, henv, -⟩ | ⟨-, hahead, hreset⟩ := takeTurn_cases s
  · exact .inl ⟨henv.events, henv.unchanged, henv.latch, henv.work, henv.phase, henv.res, henv.rval,
      henv.wq.length_le, idleTurn_onlyStores henv⟩
  · exact .inr ⟨hreset, fun hnone => absurd (hnone.symm.trans hahead) nofun⟩

/-! ### The queued writes at a reset (R242) -/

/-- The queued writes that a reset still lets the target observe, oldest first. -/
def observedAtReset (q : List WEntry) (keep : List Bool) : List WEntry :=
  ((q.zip keep).filter Prod.snd).map Prod.fst

theorem settleQueue_seen_eq (s : State) (keep : List Bool) :
    (s.settleQueue keep).target.seen = (observedAtReset s.wq keep).reverse ++ s.target.seen := by
  unfold State.settleQueue
  rw [← List.foldl_map]
  exact foldl_observeEntry_seen _ _

theorem observedAtReset_sublist (q : List WEntry) (keep : List Bool) : (observedAtReset q keep).Sublist q := by
  induction q generalizing keep with
  | nil => exact List.Sublist.refl []
  | cons x q ih =>
    match keep with
    | [] => exact List.nil_sublist _
    | false :: keep => exact (ih keep).cons x
    | true :: keep => exact (ih keep).cons_cons x

/-- Whatever part of the queue is to be observed, some flags say so. -/
theorem exists_observedAtReset_eq {l q : List WEntry} (h : l.Sublist q) : ∃ keep, observedAtReset q keep = l := by
  induction h with
  | slnil => exact ⟨[], rfl⟩
  | cons x _ ih =>
    obtain ⟨keep, hkeep⟩ := ih
    exact ⟨false :: keep, hkeep⟩
  | cons_cons x _ ih =>
    obtain ⟨keep, hkeep⟩ := ih
    exact ⟨true :: keep, congrArg (List.cons x) hkeep⟩

theorem sublist_iff_observedAtReset {l q : List WEntry} : l.Sublist q ↔ ∃ keep, observedAtReset q keep = l := by
  refine ⟨exists_observedAtReset_eq, ?_⟩
  rintro ⟨keep, rfl⟩
  exact observedAtReset_sublist q keep

/-- A step with a block reset signalled: the queue is emptied, and the target has seen the writes kept. -/
theorem step_blockReset_iff {keep : List Bool} {l : List WEntry} :
    (∃ t, step { s with resetPin := some keep } = .next t ∧ t.wq = [] ∧
      t.target.seen = l.reverse ++ s.target.seen) ↔ observedAtReset s.wq keep = l := by
  have hseen : (State.blockReset { s with resetPin := some keep } keep).target.seen =
      (observedAtReset s.wq keep).reverse ++ s.target.seen := settleQueue_seen_eq _ keep
  constructor
  · rintro ⟨t, hx, -, ht⟩
    cases hx
    exact List.reverse_injective (List.append_cancel_right (hseen.symm.trans ht))
  · rintro rfl
    exact ⟨_, rfl, rfl, hseen⟩

/-- Settles O12: the flags of a reset pick any part of the queue, and leave what they pick in its order. -/
theorem queuedWritesAtReset : Obligations.QueuedWritesAtReset := by
  intro s l
  simp only [step_blockReset_iff, sublist_iff_observedAtReset]

end Sys2Proof.Machine
end
